-- ==== Sys2Proof/Word.lean ====
section
/-! DEFINITION. The word types of the block (00_scope.md R9, R10): bytes, 16-bit input words and tree
entries, 32-bit host registers. All values are unsigned. -/

namespace Sys2Proof

/-- A byte of output, history, or of the host window. -/
abbrev Byte := BitVec 8

/-- A 16-bit input word or tree entry (R9). -/
abbrev Half := BitVec 16

/-- A 32-bit host register (R20). -/
abbrev Word := BitVec 32

end Sys2Proof
end

