-- ==== Sys2Proof/Config.lean ====
section
/-! DEFINITION. What an implementation fixes: the two presets of the format constants (00_scope.md R5 to R8),
the fixed copy-range tables (R7), and the free values of the model, opaque constants without a body. -/

namespace Sys2Proof

/-- The open parameter `CFG` of R5, R8 and D32: the spec's normative preset and the document's literal one. -/
inductive Preset where
  | a2m
  | doc64
deriving DecidableEq, Repr

namespace Config

/-- The end-of-stream symbol (R5). -/
def terminate : Nat := 256
/-- The first copy symbol (R5). -/
def firstCode : Nat := 257
/-- The number of copy ranges (R5). -/
def copyRanges : Nat := 6
/-- The shortest copy (R5). -/
def minCopy : Nat := 3
/-- The root frequency that triggers a rescale (R5). -/
def maxFreq : Nat := 2000
/-- The encoder's window (R5); no decoder check uses it (R104). -/
def maxDistance : Nat := 21389
/-- The size of IN_MEM in words and of OUT_MEM in bytes (R5, R31). -/
def maxBuf : Nat := 43008
/-- The margin of the capacity check (R5, R100). -/
def capMargin : Nat := 4096
/-- The tree index of the root (R5). -/
def root : Nat := 1
/-- The largest declared size START accepts (R6). -/
def declMax : Nat := maxBuf - capMargin

/-- `copybits[r]`: how many extra distance bits range `r` has (R7). -/
def copyBits : Fin 6 → Nat
  | 0 => 4
  | 1 => 6
  | 2 => 8
  | 3 => 10
  | 4 => 12
  | 5 => 14

/-- `copymin[r]`: the least distance offset of range `r` (R7). -/
def copyMin : Fin 6 → Nat
  | 0 => 0
  | 1 => 16
  | 2 => 80
  | 3 => 336
  | 4 => 1360
  | 5 => 5456

/-- The size of the block's window in the platform's address map, 512 KiB (R40). -/
def windowBytes : Nat := 0x80000

/-- FREE VALUE. The byte a host read gets where the spec leaves it unspecified (R30, R41, U9, U10), by draw
number and window offset: nothing is known of it (log 6). -/
opaque freeByte (draw offset : Nat) : Byte

end Config

/-- The longest copy of a preset (R5, R8). -/
def Preset.maxCopy : Preset → Nat
  | .a2m => 255
  | .doc64 => 66

/-- How many copy lengths each range has (R5, R8). -/
def Preset.codesPerRange (c : Preset) : Nat := c.maxCopy - Config.minCopy + 1

/-- The largest symbol, and the number of internal nodes (R6). -/
def Preset.maxChar (c : Preset) : Nat := Config.firstCode + Config.copyRanges * c.codesPerRange - 1

/-- The number of symbols; symbol `s` is leaf `s + SUCCMAX` (R6). -/
def Preset.succMax (c : Preset) : Nat := c.maxChar + 1

/-- The last tree node (R6). -/
def Preset.twiceMax (c : Preset) : Nat := 2 * c.succMax - 1

/-- The length of the history window in bytes (R6). -/
def Preset.maxSize (c : Preset) : Nat := Config.maxDistance + c.maxCopy

end Sys2Proof
end

