-- ==== Sys2Proof/Machine/RegFile.lean ====
section
/-! DEFINITION. A register file of `n` 16-bit entries as plain data (10_state.md R19). The entries stand at the ends of a
binary tree, an entry's place given by the bits of its index, least significant first: the entries of even index on the
left, those of odd index on the right. A file of `n` entries has exactly one such form, so equal files are equal data,
and a read or a write takes as many steps as the index has bits. -/

namespace Sys2Proof.Machine

/-- The entries of a register file, split by the parity of their index. -/
inductive RegFile where
  | cell (v : Half)
  | fork (evens odds : RegFile)
deriving DecidableEq, Repr

/-- `A[i]` of R11. -/
def RegFile.get : RegFile → Nat → Half
  | .cell v, _ => v
  | .fork evens odds, i => if i % 2 = 0 then evens.get (i / 2) else odds.get (i / 2)

/-- `A[i] <- v` of R11. -/
def RegFile.set : RegFile → Nat → Half → RegFile
  | .cell _, _, v => .cell v
  | .fork evens odds, i, v =>
    if i % 2 = 0 then .fork (evens.set (i / 2) v) odds else .fork evens (odds.set (i / 2) v)

/-- The file whose entry `i` is `f i A[i]`. -/
def RegFile.mapIdx : (Nat → Half → Half) → RegFile → RegFile
  | f, .cell v => .cell (f 0 v)
  | f, .fork evens odds =>
    .fork (evens.mapIdx fun i => f (2 * i)) (odds.mapIdx fun i => f (2 * i + 1))

/-- The file of `n` entries that all hold `v`, for `1 ≤ n ≤ 2 ^ depth`. -/
def RegFile.fill : (depth n : Nat) → Half → RegFile
  | 0, _, v => .cell v
  | d + 1, n, v =>
    if n ≤ 1 then .cell v else .fork (RegFile.fill d ((n + 1) / 2) v) (RegFile.fill d (n / 2) v)

/-- The file has exactly `n` entries. -/
def RegFile.hasSize : RegFile → Nat → Bool
  | .cell _, n => n == 1
  | .fork evens odds, n => 2 ≤ n && evens.hasSize ((n + 1) / 2) && odds.hasSize (n / 2)

end Sys2Proof.Machine
end

