-- ==== Sys2Proof/Machine/Tree.lean ====
section
/-! DEFINITION. The adaptive Huffman tree (41_huffman_tree.md): the four register files, their indexed accesses, and the
operations of R63 to R68. An operation answers `none` where it would index outside a file's used entries (R19) or
where a walk along `dad` never reaches the root: R69 gives neither a case to arise, and U3 calls it a modelling error; the
machine turns it into the fault `treeContract` (log 8). -/

namespace Sys2Proof.Machine

/-- The tree register files of R19. -/
structure Tree where
  dad : RegFile
  freq : RegFile
  left : RegFile
  right : RegFile
deriving DecidableEq, Repr

/-- The files right after reset. The spec leaves every entry unspecified (R30); the model holds 0 (log 7). -/
def Tree.reset (c : Preset) : Tree where
  dad := RegFile.fill 12 (c.twiceMax + 1) 0
  freq := RegFile.fill 12 (c.twiceMax + 1) 0
  left := RegFile.fill 12 (c.maxChar + 1) 0
  right := RegFile.fill 12 (c.maxChar + 1) 0

/-! The used entries of the files (R19). -/

/-- `x` is a used entry of `dad`: `2..TWICEMAX`. -/
def Tree.hasDad (c : Preset) (x : Nat) : Bool := 2 ≤ x && x ≤ c.twiceMax
/-- `x` is a used entry of `freq`: `1..TWICEMAX`. -/
def Tree.isNode (c : Preset) (x : Nat) : Bool := 1 ≤ x && x ≤ c.twiceMax
/-- `x` is a used entry of `left` and `right`: `1..MAXCHAR`. -/
def Tree.isInternal (c : Preset) (x : Nat) : Bool := 1 ≤ x && x ≤ c.maxChar

/-- `dad[x]`. -/
def Tree.dadOf (c : Preset) (t : Tree) (x : Nat) : Option Nat :=
  if Tree.hasDad c x then some (t.dad.get x).toNat else none
/-- `freq[x]`. -/
def Tree.freqOf (c : Preset) (t : Tree) (x : Nat) : Option Half :=
  if Tree.isNode c x then some (t.freq.get x) else none
/-- `left[x]`. -/
def Tree.leftOf (c : Preset) (t : Tree) (x : Nat) : Option Nat :=
  if Tree.isInternal c x then some (t.left.get x).toNat else none
/-- `right[x]`. -/
def Tree.rightOf (c : Preset) (t : Tree) (x : Nat) : Option Nat :=
  if Tree.isInternal c x then some (t.right.get x).toNat else none

/-- `dad[x] <- p`. -/
def Tree.setDad (c : Preset) (t : Tree) (x p : Nat) : Option Tree :=
  if Tree.hasDad c x then some { t with dad := t.dad.set x (BitVec.ofNat 16 p) } else none
/-- `freq[x] <- v`. -/
def Tree.setFreq (c : Preset) (t : Tree) (x : Nat) (v : Half) : Option Tree :=
  if Tree.isNode c x then some { t with freq := t.freq.set x v } else none
/-- `left[x] <- y`. -/
def Tree.setLeft (c : Preset) (t : Tree) (x y : Nat) : Option Tree :=
  if Tree.isInternal c x then some { t with left := t.left.set x (BitVec.ofNat 16 y) } else none
/-- `right[x] <- y`. -/
def Tree.setRight (c : Preset) (t : Tree) (x y : Nat) : Option Tree :=
  if Tree.isInternal c x then some { t with right := t.right.set x (BitVec.ofNat 16 y) } else none

/-- `init_tree()` (R63): entries 0, `dad[ROOT]` and `freq[ROOT]` keep what they hold. -/
def Tree.init (c : Preset) (t : Tree) : Tree where
  dad := t.dad.mapIdx fun i v => if Tree.hasDad c i then BitVec.ofNat 16 (i / 2) else v
  freq := t.freq.mapIdx fun i v => if Tree.hasDad c i then 1 else v
  left := t.left.mapIdx fun i v => if Tree.isInternal c i then BitVec.ofNat 16 (2 * i) else v
  right := t.right.mapIdx fun i v => if Tree.isInternal c i then BitVec.ofNat 16 (2 * i + 1) else v

/-- The other child of `p` beside `x`, by the test of R64: `right[p]` if `left[p] == x`, else `left[p]`. -/
def Tree.otherChild (c : Preset) (t : Tree) (p x : Nat) : Option Nat := do
  let l ← t.leftOf c p
  if l = x then t.rightOf c p else some l

/-- `sibling(x)` (R64). -/
def Tree.sibling (c : Preset) (t : Tree) (x : Nat) : Option Nat := do
  t.otherChild c (← t.dadOf c x) x

/-- The child of `x` on a code bit: `right[x]` for 1, `left[x]` for 0 (R49, R65). -/
def Tree.child (c : Preset) (t : Tree) (x : Nat) (bit : Bool) : Option Nat :=
  if bit then t.rightOf c x else t.leftOf c x

/-- `rescale()` (R67). -/
def Tree.rescale (c : Preset) (t : Tree) : Tree :=
  { t with freq := t.freq.mapIdx fun i v => if Tree.isNode c i then v >>> 1 else v }

/-- The loop of `propagate_frequency(a, b)` (R66), with the number of levels it may climb. Sums are modulo 2^16 (R12). -/
def Tree.sumUp (c : Preset) : Nat → Tree → Nat → Nat → Option Tree
  | 0, _, _, _ => none
  | n + 1, t, a, b => do
    let p ← t.dadOf c a
    let t ← t.setFreq c p ((← t.freqOf c a) + (← t.freqOf c b))
    if p = Config.root then some t else Tree.sumUp c n t p (← t.sibling c p)

/-- The rescale test that ends `propagate_frequency`: equality with `MAXFREQ`, not `≥` (R66). -/
def Tree.rescaleIfFull (c : Preset) (t : Tree) : Option Tree := do
  if (← t.freqOf c Config.root).toNat = Config.maxFreq then some (t.rescale c) else some t

/-- `propagate_frequency(a, b)` (R66). -/
def Tree.propagate (c : Preset) (t : Tree) (a b : Nat) : Option Tree := do
  (← Tree.sumUp c c.maxChar t a b).rescaleIfFull c

/-- The exchange of R68: `a`, child of `code1`, and its uncle `b`, child of `code2`, take each other's place. It answers
the tree and `c`, the child of `code1` that stays. -/
def Tree.exchange (c : Preset) (t : Tree) (a b code1 code2 : Nat) : Option (Tree × Nat) := do
  let upper ← t.leftOf c code2
  let t ← if upper = code1 then t.setRight c code2 a else t.setLeft c code2 a
  let lower ← t.leftOf c code1
  let t ← if lower = a then t.setLeft c code1 b else t.setRight c code1 b
  let stays ← if lower = a then t.rightOf c code1 else t.leftOf c code1
  let t ← t.setDad c b code1
  let t ← t.setDad c a code2
  some (t, stays)

/-- What one iteration of R68's loop does to the tree, and the node `a` it leaves: the uncle comparison, strict, and on a
greater frequency the exchange and the second propagation. -/
def Tree.promoteOnce (c : Preset) (t : Tree) (a code1 : Nat) : Option (Tree × Nat) := do
  let code2 ← t.dadOf c code1
  let b ← t.otherChild c code2 code1
  if (← t.freqOf c b) < (← t.freqOf c a) then
    let (t, stays) ← t.exchange c a b code1 code2
    some (← t.propagate c b stays, b)
  else
    some (t, a)

/-- The loop of `update_model` (R68), with the number of levels it may climb. -/
def Tree.promote (c : Preset) : Nat → Tree → Nat → Nat → Option Tree
  | 0, _, _, _ => none
  | n + 1, t, a, code1 => do
    let (t, a) ← t.promoteOnce c a code1
    let a ← t.dadOf c a
    let code1 ← t.dadOf c a
    if code1 = Config.root then some t else Tree.promote c n t a code1

/-- `update_model(sym)` (R68). A leaf under the root only has its frequency raised (R71). -/
def Tree.update (c : Preset) (t : Tree) (sym : Nat) : Option Tree := do
  let a := sym + c.succMax
  let t ← t.setFreq c a ((← t.freqOf c a) + 1)
  let code1 ← t.dadOf c a
  if code1 = Config.root then
    some t
  else
    let t ← t.propagate c a (← t.otherChild c code1 a)
    Tree.promote c c.maxChar t a code1

end Sys2Proof.Machine
end

