-- ==== Sys2Proof/Syntax.lean ====
section
/-! DEFINITION. The instructions of the block: the items of the compressed stream (30_encoding.md R48, R54), one
constructor per row of the opcode table. A copy carries the two operands its code and extra field give
(R52, R57): its length, and the value of its extra field in the range's width. -/

namespace Sys2Proof

/-- One item of the stream (R48). `copyR r len extra` is the notation `COPYX r, len, extra` of R57. -/
inductive Instr where
  /-- `LIT` (R76): append byte `b`. -/
  | lit (b : Byte)
  /-- `TERM` (R77): end of the stream. -/
  | term
  /-- `COPY_R0` (R79). -/
  | copyR0 (len : Nat) (extra : BitVec 4)
  /-- `COPY_R1` (R80). -/
  | copyR1 (len : Nat) (extra : BitVec 6)
  /-- `COPY_R2` (R81). -/
  | copyR2 (len : Nat) (extra : BitVec 8)
  /-- `COPY_R3` (R82). -/
  | copyR3 (len : Nat) (extra : BitVec 10)
  /-- `COPY_R4` (R83). -/
  | copyR4 (len : Nat) (extra : BitVec 12)
  /-- `COPY_R5` (R84). -/
  | copyR5 (len : Nat) (extra : BitVec 14)
deriving DecidableEq, Repr

/-- What a decoded symbol is before its extra field is read (R54): a literal, the end marker, or a copy of one of
the six ranges with its length. -/
inductive SymbolClass where
  | lit (b : Byte)
  | term
  | copy (r : Fin 6) (len : Nat)
deriving DecidableEq, Repr

end Sys2Proof
end

