-- ==== Sys2Proof/WellFormed.lean ====
section
/-! DEFINITION. Which instructions a preset's stream can hold (30_encoding.md R53, R54): a copy's length is one its range has
a symbol for. The widths of the literal and of the extra field are in the types. -/

namespace Sys2Proof

/-- A copy length a preset encodes: `MINCOPY..MAXCOPY` (R53). -/
def lengthOk (c : Preset) (len : Nat) : Bool := Config.minCopy ≤ len && len ≤ c.maxCopy

/-- `i` is an item the preset's streams can hold. -/
def WellFormed (c : Preset) : Instr → Bool
  | .lit _ => true
  | .term => true
  | .copyR0 len _ => lengthOk c len
  | .copyR1 len _ => lengthOk c len
  | .copyR2 len _ => lengthOk c len
  | .copyR3 len _ => lengthOk c len
  | .copyR4 len _ => lengthOk c len
  | .copyR5 len _ => lengthOk c len

end Sys2Proof
end

