-- ==== Sys2Proof/Decode.lean ====
section
/-! DEFINITION. The encoding of the stream (30_encoding.md): the decoder of one item from a list of stream bits under a given
tree, and after it the encoder, the notation of R57 and the packing of bits into words. A stream bit is a Bool, first read
first (R36). -/

namespace Sys2Proof

open Sys2Proof.Machine (Tree)

/-! ### The symbol map -/

/-- The class of symbol `s` (R54, R75): `t = s - FIRSTCODE`, `index = t / CODESPERRANGE`,
`length = t + MINCOPY - index*CODESPERRANGE`. No symbol above `MAXCHAR` has a class. -/
def classify (c : Preset) (s : Nat) : Option SymbolClass :=
  if s < 256 then
    some (.lit (BitVec.ofNat 8 s))
  else if s = Config.terminate then
    some .term
  else
    let t := s - Config.firstCode
    let index := t / c.codesPerRange
    if h : index < 6 then
      some (.copy ⟨index, h⟩ (t + Config.minCopy - index * c.codesPerRange))
    else
      none

/-- How many extra bits follow the code of a symbol of this class (R51, R54). -/
def SymbolClass.extraBits : SymbolClass → Nat
  | .lit _ => 0
  | .term => 0
  | .copy r _ => Config.copyBits r

/-- The item of range `r` with this length and extra field value. -/
def Instr.copyOf (r : Fin 6) (len extra : Nat) : Instr :=
  match r with
  | 0 => .copyR0 len (BitVec.ofNat 4 extra)
  | 1 => .copyR1 len (BitVec.ofNat 6 extra)
  | 2 => .copyR2 len (BitVec.ofNat 8 extra)
  | 3 => .copyR3 len (BitVec.ofNat 10 extra)
  | 4 => .copyR4 len (BitVec.ofNat 12 extra)
  | 5 => .copyR5 len (BitVec.ofNat 14 extra)

/-- The item a symbol's class and its extra field value make (R48). -/
def SymbolClass.toInstr (k : SymbolClass) (extra : Nat) : Instr :=
  match k with
  | .lit b => .lit b
  | .term => .term
  | .copy r len => Instr.copyOf r len extra

/-! ### The decoder -/

/-- Why a list of bits is not an item. -/
inductive DecodeError where
  /-- The bits end inside the code or the extra field (R59: the block reports INPUT_EXHAUSTED). -/
  | outOfBits
  /-- The code ends at a node above `TWICEMAX` (R56, R106: unreachable in a tree of the shape of R69). -/
  | symbolRange
  /-- The descent leaves the tree files (R69: unreachable in a tree of that shape). -/
  | treeContract
deriving DecidableEq, Repr

/-- The descent of R49 and R65 from `node`: one bit a level, until a node above `MAXCHAR`. -/
def descendBits (c : Preset) (t : Tree) : Nat → List Bool → Except DecodeError (Nat × List Bool)
  | _, [] => .error .outOfBits
  | node, bit :: rest =>
    match t.child c node bit with
    | none => .error .treeContract
    | some next => if next ≤ c.maxChar then descendBits c t next rest else .ok (next, rest)

/-- An extra field of `n` bits, the first of weight 1 (R51, R60). -/
def extraOfBits : Nat → List Bool → Except DecodeError (Nat × List Bool)
  | 0, rest => .ok (0, rest)
  | _ + 1, [] => .error .outOfBits
  | n + 1, bit :: rest =>
    match extraOfBits n rest with
    | .error e => .error e
    | .ok (v, rest) => .ok (bit.toNat + 2 * v, rest)

/-- One item from the front of a list of stream bits under tree `t` (R48, R49, R51): the item and the bits after it. -/
def decodeItem (c : Preset) (t : Tree) (bits : List Bool) : Except DecodeError (Instr × List Bool) :=
  match descendBits c t Config.root bits with
  | .error e => .error e
  | .ok (node, rest) =>
    match classify c (node - c.succMax) with
    | none => .error .symbolRange
    | some k =>
      match extraOfBits k.extraBits rest with
      | .error e => .error e
      | .ok (v, rest) => .ok (k.toInstr v, rest)

/-! ### The encoder -/

/-- Symbol of a copy of range `r` and length `len`: `FIRSTCODE + r*CODESPERRANGE + (len - MINCOPY)` (R57). -/
def copySymbol (c : Preset) (r : Fin 6) (len : Nat) : Nat :=
  Config.firstCode + r.val * c.codesPerRange + (len - Config.minCopy)

/-- The symbol of an item (R54, R57). -/
def Instr.symbol (c : Preset) : Instr → Nat
  | .lit b => b.toNat
  | .term => Config.terminate
  | .copyR0 len _ => copySymbol c 0 len
  | .copyR1 len _ => copySymbol c 1 len
  | .copyR2 len _ => copySymbol c 2 len
  | .copyR3 len _ => copySymbol c 3 len
  | .copyR4 len _ => copySymbol c 4 len
  | .copyR5 len _ => copySymbol c 5 len

/-- The `n` bits of an extra field value, bit 0 first (R51). -/
def bitsOfExtra : Nat → Nat → List Bool
  | 0, _ => []
  | n + 1, v => decide (v % 2 = 1) :: bitsOfExtra n (v / 2)

/-- The extra field of an item. -/
def Instr.extraField : Instr → List Bool
  | .lit _ => []
  | .term => []
  | .copyR0 _ e => bitsOfExtra 4 e.toNat
  | .copyR1 _ e => bitsOfExtra 6 e.toNat
  | .copyR2 _ e => bitsOfExtra 8 e.toNat
  | .copyR3 _ e => bitsOfExtra 10 e.toNat
  | .copyR4 _ e => bitsOfExtra 12 e.toNat
  | .copyR5 _ e => bitsOfExtra 14 e.toNat

/-- The path from the root to `node`, put before `below` (R49): climbing at most `n` levels, a bit is 1 where the node is its
parent's `right`. -/
def pathBits (c : Preset) (t : Tree) : Nat → Nat → List Bool → Option (List Bool)
  | 0, node, below => if node = Config.root then some below else none
  | n + 1, node, below =>
    if node = Config.root then
      some below
    else do
      let p ← t.dadOf c node
      let r ← t.rightOf c p
      pathBits c t n p (decide (r = node) :: below)

/-- `code(s)` in tree `t` (R49). -/
def codeOf (c : Preset) (t : Tree) (s : Nat) : Option (List Bool) :=
  pathBits c t c.maxChar (s + c.succMax) []

/-- The bits of an item under tree `t` (R48); none for an ill-formed item. -/
def encodeItem (c : Preset) (t : Tree) (i : Instr) : Option (List Bool) :=
  if WellFormed c i then (codeOf c t (i.symbol c)).map (· ++ i.extraField) else none

/-- The bits of a list of items from tree `t`, the encoder updating its own tree after every symbol as the decoder does (R57). -/
def encodeItems (c : Preset) : Tree → List Instr → Option (List Bool)
  | _, [] => some []
  | t, i :: rest => do
    let bits ← encodeItem c t i
    let more ← encodeItems c (← t.update c (i.symbol c)) rest
    some (bits ++ more)

/-- The tree after START of a block of this preset (R63), from the files as they are at reset. -/
def startTree (c : Preset) : Tree := (Tree.reset c).init c

/-- The 16-bit word whose most significant bits are the first of `bits`, filled with 0 (R36, R57). -/
def packWord (bits : List Bool) : Half :=
  BitVec.ofNat 16 ((List.range 16).foldl (fun acc k => 2 * acc + (bits.getD k false).toNat) 0)

/-- `n` words of packed bits, most significant bit first, the last filled with 0 bits (R57). -/
def packWords : Nat → List Bool → List Half
  | 0, _ => []
  | n + 1, bits => packWord bits :: packWords n (bits.drop 16)

/-- How many words `bits` fills. -/
def wordCount (bits : List Bool) : Nat := (bits.length + 15) / 16

/-- The words of a whole program from START (R57). -/
def assemble (c : Preset) (program : List Instr) : Option (List Half) :=
  (encodeItems c (startTree c) program).map fun bits => packWords (wordCount bits) bits

/-! ### The notation of R57 -/

/-- `COPYX r, len, extra`: none where the range has no such length or its field no such value. -/
def copyx (c : Preset) (r : Fin 6) (len extra : Nat) : Option Instr :=
  if lengthOk c len && extra < 2 ^ Config.copyBits r then some (Instr.copyOf r len extra) else none

/-- The pseudo-instruction `COPY len, dist`: `COPYX` of the range that holds `dist - len`, if any. -/
def copyPseudo (c : Preset) (len dist : Nat) : Option Instr :=
  if dist < len then
    none
  else do
    let r ← (List.finRange 6).find? fun r =>
      Config.copyMin r ≤ dist - len && dist - len ≤ Config.copyMin r + 2 ^ Config.copyBits r - 1
    copyx c r len (dist - len - Config.copyMin r)

/-! ### The opcode table's numbering

The table's `match` and `mask` apply to the decoded symbol value, 11 bits wide, not to stream bits, since a symbol's
code changes with the tree (opcode_table.json, R49). So a table word is the symbol in bits 10:0, and above it the extra field, the
first bit read lowest (log 14). -/

/-- The symbol a table word gives. -/
def tableSymbol (w : Nat) : Nat := w % 2048

/-- The stream bits a table word stands for under tree `t`: the symbol's code, then its extra field. None for a word that gives
no symbol, or that has bits its symbol's format has no place for. -/
def tableBits (c : Preset) (t : Tree) (nbits w : Nat) : Option (List Bool) := do
  let w := w % 2 ^ nbits
  let k ← classify c (tableSymbol w)
  let extra := w / 2048
  if extra < 2 ^ k.extraBits then
    (codeOf c t (tableSymbol w)).map (· ++ bitsOfExtra k.extraBits extra)
  else
    none

/-- What the decoder reads from a table word laid out as stream bits at the start of a job of the normative preset. -/
def decodeTableWord (nbits w : Nat) : Option Instr := do
  let bits ← tableBits .a2m (startTree .a2m) nbits w
  match decodeItem .a2m (startTree .a2m) bits with
  | .ok (i, _) => some i
  | .error _ => none

end Sys2Proof
end

