-- ==== Sys2Proof/Machine/Memory.lean ====
section
/-! DEFINITION. A memory of the block as plain data (20_memory.md R31): a list of (address, byte) cells in one canonical form. An
unlisted address holds no value (R30, log 5), so no entry can equal what an unlisted address reads as, and the form is that
the addresses strictly rise. -/

namespace Sys2Proof.Machine

/-- The bytes a memory holds. -/
abbrev Memory := List Host.Cell

/-- Every address of the list is above `low`, and the addresses strictly rise. -/
def Memory.above : Nat → Memory → Bool
  | _, [] => true
  | low, (a, _) :: rest => low < a && Memory.above a rest

/-- The canonical form: the addresses strictly rise. -/
def Memory.wf : Memory → Bool
  | [] => true
  | (a, _) :: rest => Memory.above a rest

/-- The byte at an address; none where nothing has been written (R30). -/
def Memory.read : Memory → Nat → Option Byte
  | [], _ => none
  | (b, v) :: rest, a => if a = b then some v else Memory.read rest a

/-- A write of one byte, which keeps the canonical form. -/
def Memory.write : Memory → Nat → Byte → Memory
  | [], a, v => [(a, v)]
  | (b, w) :: rest, a, v =>
    if a < b then (a, v) :: (b, w) :: rest
    else if a = b then (a, v) :: rest
    else (b, w) :: Memory.write rest a v

/-- The little-endian word of the bytes at `2w` and `2w + 1` (R35); none while either holds no value. -/
def Memory.readWord (m : Memory) (w : Nat) : Option Half := do
  let low ← m.read (2 * w)
  let high ← m.read (2 * w + 1)
  some (high ++ low)

/-- Word `w` written as its two bytes, low byte first (R35). -/
def Memory.writeWord (m : Memory) (w : Nat) (v : Half) : Memory :=
  (m.write (2 * w) (v.extractLsb' 0 8)).write (2 * w + 1) (v.extractLsb' 8 8)

end Sys2Proof.Machine
end

