-- ==== Sys2Proof/Machine/State.lean ====
section
/-! DEFINITION. The machine's state as plain data (10_state.md R13), what can be asked of it from outside, the reasons a step
can stop, and the state right after reset (R30). -/

namespace Sys2Proof.Machine

/-- The engine control state (R28). -/
inductive Fsm where
  | idle
  | busy
  | done
  | error
deriving DecidableEq, Repr

/-- The causes of `raise` and of a refusal at START (R99). They are no faults of the model: a step that raises one answers a
next state, with `fsm = ERROR` and `ERR_INFO` written (R108). -/
inductive ErrCause where
  | declSizeTooLarge
  | inLenTooLarge
  | inputExhausted
  | earlyTerminate
  | distUnwritten
  | distBeyondHistory
  | outputOverrun
  /-- Reserved by R99 and R106: raised in no state whose tree has the shape of R69. -/
  | symbolRange
deriving DecidableEq, Repr

/-- The width of a host access (R38). -/
inductive Width where
  | w8
  | w16
  | w32
deriving DecidableEq, Repr

/-- One host access at a platform byte address (R40, R87). A write carries its value in the low bits of `value`. -/
inductive HostAccess where
  | read (addr : Nat) (width : Width)
  | write (addr : Nat) (width : Width) (value : Word)
deriving DecidableEq, Repr

/-- One transition of the block (R43, R87, R119): the engine's, a host access, or the reset input. -/
inductive Turn where
  | engine
  | host (access : HostAccess)
  | reset
deriving DecidableEq, Repr

/-- What a host access gets back: the read data (0 for a write), and whether it is a bus error (R38). -/
structure BusResponse where
  data : Word
  busError : Bool
deriving DecidableEq, Repr

/-- Why a step stops. Each is safe: the model stops where hardware would go on, and it stops only where the spec gives no
value or says that the case does not arise. -/
inductive Fault where
  /-- Raised by the bit reader when it loads an `IN_MEM` word of which a byte has never been written since reset: the
  cell holds no value, and R30 calls its read a fault. Safe. -/
  | inMemNoValue
  /-- Raised by a copy that reads a `HIST` cell never written since reset (R30); unreachable in a job (R34). Safe. -/
  | histNoValue
  /-- Raised by the bit reader for a word index at or above `MAXBUF`, which `IN_MEM` does not have (R31); unreachable, since START
  refuses such an `IN_LEN` (R100). Safe. -/
  | inMemRange
  /-- Raised by `emit_byte` for an index at or above `MAXBUF`, which `OUT_MEM` does not have (R31); unreachable (R72). Safe. -/
  | outMemRange
  /-- Raised by `emit_byte` when `hcur` is at or above `MAXSIZE`, a cell `HIST` does not have (R17, R31); unreachable. Safe. -/
  | histRange
  /-- Raised by the descent and by `update_model` where an index leaves a tree file's used entries or a walk up never
  meets the root; unreachable in a tree of the shape of R69 (U3). Safe. -/
  | treeContract
deriving DecidableEq, Repr

/-- Why an instruction has no meaning in this model. -/
inductive Refusal where
  /-- Raised by an arm of `exec` for an instruction that has no meaning yet. Safe. No arm does. -/
  | notModelled (mnemonic : String)
deriving DecidableEq, Repr

/-- All the state the spec gives the block (R13), its two open parameters, and the model's own three fields. -/
structure State where
  /-- The open parameter CFG (R8, D32); no step changes it. -/
  cfg : Preset
  /-- The open parameter BLOCK_BASE divided by its alignment of 512 KiB (R40, D31); no step changes it. -/
  blockIndex : Nat
  /-- `CTRL.IRQ_EN` (R21). -/
  irqEn : Bool
  /-- The engine control state (R28). -/
  fsm : Fsm
  /-- `IN_LEN` in words (R23). -/
  inLen : BitVec 16
  /-- `DECL_SIZE` in bytes (R24). -/
  declSize : BitVec 16
  /-- `OUT_COUNT`, the bytes produced (R25). -/
  outCount : BitVec 16
  /-- `ERR_INFO` (R26). -/
  errInfo : BitVec 32
  /-- The bit reader's shift register (R15). -/
  bitbuffer : BitVec 16
  /-- How many bits of the loaded word remain (R15). -/
  bitcount : BitVec 4
  /-- The number of words loaded (R15). -/
  widx : BitVec 16
  /-- The history write cursor (R17). -/
  hcur : BitVec 15
  /-- The tree register files (R19). -/
  tree : Tree
  /-- `IN_MEM`, word `w` as the bytes `2w` and `2w + 1` (R31, R35). -/
  inMem : Memory
  /-- `OUT_MEM` (R31). -/
  outMem : Memory
  /-- `HIST` (R31). -/
  hist : Memory
  /-- MODEL'S OWN (log 6): the number of the draw of the bytes a host read finds unspecified. -/
  draw : Nat
  /-- MODEL'S OWN (log 3): the turns still to come in the total order of R43; once empty, the engine's. -/
  schedule : List Turn
  /-- MODEL'S OWN (log 4): what the last host access got back. -/
  resp : Option BusResponse
deriving DecidableEq, Repr

/-- The state right after reset (R30, R119) of a block with these parameters. The tree files, which R30 leaves unspecified, hold
0 (log 7), and the memories hold no value (log 5). -/
def State.resetOf (c : Preset) (index : Nat) : State where
  cfg := c
  blockIndex := index
  irqEn := false
  fsm := .idle
  inLen := 0
  declSize := 0
  outCount := 0
  errInfo := 0
  bitbuffer := 0
  bitcount := 0
  widx := 0
  hcur := 0
  tree := Tree.reset c
  inMem := []
  outMem := []
  hist := []
  draw := 0
  schedule := []
  resp := none

/-- The state right after reset of a block of the normative preset A2M (R8, log 1) at base 0 (log 2). -/
def State.reset : State := State.resetOf .a2m 0

end Sys2Proof.Machine
end

