-- ==== Sys2Proof/Machine/Flags.lean ====
section
/-! DEFINITION. The block's only flags and the register values the host reads that are views of the state (10_state.md R22, R27,
60_exceptions.md R110), and the record an error leaves (R99). -/

namespace Sys2Proof.Machine

/-- `irq = CTRL.IRQ_EN & (fsm == DONE | fsm == ERROR)` (R110). -/
def State.irq (s : State) : Bool := s.irqEn && (s.fsm == .done || s.fsm == .error)

/-- `STATUS`: BUSY, DONE, ERR and IRQ in bits 0 to 3 (R22). -/
def State.status (s : State) : Word :=
  0#28 ++ BitVec.ofBool s.irq ++ BitVec.ofBool (s.fsm == .error) ++ BitVec.ofBool (s.fsm == .done)
    ++ BitVec.ofBool (s.fsm == .busy)

/-- `CTRL` as read: `{29'b0, IRQ_EN, 1'b0, 1'b0}` (R88). -/
def State.ctrl (s : State) : Word := 0#29 ++ BitVec.ofBool s.irqEn ++ 0#2

/-- The bit cursor `bitpos = 16*widx - bitcount`, the block's program counter (R16). -/
def State.bitpos (s : State) : Nat := 16 * s.widx.toNat - s.bitcount.toNat

/-- `BITS_USED`: the bit cursor in bits 19:0 (R27). -/
def State.bitsUsed (s : State) : Word := (BitVec.ofNat 20 s.bitpos).setWidth 32

/-- `ERR_CODE` (R99). -/
def ErrCause.code : ErrCause → BitVec 4
  | .declSizeTooLarge => 1
  | .inLenTooLarge => 1
  | .inputExhausted => 2
  | .earlyTerminate => 2
  | .distUnwritten => 3
  | .distBeyondHistory => 3
  | .outputOverrun => 3
  | .symbolRange => 3

/-- `ERR_DETAIL` (R99). -/
def ErrCause.detail : ErrCause → BitVec 4
  | .declSizeTooLarge => 1
  | .inLenTooLarge => 2
  | .inputExhausted => 1
  | .earlyTerminate => 2
  | .distUnwritten => 1
  | .distBeyondHistory => 2
  | .outputOverrun => 3
  | .symbolRange => 4

/-- The word `enter_error` writes: `zext_32({detail[3:0], 4'b0000, code[3:0]})` (R108). -/
def ErrCause.info (e : ErrCause) : Word := (e.detail ++ 0#4 ++ e.code).setWidth 32

end Sys2Proof.Machine
end

