-- ==== Sys2Proof/Machine/Ops.lean ====
section
/-! DEFINITION. The named operations the engine's symbols share: entering an error (60_exceptions.md R108), the bit reader
(40_bitstream_reader.md), and the two primitives of output and history (42_lz_copy.md R72, R73). -/

namespace Sys2Proof.Machine

/-- How a part of an engine step ends (R98): with a value, with an error raised and the effects made so far kept, or with the
model stopped. -/
inductive Flow (α : Type) where
  | ok (a : α) (s : State)
  | raised (e : ErrCause) (s : State)
  | stop (f : Fault)
deriving DecidableEq, Repr

/-- `enter_error(code, detail)` (R108): `ERR_INFO` and `fsm`, and nothing else. There is no handler and no return; `ERROR` is
left by `clearAction`, `startAction` or reset (R109). -/
def enterError (e : ErrCause) (s : State) : State := { s with errInfo := e.info, fsm := .error }

/-! ### The bit reader -/

/-- `MemRead(IN_MEM, w, 2)` (R32). -/
def loadWord (s : State) (w : Nat) : Except Fault Half :=
  if Config.maxBuf ≤ w then
    .error .inMemRange
  else
    match s.inMem.readWord w with
    | none => .error .inMemNoValue
    | some v => .ok v

/-- The register shifted out by one bit, its top bit delivered (R58). -/
def shiftOut (v : Half) (s : State) : Flow Bool := .ok v.msb { s with bitbuffer := v <<< 1 }

/-- `read_bit()` (R58, R59). -/
def readBit (s : State) : Flow Bool :=
  if s.bitcount = 0 then
    if s.inLen ≤ s.widx then
      .raised .inputExhausted s
    else
      match loadWord s s.widx.toNat with
      | .error f => .stop f
      | .ok v => shiftOut v { s with widx := s.widx + 1, bitcount := 15 }
  else
    shiftOut s.bitbuffer { s with bitcount := s.bitcount - 1 }

/-- `read_bits(n)` (R60): the first bit read has weight 1, the next 2, and so on. -/
def readBits : Nat → State → Flow Nat
  | 0, s => .ok 0 s
  | n + 1, s =>
    match readBit s with
    | .raised e s => .raised e s
    | .stop f => .stop f
    | .ok bit s =>
      match readBits n s with
      | .raised e s => .raised e s
      | .stop f => .stop f
      | .ok v s => .ok (bit.toNat + 2 * v) s

/-- How many bits `read_bit` can still deliver before it raises INPUT_EXHAUSTED (R59). -/
def bitsLeft (s : State) : Nat := 16 * (s.inLen.toNat - s.widx.toNat) + s.bitcount.toNat

/-! ### Output and history -/

/-- `emit_byte(v)` (R72). -/
def emitByte (v : Byte) (s : State) : Except Fault State :=
  if Config.maxBuf ≤ s.outCount.toNat then
    .error .outMemRange
  else if s.cfg.maxSize ≤ s.hcur.toNat then
    .error .histRange
  else
    .ok { s with
      outMem := s.outMem.write s.outCount.toNat v
      outCount := s.outCount + 1
      hist := s.hist.write s.hcur.toNat v
      hcur := BitVec.ofNat 15 ((s.hcur.toNat + 1) % s.cfg.maxSize) }

/-- The loop of `copy_exec` (R73): `n` bytes from source cursor `k`, each read after the byte before it was written. -/
def copyFrom : Nat → Nat → State → Except Fault State
  | 0, _, s => .ok s
  | n + 1, k, s =>
    match s.hist.read k with
    | none => .error .histNoValue
    | some v =>
      match emitByte v s with
      | .error f => .error f
      | .ok s => copyFrom n ((k + 1) % s.cfg.maxSize) s

/-- Where a copy starts to read: `(hcur + MAXSIZE - distance) mod MAXSIZE` (R73). -/
def copySource (distance : Nat) (s : State) : Nat :=
  (s.hcur.toNat + s.cfg.maxSize - distance) % s.cfg.maxSize

/-- `copy_exec(distance, length)` (R73). -/
def copyExec (distance length : Nat) (s : State) : Except Fault State :=
  copyFrom length (copySource distance s) s

/-- The outcome of a symbol whose last part may stop the model. -/
def outcomeOf : Except Fault State → Host.Outcome State Fault Refusal
  | .ok s => .next s
  | .error f => .fault f

end Sys2Proof.Machine
end

