-- ==== Sys2Proof/Machine/Operands.lean ====
section
/-! DEFINITION. The operands of a copy (30_encoding.md R52, 42_lz_copy.md R75) and the checks made on them before any byte is
written (R78, R107). -/

namespace Sys2Proof.Machine

/-- `distance = extra + length + copymin[index]` (R52). -/
def copyDistance (r : Fin 6) (len extra : Nat) : Nat := extra + len + Config.copyMin r

/-- The first check of R78 that a copy fails, in R78's order; none where it may run. `distance == out_count` and
`MAXDISTANCE < distance ≤ MAXSIZE` are legal (R103, R104). -/
def copyRefusal (distance len : Nat) (s : State) : Option ErrCause :=
  if s.outCount.toNat < distance then some .distUnwritten
  else if s.cfg.maxSize < distance then some .distBeyondHistory
  else if s.declSize.toNat < s.outCount.toNat + len then some .outputOverrun
  else none

end Sys2Proof.Machine
end

