-- ==== Sys2Proof/Machine/Copy.lean ====
section
/-! DEFINITION. The meanings of the six copy classes (42_lz_copy.md R78 to R84): one execution, shared, and one definition for each
class. -/

namespace Sys2Proof.Machine

/-- The copy execution shared by the six classes (R78): the checks, all before any byte is written, then the copy. -/
def execCopy (r : Fin 6) (len extra : Nat) (s : State) : Host.Outcome State Fault Refusal :=
  match copyRefusal (copyDistance r len extra) len s with
  | some e => .next (enterError e s)
  | none => outcomeOf (copyExec (copyDistance r len extra) len s)

/-- `COPY_R0` (R79): distance `extra + length`. -/
def execCopyR0 (len : Nat) (extra : BitVec 4) (s : State) : Host.Outcome State Fault Refusal :=
  execCopy 0 len extra.toNat s

/-- `COPY_R1` (R80): distance `extra + length + 16`. -/
def execCopyR1 (len : Nat) (extra : BitVec 6) (s : State) : Host.Outcome State Fault Refusal :=
  execCopy 1 len extra.toNat s

/-- `COPY_R2` (R81): distance `extra + length + 80`. -/
def execCopyR2 (len : Nat) (extra : BitVec 8) (s : State) : Host.Outcome State Fault Refusal :=
  execCopy 2 len extra.toNat s

/-- `COPY_R3` (R82): distance `extra + length + 336`. -/
def execCopyR3 (len : Nat) (extra : BitVec 10) (s : State) : Host.Outcome State Fault Refusal :=
  execCopy 3 len extra.toNat s

/-- `COPY_R4` (R83): distance `extra + length + 1360`. -/
def execCopyR4 (len : Nat) (extra : BitVec 12) (s : State) : Host.Outcome State Fault Refusal :=
  execCopy 4 len extra.toNat s

/-- `COPY_R5` (R84): distance `extra + length + 5456`. -/
def execCopyR5 (len : Nat) (extra : BitVec 14) (s : State) : Host.Outcome State Fault Refusal :=
  execCopy 5 len extra.toNat s

end Sys2Proof.Machine
end

