-- ==== Sys2Proof/Machine/Literal.lean ====
section
/-! DEFINITION. The meaning of a literal (42_lz_copy.md R76). -/

namespace Sys2Proof.Machine

/-- `LIT` (R76): the overrun check, then the byte to output and history. -/
def execLit (b : Byte) (s : State) : Host.Outcome State Fault Refusal :=
  if s.declSize.toNat < s.outCount.toNat + 1 then
    .next (enterError .outputOverrun s)
  else
    outcomeOf (emitByte b s)

end Sys2Proof.Machine
end

