-- ==== Sys2Proof/Machine/Terminate.lean ====
section
/-! DEFINITION. The meaning of the end marker (42_lz_copy.md R77). -/

namespace Sys2Proof.Machine

/-- `TERM` (R77): the job is DONE with exactly `DECL_SIZE` bytes, else it ends in EARLY_TERMINATE (R102). -/
def execTerm (s : State) : Host.Outcome State Fault Refusal :=
  if s.outCount ≠ s.declSize then
    .next (enterError .earlyTerminate s)
  else
    .next { s with fsm := .done }

end Sys2Proof.Machine
end

