-- ==== Sys2Proof/Machine/Dispatch.lean ====
section
/-! DEFINITION. Which meaning an item of the stream has (43_engine_control.md R92): one arm per constructor. -/

namespace Sys2Proof.Machine

def exec (i : Instr) (s : State) : Host.Outcome State Fault Refusal :=
  match i with
  | .lit b => Sys2Proof.Machine.execLit b s
  | .term => Sys2Proof.Machine.execTerm s
  | .copyR0 len extra => Sys2Proof.Machine.execCopyR0 len extra s
  | .copyR1 len extra => Sys2Proof.Machine.execCopyR1 len extra s
  | .copyR2 len extra => Sys2Proof.Machine.execCopyR2 len extra s
  | .copyR3 len extra => Sys2Proof.Machine.execCopyR3 len extra s
  | .copyR4 len extra => Sys2Proof.Machine.execCopyR4 len extra s
  | .copyR5 len extra => Sys2Proof.Machine.execCopyR5 len extra s

end Sys2Proof.Machine
end

