-- ==== Sys2Proof/Machine/Control.lean ====
section
/-! DEFINITION. The host's commands (43_engine_control.md R88 to R90) and the reset input (70_reset_and_hazards.md R119). -/

namespace Sys2Proof.Machine

/-- What START writes before its checks (R89): the error record, the counters and the cursors. The bytes of `OUT_MEM` at or above the
new `OUT_COUNT` are unspecified anew, so the draw of free bytes moves on (R41, log 6). -/
def clearJob (s : State) : State :=
  { s with
    errInfo := 0
    outCount := 0
    widx := 0
    bitcount := 0
    bitbuffer := 0
    hcur := 0
    draw := s.draw + 1 }

/-- The fresh tree and `fsm <- BUSY` (R89). -/
def enterBusy (s : State) : State := { s with tree := s.tree.init s.cfg, fsm := .busy }

/-- The capacity check of START (R100), DECL_SIZE first. -/
def capacityRefusal (s : State) : Option ErrCause :=
  if Config.maxBuf < s.declSize.toNat + Config.capMargin then some .declSizeTooLarge
  else if Config.maxBuf < s.inLen.toNat then some .inLenTooLarge
  else none

/-- `start_action()` (R89). -/
def startAction (s : State) : State :=
  match capacityRefusal s with
  | some e => enterError e (clearJob s)
  | none => enterBusy (clearJob s)

/-- `clear_action()` (R90). -/
def clearAction (s : State) : State := { s with fsm := .idle }

/-- A host write of `v` to `CTRL` (R88): `IRQ_EN`, then START unless BUSY, else CLEAR in DONE or ERROR. -/
def writeCtrl (v : Word) (s : State) : State :=
  let s := { s with irqEn := v.getLsbD 2 }
  if v.getLsbD 0 then
    if s.fsm = .busy then s else startAction s
  else if v.getLsbD 1 then
    if s.fsm = .done ∨ s.fsm = .error then clearAction s else s
  else
    s

/-- The reset input (R119): every piece of the block's state as R30 says. The parameters stay, the turns that follow stay, and the
draw of free bytes moves on. -/
def resetInput (s : State) : State :=
  { State.resetOf s.cfg s.blockIndex with draw := s.draw + 1, schedule := s.schedule }

end Sys2Proof.Machine
end

