-- ==== Sys2Proof/Machine/HostBus.lean ====
section
/-! DEFINITION. The host's accesses to the block's window (20_memory.md R37 to R41, 10_state.md R20 to R27, 43_engine_control.md R91).
A host access is one transition; a read changes nothing but the model's own record of what it got back. -/

namespace Sys2Proof.Machine

/-- How many bytes an access of this width moves (R38). -/
def Width.bytes : Width → Nat
  | .w8 => 1
  | .w16 => 2
  | .w32 => 4

/-- The window offset where `IN_MEM` begins (R40). -/
def inBase : Nat := 0x10000
/-- The window offset after `IN_MEM` (R40). -/
def inEnd : Nat := inBase + 2 * Config.maxBuf
/-- The window offset where `OUT_MEM` begins (R40). -/
def outBase : Nat := 0x40000
/-- The window offset after `OUT_MEM` (R40). -/
def outEnd : Nat := outBase + Config.maxBuf

/-- `BLOCK_BASE` (R40, D31). -/
def State.blockBase (s : State) : Nat := Config.windowBytes * s.blockIndex

/-- The access gets a bus error: it is not naturally aligned, or it is an access of the register space that is not 32 bits wide
(R38, log 11). -/
def busError (off : Nat) (w : Width) : Bool := off % w.bytes != 0 || (off < inBase && w != .w32)

/-- A register as the host reads it (R20 to R27); a reserved offset reads 0. -/
def readRegister (off : Nat) (s : State) : Word :=
  match off with
  | 0x00 => s.ctrl
  | 0x04 => s.status
  | 0x08 => s.inLen.setWidth 32
  | 0x0C => s.declSize.setWidth 32
  | 0x10 => s.outCount.setWidth 32
  | 0x14 => s.errInfo
  | 0x18 => s.bitsUsed
  | _ => 0

/-- A byte of the memory windows as the host reads it (R37, R40, R41): `IN_MEM`, `OUT_MEM` below `OUT_COUNT`, and 0 where nothing is
mapped. A byte the spec leaves unspecified is a free value (U9, U10, log 6). -/
def readWindowByte (s : State) (off : Nat) : Byte :=
  if off < inBase then
    0
  else if off < inEnd then
    (s.inMem.read (off - inBase)).getD (Config.freeByte s.draw off)
  else if off < outBase then
    0
  else if off < outEnd then
    if off - outBase < s.outCount.toNat then
      (s.outMem.read (off - outBase)).getD (Config.freeByte s.draw off)
    else
      Config.freeByte s.draw off
  else
    0

/-- `n` window bytes from `off`, least significant first (R37). -/
def readWindow (s : State) : Nat → Nat → Word
  | 0, _ => 0
  | n + 1, off => (readWindow s n (off + 1)) <<< 8 ||| (readWindowByte s off).setWidth 32

/-- What a host read at a window offset gets back (R38, R40). -/
def hostRead (off : Nat) (w : Width) (s : State) : BusResponse :=
  if busError off w then { data := 0, busError := true }
  else if off < inBase then { data := readRegister off s, busError := false }
  else { data := readWindow s w.bytes off, busError := false }

/-- A host write of a register (R21 to R24, R91): `CTRL`, and while not BUSY `IN_LEN` and `DECL_SIZE`; every other offset ignores it. -/
def writeRegister (off : Nat) (v : Word) (s : State) : State :=
  match off with
  | 0x00 => writeCtrl v s
  | 0x08 => if s.fsm = .busy then s else { s with inLen := v.setWidth 16 }
  | 0x0C => if s.fsm = .busy then s else { s with declSize := v.setWidth 16 }
  | _ => s

/-- `n` bytes of `v` to `IN_MEM` from its byte address `a`, least significant first (R37). -/
def writeInMem : Nat → Nat → Word → Memory → Memory
  | 0, _, _, m => m
  | n + 1, a, v, m => writeInMem n (a + 1) (v >>> 8) (m.write a (v.setWidth 8))

/-- A host write to the memory windows (R37, R41, R91): it lands only in `IN_MEM`, and only while not BUSY. -/
def writeWindow (off : Nat) (w : Width) (v : Word) (s : State) : State :=
  if inBase ≤ off ∧ off < inEnd ∧ s.fsm ≠ .busy then
    { s with inMem := writeInMem w.bytes (off - inBase) v s.inMem }
  else
    s

/-- The effect of a host write at a window offset (R38, R40). -/
def hostWrite (off : Nat) (w : Width) (v : Word) (s : State) : State :=
  if busError off w then s
  else if off < inBase then writeRegister off v s
  else writeWindow off w v s

/-- One host access (R39, R87). An address outside the block's window is not the block's: no effect and no response (log 12). -/
def hostAccess (a : HostAccess) (s : State) : State :=
  match a with
  | .read addr w =>
    if s.blockBase ≤ addr ∧ addr < s.blockBase + Config.windowBytes then
      { s with resp := some (hostRead (addr - s.blockBase) w s) }
    else
      { s with resp := none }
  | .write addr w v =>
    if s.blockBase ≤ addr ∧ addr < s.blockBase + Config.windowBytes then
      { hostWrite (addr - s.blockBase) w v s with
        resp := some { data := 0, busError := busError (addr - s.blockBase) w } }
    else
      { s with resp := none }

end Sys2Proof.Machine
end

