-- ==== Sys2Proof/Machine/Fetch.lean ====
section
/-! DEFINITION. Fetching one item of the stream at the bit cursor: `decode_symbol` (41_huffman_tree.md R65) with its tree update,
and then a copy's extra field (42_lz_copy.md R75). An error raised here ends the engine step (R98). -/

namespace Sys2Proof.Machine

/-- The loop of `decode_symbol` (R65), with how many bits it may read. -/
def descend : Nat → Nat → State → Flow Nat
  | 0, _, _ => .stop .treeContract
  | n + 1, node, s =>
    match readBit s with
    | .raised e s => .raised e s
    | .stop f => .stop f
    | .ok bit s =>
      match s.tree.child s.cfg node bit with
      | none => .stop .treeContract
      | some next => if next ≤ s.cfg.maxChar then descend n next s else .ok next s

/-- `decode_symbol()` (R65): the symbol, with the tree updated. A node above `TWICEMAX`, which no tree of the shape of R69 holds,
gives the reserved SYMBOL_RANGE (R106, U2). -/
def decodeSymbol (s : State) : Flow Nat :=
  match descend (bitsLeft s + 1) Config.root s with
  | .raised e s => .raised e s
  | .stop f => .stop f
  | .ok node s =>
    let sym := node - s.cfg.succMax
    if s.cfg.maxChar < sym then
      .raised .symbolRange s
    else
      match s.tree.update s.cfg sym with
      | none => .stop .treeContract
      | some t => .ok sym { s with tree := t }

/-- The extra field and the item of a decoded symbol (R75, R92). -/
def fetchOperands (sym : Nat) (s : State) : Flow Instr :=
  match classify s.cfg sym with
  | none => .raised .symbolRange s
  | some k =>
    match readBits k.extraBits s with
    | .raised e s => .raised e s
    | .stop f => .stop f
    | .ok v s => .ok (k.toInstr v) s

/-- The next item of the stream, the cursor moved past it and the tree updated for its symbol (R92, R107). -/
def fetchInstr (s : State) : Flow Instr :=
  match decodeSymbol s with
  | .raised e s => .raised e s
  | .stop f => .stop f
  | .ok sym s => fetchOperands sym s

end Sys2Proof.Machine
end

