-- ==== Sys2Proof/Machine/Place.lean ====
section
/-! DEFINITION. Placing an item where the next engine step fetches it: the stream bits a table word stands for, at the bit cursor. It
stands for the host's load of a stream and its START (70_reset_and_hazards.md R121, log 15). -/

namespace Sys2Proof.Machine

/-- `words` written to `IN_MEM` from word `w`. -/
def placeWords : List Half → Nat → Memory → Memory
  | [], _, m => m
  | v :: rest, w, m => placeWords rest (w + 1) (m.writeWord w v)

/-- `bits` placed at the cursor: the first into what is left of the loaded word, the others into the words not yet loaded, which
`IN_LEN` then covers. Where no word is loaded yet, all go to `IN_MEM`. -/
def placeBits (bits : List Bool) (s : State) : State :=
  let here := s.bitcount.toNat
  let later := bits.drop here
  let n := wordCount later
  { s with
    bitbuffer := if here = 0 then s.bitbuffer else packWord (bits.take here)
    inMem := placeWords (packWords n later) s.widx.toNat s.inMem
    inLen := if s.inLen.toNat < s.widx.toNat + n then BitVec.ofNat 16 (s.widx.toNat + n) else s.inLen }

/-- A running job to place an item in: the one that runs, else the clean entry of a new one (R97). -/
def runningJob (s : State) : State := if s.fsm = .busy then s else enterBusy (clearJob s)

/-- `s` with the item of a table word at the cursor of a running job, and the engine's turn next. -/
def placeTableWord (s : State) (nbits w : Nat) : State :=
  let s := runningJob s
  let bits := (tableBits s.cfg s.tree nbits w).getD []
  { placeBits bits s with schedule := .engine :: s.schedule }

end Sys2Proof.Machine
end

