-- ==== Sys2Proof/Machine/Step.lean ====
section
/-! DEFINITION. One transition of the block (43_engine_control.md R87, R92): the engine's, a host access, or the reset input, in the
order `schedule` gives and then the engine's for ever. -/

namespace Sys2Proof.Machine

/-- One engine step (R92): the next item is fetched and executed; an error raised on the way ends it (R98, R108). -/
def engineStep (s : State) : Host.Outcome State Fault Refusal :=
  match fetchInstr s with
  | .ok i s => exec i s
  | .raised e s => .next (enterError e s)
  | .stop f => .fault f

/-- The engine's turn: a step while BUSY, and nothing in any other state (R28, R87). -/
def engineTurn (s : State) : Host.Outcome State Fault Refusal :=
  if s.fsm = .busy then engineStep s else .next s

/-- One transition (R43, R87, R119). -/
def step (s : State) : Host.Outcome State Fault Refusal :=
  match s.schedule with
  | [] => engineTurn s
  | .engine :: rest => engineTurn { s with schedule := rest }
  | .host a :: rest => .next (hostAccess a { s with schedule := rest })
  | .reset :: rest => .next (resetInput { s with schedule := rest })

/-- `s` with the item of a table word where the next step fetches it (log 15). -/
def State.withFetchWord (s : State) (nbits w : Nat) : State := placeTableWord s nbits w

end Sys2Proof.Machine
end

