-- ==== Sys2Proof/Laws/Memory.lean ====
section
/-! SUPPORT. The laws of memories: read after write, and that every memory operation keeps the canonical form. -/

namespace Sys2Proof.Machine

theorem Memory.read_write (m : Memory) (a b : Nat) (v : Byte) :
    (m.write a v).read b = if b = a then some v else m.read b := by
  induction m with
  | nil => simp [Memory.write, Memory.read]
  | cons cell rest ih =>
    obtain ⟨c, w⟩ := cell
    simp only [Memory.write]
    split
    · simp [Memory.read]
    · split
      · rename_i h; subst h; simp only [Memory.read]; split <;> rfl
      · simp only [Memory.read, ih]
        split <;> split <;> simp_all

@[simp] theorem Memory.read_write_same (m : Memory) (a : Nat) (v : Byte) : (m.write a v).read a = some v := by
  simp [Memory.read_write]

theorem Memory.read_write_other (m : Memory) {a b : Nat} (v : Byte) (h : b ≠ a) :
    (m.write a v).read b = m.read b := by
  simp [Memory.read_write, h]

theorem Memory.above_write (m : Memory) (a : Nat) (v : Byte) {low : Nat} (hlow : low < a)
    (h : Memory.above low m = true) : Memory.above low (m.write a v) = true := by
  induction m generalizing low with
  | nil => simpa [Memory.write, Memory.above] using hlow
  | cons cell rest ih =>
    obtain ⟨c, w⟩ := cell
    simp only [Memory.above, Bool.and_eq_true, decide_eq_true_eq] at h
    simp only [Memory.write]
    split
    · simp [Memory.above, h.2, *]
    · split
      · rename_i hac; subst hac; simp [Memory.above, hlow, h.2]
      · simp only [Memory.above, Bool.and_eq_true, decide_eq_true_eq]
        exact ⟨h.1, ih (by omega) h.2⟩

/-- A write keeps the canonical form. -/
theorem Memory.wf_write (m : Memory) (a : Nat) (v : Byte) (h : m.wf = true) : (m.write a v).wf = true := by
  cases m with
  | nil => rfl
  | cons cell rest =>
    obtain ⟨c, w⟩ := cell
    simp only [Memory.wf] at h
    simp only [Memory.write]
    split
    · simp [Memory.wf, Memory.above, *]
    · split
      · rename_i hac; subst hac; simpa [Memory.wf] using h
      · simp only [Memory.wf]
        exact Memory.above_write rest a v (by omega) h

theorem Memory.wf_writeWord (m : Memory) (w : Nat) (v : Half) (h : m.wf = true) : (m.writeWord w v).wf = true :=
  Memory.wf_write _ _ _ (Memory.wf_write _ _ _ h)

/-- A host write keeps the canonical form of `IN_MEM`. -/
theorem wf_writeInMem (n a : Nat) (v : Word) (m : Memory) (h : m.wf = true) : (writeInMem n a v m).wf = true := by
  induction n generalizing a v m with
  | zero => exact h
  | succ n ih => exact ih _ _ _ (Memory.wf_write _ _ _ h)

/-- Every cell of a memory after a write is the one written or was there before. -/
theorem Memory.mem_write (m : Memory) (a : Nat) (v : Byte) (cell : Host.Cell) (h : cell ∈ m.write a v) :
    cell = (a, v) ∨ cell ∈ m := by
  induction m with
  | nil => simpa [Memory.write] using h
  | cons c rest ih =>
    obtain ⟨b, w⟩ := c
    simp only [Memory.write] at h
    split at h
    · simpa using h
    · split at h
      · rcases List.mem_cons.mp h with h | h
        · exact .inl h
        · exact .inr (List.mem_cons_of_mem _ h)
      · rcases List.mem_cons.mp h with h | h
        · exact .inr (h ▸ List.mem_cons_self)
        · exact (ih h).imp_right (List.mem_cons_of_mem _)

/-- What a byte of `IN_MEM` reads as after `n` bytes were written from `a`. -/
theorem read_writeInMem_other (n a b : Nat) (v : Word) (m : Memory) (h : b < a ∨ a + n ≤ b) :
    (writeInMem n a v m).read b = m.read b := by
  induction n generalizing a v m with
  | zero => rfl
  | succ n ih =>
    simp only [writeInMem]
    rw [ih _ _ _ (by omega), Memory.read_write_other _ _ (by omega)]

end Sys2Proof.Machine
end

