-- ==== Sys2Proof/Laws/State.lean ====
section
/-! SUPPORT. What each field holds after each named update of the state: one lemma for a field and an update, true by rfl, so that
no later proof unfolds a record update. -/

namespace Sys2Proof.Machine

@[simp] theorem enterError_cfg (e : ErrCause) (s : State) : (enterError e s).cfg = s.cfg := rfl
@[simp] theorem enterError_blockIndex (e : ErrCause) (s : State) : (enterError e s).blockIndex = s.blockIndex := rfl
@[simp] theorem enterError_irqEn (e : ErrCause) (s : State) : (enterError e s).irqEn = s.irqEn := rfl
@[simp] theorem enterError_fsm (e : ErrCause) (s : State) : (enterError e s).fsm = .error := rfl
@[simp] theorem enterError_inLen (e : ErrCause) (s : State) : (enterError e s).inLen = s.inLen := rfl
@[simp] theorem enterError_declSize (e : ErrCause) (s : State) : (enterError e s).declSize = s.declSize := rfl
@[simp] theorem enterError_outCount (e : ErrCause) (s : State) : (enterError e s).outCount = s.outCount := rfl
@[simp] theorem enterError_errInfo (e : ErrCause) (s : State) : (enterError e s).errInfo = e.info := rfl
@[simp] theorem enterError_bitbuffer (e : ErrCause) (s : State) : (enterError e s).bitbuffer = s.bitbuffer := rfl
@[simp] theorem enterError_bitcount (e : ErrCause) (s : State) : (enterError e s).bitcount = s.bitcount := rfl
@[simp] theorem enterError_widx (e : ErrCause) (s : State) : (enterError e s).widx = s.widx := rfl
@[simp] theorem enterError_hcur (e : ErrCause) (s : State) : (enterError e s).hcur = s.hcur := rfl
@[simp] theorem enterError_tree (e : ErrCause) (s : State) : (enterError e s).tree = s.tree := rfl
@[simp] theorem enterError_inMem (e : ErrCause) (s : State) : (enterError e s).inMem = s.inMem := rfl
@[simp] theorem enterError_outMem (e : ErrCause) (s : State) : (enterError e s).outMem = s.outMem := rfl
@[simp] theorem enterError_hist (e : ErrCause) (s : State) : (enterError e s).hist = s.hist := rfl
@[simp] theorem enterError_draw (e : ErrCause) (s : State) : (enterError e s).draw = s.draw := rfl
@[simp] theorem enterError_schedule (e : ErrCause) (s : State) : (enterError e s).schedule = s.schedule := rfl
@[simp] theorem enterError_resp (e : ErrCause) (s : State) : (enterError e s).resp = s.resp := rfl

@[simp] theorem clearJob_cfg (s : State) : (clearJob s).cfg = s.cfg := rfl
@[simp] theorem clearJob_blockIndex (s : State) : (clearJob s).blockIndex = s.blockIndex := rfl
@[simp] theorem clearJob_irqEn (s : State) : (clearJob s).irqEn = s.irqEn := rfl
@[simp] theorem clearJob_fsm (s : State) : (clearJob s).fsm = s.fsm := rfl
@[simp] theorem clearJob_inLen (s : State) : (clearJob s).inLen = s.inLen := rfl
@[simp] theorem clearJob_declSize (s : State) : (clearJob s).declSize = s.declSize := rfl
@[simp] theorem clearJob_outCount (s : State) : (clearJob s).outCount = 0 := rfl
@[simp] theorem clearJob_errInfo (s : State) : (clearJob s).errInfo = 0 := rfl
@[simp] theorem clearJob_bitbuffer (s : State) : (clearJob s).bitbuffer = 0 := rfl
@[simp] theorem clearJob_bitcount (s : State) : (clearJob s).bitcount = 0 := rfl
@[simp] theorem clearJob_widx (s : State) : (clearJob s).widx = 0 := rfl
@[simp] theorem clearJob_hcur (s : State) : (clearJob s).hcur = 0 := rfl
@[simp] theorem clearJob_tree (s : State) : (clearJob s).tree = s.tree := rfl
@[simp] theorem clearJob_inMem (s : State) : (clearJob s).inMem = s.inMem := rfl
@[simp] theorem clearJob_outMem (s : State) : (clearJob s).outMem = s.outMem := rfl
@[simp] theorem clearJob_hist (s : State) : (clearJob s).hist = s.hist := rfl
@[simp] theorem clearJob_draw (s : State) : (clearJob s).draw = s.draw + 1 := rfl
@[simp] theorem clearJob_schedule (s : State) : (clearJob s).schedule = s.schedule := rfl
@[simp] theorem clearJob_resp (s : State) : (clearJob s).resp = s.resp := rfl

@[simp] theorem enterBusy_cfg (s : State) : (enterBusy s).cfg = s.cfg := rfl
@[simp] theorem enterBusy_blockIndex (s : State) : (enterBusy s).blockIndex = s.blockIndex := rfl
@[simp] theorem enterBusy_irqEn (s : State) : (enterBusy s).irqEn = s.irqEn := rfl
@[simp] theorem enterBusy_fsm (s : State) : (enterBusy s).fsm = .busy := rfl
@[simp] theorem enterBusy_inLen (s : State) : (enterBusy s).inLen = s.inLen := rfl
@[simp] theorem enterBusy_declSize (s : State) : (enterBusy s).declSize = s.declSize := rfl
@[simp] theorem enterBusy_outCount (s : State) : (enterBusy s).outCount = s.outCount := rfl
@[simp] theorem enterBusy_errInfo (s : State) : (enterBusy s).errInfo = s.errInfo := rfl
@[simp] theorem enterBusy_bitbuffer (s : State) : (enterBusy s).bitbuffer = s.bitbuffer := rfl
@[simp] theorem enterBusy_bitcount (s : State) : (enterBusy s).bitcount = s.bitcount := rfl
@[simp] theorem enterBusy_widx (s : State) : (enterBusy s).widx = s.widx := rfl
@[simp] theorem enterBusy_hcur (s : State) : (enterBusy s).hcur = s.hcur := rfl
@[simp] theorem enterBusy_tree (s : State) : (enterBusy s).tree = s.tree.init s.cfg := rfl
@[simp] theorem enterBusy_inMem (s : State) : (enterBusy s).inMem = s.inMem := rfl
@[simp] theorem enterBusy_outMem (s : State) : (enterBusy s).outMem = s.outMem := rfl
@[simp] theorem enterBusy_hist (s : State) : (enterBusy s).hist = s.hist := rfl
@[simp] theorem enterBusy_draw (s : State) : (enterBusy s).draw = s.draw := rfl
@[simp] theorem enterBusy_schedule (s : State) : (enterBusy s).schedule = s.schedule := rfl
@[simp] theorem enterBusy_resp (s : State) : (enterBusy s).resp = s.resp := rfl

@[simp] theorem clearAction_cfg (s : State) : (clearAction s).cfg = s.cfg := rfl
@[simp] theorem clearAction_blockIndex (s : State) : (clearAction s).blockIndex = s.blockIndex := rfl
@[simp] theorem clearAction_irqEn (s : State) : (clearAction s).irqEn = s.irqEn := rfl
@[simp] theorem clearAction_fsm (s : State) : (clearAction s).fsm = .idle := rfl
@[simp] theorem clearAction_inLen (s : State) : (clearAction s).inLen = s.inLen := rfl
@[simp] theorem clearAction_declSize (s : State) : (clearAction s).declSize = s.declSize := rfl
@[simp] theorem clearAction_outCount (s : State) : (clearAction s).outCount = s.outCount := rfl
@[simp] theorem clearAction_errInfo (s : State) : (clearAction s).errInfo = s.errInfo := rfl
@[simp] theorem clearAction_bitbuffer (s : State) : (clearAction s).bitbuffer = s.bitbuffer := rfl
@[simp] theorem clearAction_bitcount (s : State) : (clearAction s).bitcount = s.bitcount := rfl
@[simp] theorem clearAction_widx (s : State) : (clearAction s).widx = s.widx := rfl
@[simp] theorem clearAction_hcur (s : State) : (clearAction s).hcur = s.hcur := rfl
@[simp] theorem clearAction_tree (s : State) : (clearAction s).tree = s.tree := rfl
@[simp] theorem clearAction_inMem (s : State) : (clearAction s).inMem = s.inMem := rfl
@[simp] theorem clearAction_outMem (s : State) : (clearAction s).outMem = s.outMem := rfl
@[simp] theorem clearAction_hist (s : State) : (clearAction s).hist = s.hist := rfl
@[simp] theorem clearAction_draw (s : State) : (clearAction s).draw = s.draw := rfl
@[simp] theorem clearAction_schedule (s : State) : (clearAction s).schedule = s.schedule := rfl
@[simp] theorem clearAction_resp (s : State) : (clearAction s).resp = s.resp := rfl

end Sys2Proof.Machine
end

