-- ==== Sys2Proof/Safety.lean ====
section
/-! DEFINITION. What holds of a block that is used as the spec says: the shape of the tree, the laws of the bit reader and of the
history, the invariant of the whole machine, and the premises claims are made under. -/

namespace Sys2Proof.Machine

/-! ### The tree -/

/-- The four files have the sizes of R19. -/
def Tree.Sized (c : Preset) (t : Tree) : Prop :=
  t.dad.hasSize (c.twiceMax + 1) = true ∧ t.freq.hasSize (c.twiceMax + 1) = true ∧
  t.left.hasSize (c.maxChar + 1) = true ∧ t.right.hasSize (c.maxChar + 1) = true

/-- The node `n` levels above `x`. -/
def Tree.ancestor (c : Preset) (t : Tree) : Nat → Nat → Option Nat
  | 0, x => some x
  | n + 1, x => do Tree.ancestor c t n (← t.dadOf c x)

/-- The tree-shape invariant of R69. The node ranges of its first clause are those of the files' used entries. -/
structure Tree.Shape (c : Preset) (t : Tree) : Prop where
  /-- The files have their sizes (R19). -/
  sized : t.Sized c
  /-- Every internal node has two different children, and is the `dad` of both. -/
  children : ∀ i, 1 ≤ i → i ≤ c.maxChar → ∃ l r, t.leftOf c i = some l ∧ t.rightOf c i = some r ∧ l ≠ r ∧
    t.dadOf c l = some i ∧ t.dadOf c r = some i
  /-- Every node but the root is a child of its `dad`, an internal node. -/
  parents : ∀ x, 2 ≤ x → x ≤ c.twiceMax → ∃ p, t.dadOf c x = some p ∧ 1 ≤ p ∧ p ≤ c.maxChar ∧
    (t.leftOf c p = some x ∨ t.rightOf c p = some x)
  /-- Following `dad` from any node reaches the root. -/
  rooted : ∀ x, 1 ≤ x → x ≤ c.twiceMax → ∃ n, t.ancestor c n x = some Config.root

/-- The loop of `update_model` (R68) as its rule writes it, with no bound on the levels: from tree `t`, node `a` and its parent
`code1` it ends with tree `u`. An iteration is `promoteOnce`; then `a` becomes the parent of the node left there and `code1` that
parent's, until `code1` is the root. -/
inductive Tree.Promotes (c : Preset) : Tree → Nat → Nat → Tree → Prop
  | last {t u : Tree} {a code1 left parent : Nat} (iteration : t.promoteOnce c a code1 = some (u, left))
      (up : u.dadOf c left = some parent) (top : u.dadOf c parent = some Config.root) : Tree.Promotes c t a code1 u
  | more {t u v : Tree} {a code1 left parent above : Nat} (iteration : t.promoteOnce c a code1 = some (u, left))
      (up : u.dadOf c left = some parent) (next : u.dadOf c parent = some above) (below : above ≠ Config.root)
      (rest : Tree.Promotes c u parent above v) : Tree.Promotes c t a code1 v

/-! ### The bit reader -/

/-- Stream bit `k` of a job: `IN_MEM[k / 16][15 - (k mod 16)]` (R36); none where the word holds no value. -/
def streamBit (s : State) (k : Nat) : Option Bool :=
  (s.inMem.readWord (k / 16)).map fun v => v.getLsbD (15 - k % 16)

/-- The stream bits not yet consumed, in order. A bit of a word that holds no value stands as 0. -/
def bitsAhead (s : State) : List Bool :=
  (List.range (16 * s.inLen.toNat - s.bitpos)).map fun k => (streamBit s (s.bitpos + k)).getD false

/-- The reader law of R62: before the first load the registers are 0; afterwards `bitbuffer` holds the unread low bits of
the last loaded word at its top. -/
def ReaderLaw (s : State) : Prop :=
  if s.widx = 0 then s.bitcount = 0 ∧ s.bitbuffer = 0
  else ∃ v, s.inMem.readWord (s.widx.toNat - 1) = some v ∧ s.bitbuffer = v <<< (16 - s.bitcount.toNat)

/-- Every word of the job's input holds a value (R97: `IN_MEM[0..IN_LEN-1]` holds the stream). -/
def InputLoaded (s : State) : Prop := ∀ w, w < s.inLen.toNat → ∃ v, s.inMem.readWord w = some v

/-- The reader of a running job: the law of R62, the words loaded within the input, and the input within `IN_MEM` (R32, R61). -/
structure ReaderOk (s : State) : Prop where
  law : ReaderLaw s
  loaded : s.widx.toNat ≤ s.inLen.toNat
  input : s.inLen.toNat ≤ Config.maxBuf

/-! ### Output and history -/

/-- The law of R17 and R74: the cursor is `out_count mod MAXSIZE`, every byte produced is in `OUT_MEM`, and the last `MAXSIZE` of them are
in `HIST`. -/
structure HistoryLaw (s : State) : Prop where
  cursor : s.hcur.toNat = s.outCount.toNat % s.cfg.maxSize
  produced : ∀ j, j < s.outCount.toNat → ∃ v, s.outMem.read j = some v
  window : ∀ j, j < s.outCount.toNat → s.outCount.toNat ≤ j + s.cfg.maxSize →
    s.hist.read (j % s.cfg.maxSize) = s.outMem.read j

/-! ### Memory -/

/-- Every address a memory lists is below `size`. -/
def Memory.within (size : Nat) (m : Memory) : Prop := ∀ cell ∈ m, cell.1 < size

/-- The three memories are in canonical form and list only cells they have (R31). -/
structure MemoriesOk (s : State) : Prop where
  inForm : s.inMem.wf = true
  outForm : s.outMem.wf = true
  histForm : s.hist.wf = true
  inCells : s.inMem.within (2 * Config.maxBuf)
  outCells : s.outMem.within Config.maxBuf
  histCells : s.hist.within s.cfg.maxSize

/-! ### The machine -/

/-- The values of `ERR_INFO` that R99 lists as produced by an error. -/
def errorInfos : List Word := [0x101, 0x201, 0x102, 0x202, 0x103, 0x203, 0x303]

/-- What `ERR_INFO` may hold in each state of `fsm` (R26, R28, R99). -/
def ErrInfoLegal (s : State) : Prop :=
  match s.fsm with
  | .idle => s.errInfo = 0 ∨ s.errInfo ∈ errorInfos
  | .busy => s.errInfo = 0
  | .done => s.errInfo = 0
  | .error => s.errInfo ∈ errorInfos

/-- What holds of a running job (R97 and the rules it cites). -/
structure JobOk (s : State) : Prop where
  shape : s.tree.Shape s.cfg
  reader : ReaderOk s
  declared : s.declSize.toNat ≤ Config.declMax
  output : s.outCount.toNat ≤ s.declSize.toNat

/-- The invariant of the machine. -/
structure State.Inv (s : State) : Prop where
  memories : MemoriesOk s
  history : HistoryLaw s
  sized : s.tree.Sized s.cfg
  errInfo : ErrInfoLegal s
  words : s.widx.toNat ≤ Config.maxBuf
  job : s.fsm = .busy → JobOk s

/-- The engine's turn is the next transition, and `e` is the state it finds: no turn is listed, or the first one listed is the
engine's and is taken off the list (R43, R87, log 3). -/
def EngineNext (s e : State) : Prop :=
  (s.schedule = [] ∧ e = s) ∨ ∃ rest, s.schedule = .engine :: rest ∧ e = { s with schedule := rest }

/-! ### What a transition leaves alone -/

/-- `t` is `s` but for what `emit_byte` writes: the output, the history and their two cursors (R72). -/
def SameButOutput (s t : State) : Prop :=
  t = { s with outMem := t.outMem, outCount := t.outCount, hist := t.hist, hcur := t.hcur }

/-- Between `s` and `t` the output and the history changed at most where `emit_byte` writes (R72): `OUT_MEM` from the old `OUT_COUNT` up
to the new one, and `HIST` at as many cells from the old cursor onward, wrapping at `MAXSIZE`; `OUT_COUNT` did not fall, and the
cursor moved by as many. -/
structure OutputAppended (s t : State) : Prop where
  count : s.outCount.toNat ≤ t.outCount.toNat
  cursor : s.hcur.toNat < s.cfg.maxSize →
    t.hcur.toNat = (s.hcur.toNat + (t.outCount.toNat - s.outCount.toNat)) % s.cfg.maxSize
  keptOut : ∀ a, a < s.outCount.toNat ∨ t.outCount.toNat ≤ a → t.outMem.read a = s.outMem.read a
  keptHist : ∀ a, (∀ i, i < t.outCount.toNat - s.outCount.toNat → a ≠ (s.hcur.toNat + i) % s.cfg.maxSize) →
    t.hist.read a = s.hist.read a

/-- `t` is `s` but for the bit reader's registers, which reading a bit writes. -/
def SameButReader (s t : State) : Prop :=
  t = { s with bitbuffer := t.bitbuffer, bitcount := t.bitcount, widx := t.widx }

/-- `t` is `s` but for the bit reader's registers and the tree files, which fetching an item writes. -/
def SameButFetch (s t : State) : Prop :=
  t = { s with bitbuffer := t.bitbuffer, bitcount := t.bitcount, widx := t.widx, tree := t.tree }

/-- `t` is `s` but for `IRQ_EN` and the model's record of the host's last response. -/
def SameButIrqEn (s t : State) : Prop := t = { s with irqEn := t.irqEn, resp := t.resp }

/-- Two states that no job can tell apart: they differ at most in `IRQ_EN`, in the last response, and in the turns to come. -/
def SameJob (s t : State) : Prop :=
  t = { s with irqEn := t.irqEn, resp := t.resp, schedule := t.schedule }

/-- `t` is `s` after `n` more bytes: each new byte of `OUT_MEM` is the byte `distance` before it, every other byte of `OUT_MEM`
reads as before, the last `MAXSIZE` of the new bytes are in `HIST` at the cursor onward, and every other cell of `HIST` reads as
before. -/
structure CopiedFrom (distance n : Nat) (s t : State) : Prop where
  rest : SameButOutput s t
  count : t.outCount.toNat = s.outCount.toNat + n
  cursor : t.hcur.toNat = (s.hcur.toNat + n) % s.cfg.maxSize
  bytes : ∀ i, i < n →
    t.outMem.read (s.outCount.toNat + i) = t.outMem.read (s.outCount.toNat + i - distance)
  keptOut : ∀ a, a < s.outCount.toNat ∨ s.outCount.toNat + n ≤ a → t.outMem.read a = s.outMem.read a
  inHist : ∀ i, i < n → n ≤ i + s.cfg.maxSize →
    t.hist.read ((s.hcur.toNat + i) % s.cfg.maxSize) = t.outMem.read (s.outCount.toNat + i)
  keptHist : ∀ a, (∀ i, i < n → a ≠ (s.hcur.toNat + i) % s.cfg.maxSize) → t.hist.read a = s.hist.read a

/-- Where a copy executes normally (R73, R78), in a state that keeps the laws of a job. -/
structure CopyRuns (distance n : Nat) (s : State) : Prop where
  history : HistoryLaw s
  declared : s.declSize.toNat ≤ Config.declMax
  written : distance ≤ s.outCount.toNat
  held : distance ≤ s.cfg.maxSize
  room : s.outCount.toNat + n ≤ s.declSize.toNat

end Sys2Proof.Machine
end

