-- ==== Sys2Proof/Laws/Ops.lean ====
section
/-! SUPPORT. One lemma for each shared operation of the engine that says what it can do: the bit reader, the output and history
primitives, and the copy. -/

namespace Sys2Proof.Machine

/-! ### The bit reader -/

/-- The state `read_bit` leaves when the loaded word still has bits. -/
def afterShift (s : State) : State := { s with bitcount := s.bitcount - 1, bitbuffer := s.bitbuffer <<< 1 }

/-- The state `read_bit` leaves when it loads word `v`. -/
def afterLoad (v : Half) (s : State) : State :=
  { s with widx := s.widx + 1, bitcount := 15, bitbuffer := v <<< 1 }

theorem readBit_of_bitcount {s : State} (h : s.bitcount ≠ 0) : readBit s = .ok s.bitbuffer.msb (afterShift s) := by
  unfold readBit
  rw [if_neg h]
  rfl

theorem readBit_of_load {s : State} {v : Half} (h : s.bitcount = 0) (hw : s.widx < s.inLen)
    (hv : loadWord s s.widx.toNat = .ok v) : readBit s = .ok v.msb (afterLoad v s) := by
  simp [readBit, h, hw, hv, shiftOut, afterLoad]

/-- `read_bit` delivers a bit in one of two ways. -/
theorem readBit_ok {s s' : State} {b : Bool} (h : readBit s = .ok b s') :
    (s.bitcount ≠ 0 ∧ b = s.bitbuffer.msb ∧ s' = afterShift s) ∨
    (s.bitcount = 0 ∧ s.widx < s.inLen ∧ ∃ v, loadWord s s.widx.toNat = .ok v ∧ b = v.msb ∧ s' = afterLoad v s) := by
  by_cases hc : s.bitcount = 0
  · right
    by_cases hw : s.inLen ≤ s.widx
    · simp [readBit, hc, hw] at h
    · have hlt : s.widx < s.inLen := by simpa using hw
      cases hv : loadWord s s.widx.toNat with
      | error f => simp [readBit, hc, hw, hv] at h
      | ok v =>
        rw [readBit_of_load hc hlt hv] at h
        injection h with h1 h2
        exact ⟨hc, hlt, v, rfl, h1.symm, h2.symm⟩
  · left
    rw [readBit_of_bitcount hc] at h
    injection h with h1 h2
    exact ⟨hc, h1.symm, h2.symm⟩

/-- `read_bit` raises nothing but INPUT_EXHAUSTED, and then changes nothing (R59). -/
theorem readBit_raised {s s' : State} {e : ErrCause} (h : readBit s = .raised e s') :
    e = .inputExhausted ∧ s' = s ∧ s.bitcount = 0 ∧ s.inLen ≤ s.widx := by
  by_cases hc : s.bitcount = 0
  · by_cases hw : s.inLen ≤ s.widx
    · simp only [readBit, hc, hw, if_true] at h
      injection h with h1 h2
      exact ⟨h1.symm, h2.symm, hc, hw⟩
    · have hlt : s.widx < s.inLen := by simpa using hw
      cases hv : loadWord s s.widx.toNat with
      | error f => simp [readBit, hc, hw, hv] at h
      | ok v => rw [readBit_of_load hc hlt hv] at h; cases h
  · rw [readBit_of_bitcount hc] at h; cases h

theorem SameButReader.refl (s : State) : SameButReader s s := rfl

theorem SameButReader.trans {s t u : State} (h : SameButReader s t) (k : SameButReader t u) : SameButReader s u := by
  unfold SameButReader at *
  rw [k, h]

theorem readBit_frame {s s' : State} {b : Bool} (h : readBit s = .ok b s') : SameButReader s s' := by
  rcases readBit_ok h with ⟨_, _, rfl⟩ | ⟨_, _, v, _, _, rfl⟩ <;> rfl

theorem readBits_frame {n : Nat} {s s' : State} {v : Nat} (h : readBits n s = .ok v s') : SameButReader s s' := by
  induction n generalizing s s' v with
  | zero => injection h with _ h; exact h ▸ .refl s
  | succ n ih =>
    simp only [readBits] at h
    split at h
    · cases h
    · cases h
    · rename_i b t hb
      split at h
      · cases h
      · cases h
      · rename_i v' u hu
        injection h with _ h
        exact h ▸ (readBit_frame hb).trans (ih hu)

/-- An extra field of `n` bits is below `2 ^ n`. -/
theorem readBits_lt {n : Nat} {s s' : State} {v : Nat} (h : readBits n s = .ok v s') : v < 2 ^ n := by
  induction n generalizing s s' v with
  | zero => injection h with h _; subst h; decide
  | succ n ih =>
    simp only [readBits] at h
    split at h
    · cases h
    · cases h
    · rename_i b t hb
      split at h
      · cases h
      · cases h
      · rename_i v' u hu
        injection h with h _
        have := ih hu
        have hb : b.toNat ≤ 1 := Bool.toNat_le b
        rw [Nat.pow_succ]
        omega

theorem descend_frame {n node node' : Nat} {s s' : State} (h : descend n node s = .ok node' s') :
    SameButReader s s' := by
  induction n generalizing node s s' with
  | zero => cases h
  | succ n ih =>
    simp only [descend] at h
    split at h
    · cases h
    · cases h
    · rename_i b t hb
      split at h
      · cases h
      · split at h
        · exact (readBit_frame hb).trans (ih h)
        · injection h with _ h
          exact h ▸ readBit_frame hb

/-- What `decode_symbol` can answer: a symbol of the alphabet, with the bits of its code consumed and the tree updated. -/
theorem decodeSymbol_ok {s s' : State} {sym : Nat} (h : decodeSymbol s = .ok sym s') :
    sym ≤ s.cfg.maxChar ∧ ∃ node t tr, descend (bitsLeft s + 1) Config.root s = .ok node t ∧
      sym = node - s.cfg.succMax ∧ s.tree.update s.cfg sym = some tr ∧ s' = { t with tree := tr } := by
  simp only [decodeSymbol] at h
  split at h
  · cases h
  · cases h
  · rename_i node t hd
    have hf := descend_frame hd
    have hcfg : t.cfg = s.cfg := by rw [hf]
    have htree : t.tree = s.tree := by rw [hf]
    rw [hcfg, htree] at h
    split at h
    · cases h
    · split at h
      · cases h
      · rename_i tr htr
        injection h with h1 h2
        subst h1
        exact ⟨by omega, node, t, tr, hd, rfl, htr, by rw [← h2, hcfg]⟩

/-- Fetching an item changes only the reader and the tree. -/
theorem fetchInstr_frame {s s' : State} {i : Instr} (h : fetchInstr s = .ok i s') : SameButFetch s s' := by
  simp only [fetchInstr] at h
  split at h
  · cases h
  · cases h
  · rename_i sym t hd
    obtain ⟨_, node, u, tr, hu, _, _, rfl⟩ := decodeSymbol_ok hd
    have h1 := descend_frame hu
    simp only [fetchOperands] at h
    split at h
    · cases h
    · split at h
      · cases h
      · cases h
      · rename_i v w hw
        injection h with _ h
        have h2 := readBits_frame hw
        unfold SameButFetch
        unfold SameButReader at h1 h2
        rw [← h, h2, h1]

/-! ### Output and history -/

/-- The state `emit_byte` leaves. -/
def afterEmit (v : Byte) (s : State) : State :=
  { s with
    outMem := s.outMem.write s.outCount.toNat v
    outCount := s.outCount + 1
    hist := s.hist.write s.hcur.toNat v
    hcur := BitVec.ofNat 15 ((s.hcur.toNat + 1) % s.cfg.maxSize) }

theorem emitByte_of_room {s : State} (v : Byte) (ho : s.outCount.toNat < Config.maxBuf)
    (hh : s.hcur.toNat < s.cfg.maxSize) : emitByte v s = .ok (afterEmit v s) := by
  simp [emitByte, Nat.not_le.mpr ho, Nat.not_le.mpr hh, afterEmit]

theorem emitByte_ok {s s' : State} {v : Byte} (h : emitByte v s = .ok s') :
    s.outCount.toNat < Config.maxBuf ∧ s.hcur.toNat < s.cfg.maxSize ∧ s' = afterEmit v s := by
  simp only [emitByte] at h
  split at h
  · cases h
  · split at h
    · cases h
    · injection h with h
      exact ⟨by omega, by omega, h.symm⟩

theorem afterEmit_frame (v : Byte) (s : State) : SameButOutput s (afterEmit v s) := rfl

theorem SameButOutput.refl (s : State) : SameButOutput s s := rfl

theorem SameButOutput.trans {s t u : State} (h : SameButOutput s t) (k : SameButOutput t u) : SameButOutput s u := by
  unfold SameButOutput at *
  rw [k, h]

/-- A copy writes only the output, the history and their cursors. -/
theorem copyFrom_frame {n k : Nat} {s s' : State} (h : copyFrom n k s = .ok s') : SameButOutput s s' := by
  induction n generalizing k s with
  | zero => injection h with h; exact h ▸ .refl s
  | succ n ih =>
    simp only [copyFrom] at h
    split at h
    · cases h
    · split at h
      · cases h
      · rename_i t ht
        obtain ⟨_, _, rfl⟩ := emitByte_ok ht
        exact (afterEmit_frame _ s).trans (ih h)

theorem OutputAppended.refl (s : State) : OutputAppended s s where
  count := Nat.le_refl _
  cursor h := by rw [Nat.sub_self, Nat.add_zero, Nat.mod_eq_of_lt h]
  keptOut _ _ := rfl
  keptHist _ _ := rfl

/-- Where and how far `emit_byte` appends. -/
theorem afterEmit_counts (v : Byte) {s : State} (ho : s.outCount.toNat < Config.maxBuf) (hh : s.hcur.toNat < s.cfg.maxSize) :
    (afterEmit v s).outCount.toNat = s.outCount.toNat + 1 ∧
    (afterEmit v s).hcur.toNat = (s.hcur.toNat + 1) % s.cfg.maxSize ∧
    (afterEmit v s).hcur.toNat < s.cfg.maxSize := by
  have hm : Config.maxBuf = 43008 := rfl
  have hx : s.cfg.maxSize < 2 ^ 15 := by cases s.cfg <;> decide
  have hlt := Nat.mod_lt (s.hcur.toNat + 1) (by omega : 0 < s.cfg.maxSize)
  have hc : (afterEmit v s).hcur.toNat = (s.hcur.toNat + 1) % s.cfg.maxSize := by
    simp only [afterEmit, BitVec.toNat_ofNat]
    exact Nat.mod_eq_of_lt (by omega)
  refine ⟨?_, hc, hc ▸ hlt⟩
  have h1 : (1 : BitVec 16).toNat = 1 := rfl
  simp only [afterEmit, BitVec.toNat_add, h1]
  omega

/-- One byte, and then what was appended after it. -/
theorem OutputAppended.after_emit (v : Byte) {s t : State} (ho : s.outCount.toNat < Config.maxBuf)
    (hh : s.hcur.toNat < s.cfg.maxSize) (h : OutputAppended (afterEmit v s) t) : OutputAppended s t := by
  obtain ⟨hn, hc, hlt⟩ := afterEmit_counts v ho hh
  have hcfg : (afterEmit v s).cfg = s.cfg := rfl
  have hcount := h.count
  refine ⟨by omega, fun _ => ?_, fun a ha => ?_, fun a ha => ?_⟩
  · rw [h.cursor hlt, hcfg, hc, hn, Nat.mod_add_mod]
    congr 1
    omega
  · rw [h.keptOut a (by omega)]
    exact Memory.read_write_other _ _ (by omega)
  · rw [h.keptHist a fun i hi => ?_]
    · refine Memory.read_write_other _ _ fun he => ha 0 (by omega) ?_
      rw [he, Nat.add_zero, Nat.mod_eq_of_lt hh]
    · rw [hcfg, hc, Nat.mod_add_mod, Nat.add_assoc, Nat.add_comm 1 i]
      exact ha (i + 1) (by omega)

/-- `emit_byte` writes the byte's own cells and no other. -/
theorem emitByte_appended {v : Byte} {s t : State} (h : emitByte v s = .ok t) : OutputAppended s t := by
  obtain ⟨ho, hh, rfl⟩ := emitByte_ok h
  exact .after_emit v ho hh (.refl _)

/-- A copy writes the cells of its new bytes and no other. -/
theorem copyFrom_appended {n k : Nat} {s t : State} (h : copyFrom n k s = .ok t) : OutputAppended s t := by
  induction n generalizing k s with
  | zero => injection h with h; exact h ▸ .refl s
  | succ n ih =>
    simp only [copyFrom] at h
    split at h
    · cases h
    · split at h
      · cases h
      · rename_i u hu
        obtain ⟨ho, hh, rfl⟩ := emitByte_ok hu
        exact .after_emit _ ho hh (ih h)

/-- Which check of R78 a copy fails first. -/
theorem copyRefusal_eq_none {distance len : Nat} {s : State} :
    copyRefusal distance len s = none ↔
      distance ≤ s.outCount.toNat ∧ distance ≤ s.cfg.maxSize ∧ s.outCount.toNat + len ≤ s.declSize.toNat := by
  simp only [copyRefusal]
  split
  · simp; omega
  · split
    · simp; omega
    · split
      · simp; omega
      · simp; omega

end Sys2Proof.Machine
end

