-- ==== Sys2Proof/Laws/Step.lean ====
section
/-! SUPPORT. What one transition can be, said once. -/

namespace Sys2Proof.Machine

/-- A step is the engine's, a host access, or the reset input, as the schedule says. -/
theorem step_cases {s t : State} (h : step s = .next t) :
    (s.schedule = [] ∧ engineTurn s = .next t) ∨
    (∃ rest, s.schedule = .engine :: rest ∧ engineTurn { s with schedule := rest } = .next t) ∨
    (∃ a rest, s.schedule = .host a :: rest ∧ t = hostAccess a { s with schedule := rest }) ∨
    (∃ rest, s.schedule = .reset :: rest ∧ t = resetInput { s with schedule := rest }) := by
  unfold step at h
  split at h
  · exact .inl ⟨‹_›, h⟩
  · exact .inr (.inl ⟨_, ‹_›, h⟩)
  · injection h with h; exact .inr (.inr (.inl ⟨_, _, ‹_›, h.symm⟩))
  · injection h with h; exact .inr (.inr (.inr ⟨_, ‹_›, h.symm⟩))

/-- Where the engine's turn is next, the step is that turn. -/
theorem step_of_engineNext {s e : State} (h : EngineNext s e) : step s = engineTurn e := by
  rcases h with ⟨hs, rfl⟩ | ⟨rest, hs, rfl⟩ <;> simp only [step, hs]

/-- The state the engine's turn finds differs at most in the turns to come. -/
theorem EngineNext.eq {s e : State} (h : EngineNext s e) : e = { s with schedule := e.schedule } := by
  rcases h with ⟨_, rfl⟩ | ⟨rest, _, rfl⟩ <;> rfl

/-- An engine step executes the item it fetched, or ends in the error raised while it fetched one. -/
theorem engineStep_cases {s t : State} (h : engineStep s = .next t) :
    (∃ i u, fetchInstr s = .ok i u ∧ exec i u = .next t) ∨
    (∃ e u, fetchInstr s = .raised e u ∧ t = enterError e u) := by
  unfold engineStep at h
  split at h
  · exact .inl ⟨_, _, ‹_›, h⟩
  · injection h with h; exact .inr ⟨_, _, ‹_›, h.symm⟩
  · cases h

/-- The engine's turn is an engine step while BUSY and nothing otherwise. -/
theorem engineTurn_cases {s t : State} (h : engineTurn s = .next t) :
    (s.fsm = .busy ∧ engineStep s = .next t) ∨ (s.fsm ≠ .busy ∧ t = s) := by
  unfold engineTurn at h
  split at h
  · exact .inl ⟨‹_›, h⟩
  · injection h with h; exact .inr ⟨‹_›, h.symm⟩

end Sys2Proof.Machine
end

