-- ==== Sys2Proof/Laws/RegFile.lean ====
section
/-! SUPPORT. The laws of register files: sizes, and what an entry holds after each operation. -/

namespace Sys2Proof.Machine

theorem RegFile.hasSize_pos {t : RegFile} : ∀ {n : Nat}, t.hasSize n = true → 1 ≤ n := by
  cases t with
  | cell v => intro n h; simp [RegFile.hasSize] at h; omega
  | fork l r => intro n h; simp [RegFile.hasSize] at h; omega

@[simp] theorem RegFile.hasSize_set (t : RegFile) (i : Nat) (v : Half) (n : Nat) :
    (t.set i v).hasSize n = t.hasSize n := by
  induction t generalizing i n with
  | cell w => rfl
  | fork l r ihl ihr =>
    simp only [RegFile.set]
    split <;> simp [RegFile.hasSize, ihl, ihr]

@[simp] theorem RegFile.hasSize_mapIdx (t : RegFile) (f : Nat → Half → Half) (n : Nat) :
    (t.mapIdx f).hasSize n = t.hasSize n := by
  induction t generalizing f n with
  | cell w => rfl
  | fork l r ihl ihr => simp [RegFile.mapIdx, RegFile.hasSize, ihl, ihr]

theorem RegFile.hasSize_fill (v : Half) (d : Nat) :
    ∀ n, 1 ≤ n → n ≤ 2 ^ d → (RegFile.fill d n v).hasSize n = true := by
  induction d with
  | zero => intro n h1 h2; simp [RegFile.fill, RegFile.hasSize]; omega
  | succ d ih =>
    intro n h1 h2
    rw [Nat.pow_succ] at h2
    simp only [RegFile.fill]
    split
    · simp [RegFile.hasSize]; omega
    · simp only [RegFile.hasSize, Bool.and_eq_true, decide_eq_true_eq]
      exact ⟨⟨by omega, ih _ (by omega) (by omega)⟩, ih _ (by omega) (by omega)⟩

theorem RegFile.get_set (t : RegFile) (v : Half) : ∀ {n i j : Nat}, t.hasSize n = true → i < n → j < n →
    (t.set i v).get j = if j = i then v else t.get j := by
  induction t with
  | cell w =>
    intro n i j h hi hj
    simp only [RegFile.hasSize, beq_iff_eq] at h
    have : j = i := by omega
    simp [RegFile.set, RegFile.get, this]
  | fork l r ihl ihr =>
    intro n i j h hi hj
    simp only [RegFile.hasSize, Bool.and_eq_true, decide_eq_true_eq] at h
    obtain ⟨⟨_, hl⟩, hr⟩ := h
    by_cases hie : i % 2 = 0 <;> by_cases hje : j % 2 = 0
    · have := ihl hl (i := i / 2) (j := j / 2) (by omega) (by omega)
      simp only [RegFile.set, RegFile.get, hie, hje, if_true, this]
      have : j / 2 = i / 2 ↔ j = i := by omega
      simp [this]
    · have : j ≠ i := by rintro rfl; exact hje hie
      simp [RegFile.set, RegFile.get, hie, hje, this]
    · have : j ≠ i := by rintro rfl; exact hie hje
      simp [RegFile.set, RegFile.get, hie, hje, this]
    · have := ihr hr (i := i / 2) (j := j / 2) (by omega) (by omega)
      simp only [RegFile.set, RegFile.get, hie, hje, if_false, this]
      have : j / 2 = i / 2 ↔ j = i := by omega
      simp [this]

theorem RegFile.get_mapIdx (t : RegFile) : ∀ (f : Nat → Half → Half) {n i : Nat}, t.hasSize n = true → i < n →
    (t.mapIdx f).get i = f i (t.get i) := by
  induction t with
  | cell w =>
    intro f n i h hi
    simp only [RegFile.hasSize, beq_iff_eq] at h
    have : i = 0 := by omega
    simp [RegFile.mapIdx, RegFile.get, this]
  | fork l r ihl ihr =>
    intro f n i h hi
    simp only [RegFile.hasSize, Bool.and_eq_true, decide_eq_true_eq] at h
    obtain ⟨⟨_, hl⟩, hr⟩ := h
    by_cases hie : i % 2 = 0
    · have := ihl (fun i => f (2 * i)) hl (i := i / 2) (by omega)
      simp only [RegFile.mapIdx, RegFile.get, hie, if_true, this]
      rw [show 2 * (i / 2) = i by omega]
    · have := ihr (fun i => f (2 * i + 1)) hr (i := i / 2) (by omega)
      simp only [RegFile.mapIdx, RegFile.get, hie, if_false, this]
      rw [show 2 * (i / 2) + 1 = i by omega]

theorem RegFile.get_fill (v : Half) (d : Nat) : ∀ n i, (RegFile.fill d n v).get i = v := by
  induction d with
  | zero => intro n i; rfl
  | succ d ih => intro n i; simp only [RegFile.fill]; split <;> simp [RegFile.get, ih]

end Sys2Proof.Machine
end

