-- ==== Sys2Proof/Laws/Tree.lean ====
section
/-! SUPPORT. The laws of the tree's accesses: what a link reads after each write, and that the operations on frequencies
leave every link alone. -/

namespace Sys2Proof.Machine

theorem Preset.twiceMax_lt (c : Preset) : c.twiceMax < 65536 := by cases c <;> decide

theorem Preset.maxChar_lt_twiceMax (c : Preset) : c.maxChar < c.twiceMax := by cases c <;> decide

theorem Tree.hasDad_iff {c : Preset} {x : Nat} : Tree.hasDad c x = true ↔ 2 ≤ x ∧ x ≤ c.twiceMax := by
  simp [Tree.hasDad]

theorem Tree.isNode_iff {c : Preset} {x : Nat} : Tree.isNode c x = true ↔ 1 ≤ x ∧ x ≤ c.twiceMax := by
  simp [Tree.isNode]

theorem Tree.isInternal_iff {c : Preset} {x : Nat} : Tree.isInternal c x = true ↔ 1 ≤ x ∧ x ≤ c.maxChar := by
  simp [Tree.isInternal]

/-- A node number survives its storage in 16 bits. -/
theorem toNat_ofNat_node {c : Preset} {x : Nat} (h : x ≤ c.twiceMax) : (BitVec.ofNat 16 x).toNat = x := by
  have := Preset.twiceMax_lt c
  simp only [BitVec.toNat_ofNat]
  omega

/-- The links of a tree: what the descent and the walks read. -/
def Tree.SameLinks (t u : Tree) : Prop := u.dad = t.dad ∧ u.left = t.left ∧ u.right = t.right

theorem Tree.SameLinks.refl (t : Tree) : t.SameLinks t := ⟨rfl, rfl, rfl⟩

theorem Tree.SameLinks.trans {t u v : Tree} (h : t.SameLinks u) (k : u.SameLinks v) : t.SameLinks v :=
  ⟨k.1.trans h.1, k.2.1.trans h.2.1, k.2.2.trans h.2.2⟩

theorem Tree.SameLinks.dadOf {t u : Tree} (h : t.SameLinks u) (c : Preset) (x : Nat) : u.dadOf c x = t.dadOf c x := by
  simp only [Tree.dadOf, h.1]

theorem Tree.SameLinks.leftOf {t u : Tree} (h : t.SameLinks u) (c : Preset) (x : Nat) :
    u.leftOf c x = t.leftOf c x := by
  simp only [Tree.leftOf, h.2.1]

theorem Tree.SameLinks.rightOf {t u : Tree} (h : t.SameLinks u) (c : Preset) (x : Nat) :
    u.rightOf c x = t.rightOf c x := by
  simp only [Tree.rightOf, h.2.2]

theorem Tree.SameLinks.sibling {t u : Tree} (h : t.SameLinks u) (c : Preset) (x : Nat) :
    u.sibling c x = t.sibling c x := by
  simp only [Tree.sibling, Tree.otherChild, h.dadOf, h.leftOf, h.rightOf]

theorem Tree.SameLinks.ancestor {t u : Tree} (h : t.SameLinks u) (c : Preset) (n x : Nat) :
    u.ancestor c n x = t.ancestor c n x := by
  induction n generalizing x with
  | zero => rfl
  | succ n ih => simp only [Tree.ancestor, h.dadOf, ih]

/-! ### One write -/

theorem Tree.setFreq_eq_some {c : Preset} {t u : Tree} {x : Nat} {v : Half} (h : t.setFreq c x v = some u) :
    Tree.isNode c x = true ∧ u = { t with freq := t.freq.set x v } := by
  simp only [Tree.setFreq] at h
  split at h
  · exact ⟨‹_›, (Option.some.inj h).symm⟩
  · cases h

theorem Tree.setFreq_sameLinks {c : Preset} {t u : Tree} {x : Nat} {v : Half} (h : t.setFreq c x v = some u) :
    t.SameLinks u := by
  obtain ⟨_, rfl⟩ := Tree.setFreq_eq_some h
  exact ⟨rfl, rfl, rfl⟩

theorem Tree.setFreq_sized {c : Preset} {t u : Tree} {x : Nat} {v : Half} (h : t.setFreq c x v = some u)
    (ht : t.Sized c) : u.Sized c := by
  obtain ⟨_, rfl⟩ := Tree.setFreq_eq_some h
  simpa [Tree.Sized] using ht

theorem Tree.freqOf_setFreq {c : Preset} {t u : Tree} {x : Nat} {v : Half} (h : t.setFreq c x v = some u)
    (ht : t.Sized c) (y : Nat) : u.freqOf c y = if y = x then some v else t.freqOf c y := by
  obtain ⟨hx, rfl⟩ := Tree.setFreq_eq_some h
  rw [Tree.isNode_iff] at hx
  simp only [Tree.freqOf]
  by_cases hy : Tree.isNode c y = true
  · have hy' := Tree.isNode_iff.mp hy
    rw [if_pos hy, if_pos hy, RegFile.get_set _ _ ht.2.1 (by omega) (by omega)]
    split <;> rfl
  · rw [if_neg hy, if_neg hy, if_neg]
    rintro rfl
    exact hy (Tree.isNode_iff.mpr hx)

theorem Tree.setDad_eq_some {c : Preset} {t u : Tree} {x p : Nat} (h : t.setDad c x p = some u) :
    Tree.hasDad c x = true ∧ u = { t with dad := t.dad.set x (BitVec.ofNat 16 p) } := by
  simp only [Tree.setDad] at h
  split at h
  · exact ⟨‹_›, (Option.some.inj h).symm⟩
  · cases h

theorem Tree.dadOf_setDad {c : Preset} {t u : Tree} {x p : Nat} (h : t.setDad c x p = some u) (ht : t.Sized c)
    (hp : p ≤ c.twiceMax) (y : Nat) : u.dadOf c y = if y = x then some p else t.dadOf c y := by
  obtain ⟨hx, rfl⟩ := Tree.setDad_eq_some h
  rw [Tree.hasDad_iff] at hx
  simp only [Tree.dadOf]
  by_cases hy : Tree.hasDad c y = true
  · have hy' := Tree.hasDad_iff.mp hy
    rw [if_pos hy, if_pos hy, RegFile.get_set _ _ ht.1 (by omega) (by omega)]
    split
    · rw [toNat_ofNat_node hp]
    · rfl
  · rw [if_neg hy, if_neg hy, if_neg]
    rintro rfl
    exact hy (Tree.hasDad_iff.mpr hx)

theorem Tree.setLeft_eq_some {c : Preset} {t u : Tree} {x y : Nat} (h : t.setLeft c x y = some u) :
    Tree.isInternal c x = true ∧ u = { t with left := t.left.set x (BitVec.ofNat 16 y) } := by
  simp only [Tree.setLeft] at h
  split at h
  · exact ⟨‹_›, (Option.some.inj h).symm⟩
  · cases h

theorem Tree.leftOf_setLeft {c : Preset} {t u : Tree} {x v : Nat} (h : t.setLeft c x v = some u) (ht : t.Sized c)
    (hv : v ≤ c.twiceMax) (y : Nat) : u.leftOf c y = if y = x then some v else t.leftOf c y := by
  obtain ⟨hx, rfl⟩ := Tree.setLeft_eq_some h
  rw [Tree.isInternal_iff] at hx
  simp only [Tree.leftOf]
  by_cases hy : Tree.isInternal c y = true
  · have hy' := Tree.isInternal_iff.mp hy
    rw [if_pos hy, if_pos hy, RegFile.get_set _ _ ht.2.2.1 (by omega) (by omega)]
    split
    · rw [toNat_ofNat_node hv]
    · rfl
  · rw [if_neg hy, if_neg hy, if_neg]
    rintro rfl
    exact hy (Tree.isInternal_iff.mpr hx)

theorem Tree.setRight_eq_some {c : Preset} {t u : Tree} {x y : Nat} (h : t.setRight c x y = some u) :
    Tree.isInternal c x = true ∧ u = { t with right := t.right.set x (BitVec.ofNat 16 y) } := by
  simp only [Tree.setRight] at h
  split at h
  · exact ⟨‹_›, (Option.some.inj h).symm⟩
  · cases h

theorem Tree.rightOf_setRight {c : Preset} {t u : Tree} {x v : Nat} (h : t.setRight c x v = some u)
    (ht : t.Sized c) (hv : v ≤ c.twiceMax) (y : Nat) :
    u.rightOf c y = if y = x then some v else t.rightOf c y := by
  obtain ⟨hx, rfl⟩ := Tree.setRight_eq_some h
  rw [Tree.isInternal_iff] at hx
  simp only [Tree.rightOf]
  by_cases hy : Tree.isInternal c y = true
  · have hy' := Tree.isInternal_iff.mp hy
    rw [if_pos hy, if_pos hy, RegFile.get_set _ _ ht.2.2.2 (by omega) (by omega)]
    split
    · rw [toNat_ofNat_node hv]
    · rfl
  · rw [if_neg hy, if_neg hy, if_neg]
    rintro rfl
    exact hy (Tree.isInternal_iff.mpr hx)

/-! ### The operations on frequencies -/

theorem Tree.sumUp_sameLinks {c : Preset} {n : Nat} {t u : Tree} {a b : Nat} (h : Tree.sumUp c n t a b = some u) :
    t.SameLinks u := by
  induction n generalizing t a b with
  | zero => cases h
  | succ n ih =>
    simp only [Tree.sumUp, Option.bind_eq_bind, Option.bind_eq_some_iff] at h
    obtain ⟨p, _, fa, _, fb, _, t', ht', h⟩ := h
    have h1 := Tree.setFreq_sameLinks ht'
    split at h
    · exact Option.some.inj h ▸ h1
    · obtain ⟨b', _, h⟩ := Option.bind_eq_some_iff.mp h
      exact h1.trans (ih h)

theorem Tree.sumUp_sized {c : Preset} {n : Nat} {t u : Tree} {a b : Nat} (h : Tree.sumUp c n t a b = some u)
    (ht : t.Sized c) : u.Sized c := by
  induction n generalizing t a b with
  | zero => cases h
  | succ n ih =>
    simp only [Tree.sumUp, Option.bind_eq_bind, Option.bind_eq_some_iff] at h
    obtain ⟨p, _, fa, _, fb, _, t', ht', h⟩ := h
    have h1 := Tree.setFreq_sized ht' ht
    split at h
    · exact Option.some.inj h ▸ h1
    · obtain ⟨b', _, h⟩ := Option.bind_eq_some_iff.mp h
      exact ih h h1

theorem Tree.rescale_sameLinks (c : Preset) (t : Tree) : t.SameLinks (t.rescale c) := ⟨rfl, rfl, rfl⟩

theorem Tree.rescale_sized (c : Preset) (t : Tree) (ht : t.Sized c) : (t.rescale c).Sized c := by
  simpa [Tree.Sized, Tree.rescale] using ht

theorem Tree.rescaleIfFull_cases {c : Preset} {t u : Tree} (h : t.rescaleIfFull c = some u) :
    u = t ∨ u = t.rescale c := by
  simp only [Tree.rescaleIfFull, Option.bind_eq_bind, Option.bind_eq_some_iff] at h
  obtain ⟨f, _, h⟩ := h
  split at h
  · exact .inr (Option.some.inj h).symm
  · exact .inl (Option.some.inj h).symm

/-- `propagate_frequency` writes no link. -/
theorem Tree.propagate_sameLinks {c : Preset} {t u : Tree} {a b : Nat} (h : t.propagate c a b = some u) :
    t.SameLinks u := by
  obtain ⟨t', h1, h2⟩ := Option.bind_eq_some_iff.mp h
  rcases Tree.rescaleIfFull_cases h2 with rfl | rfl
  · exact Tree.sumUp_sameLinks h1
  · exact (Tree.sumUp_sameLinks h1).trans (Tree.rescale_sameLinks c t')

/-- `propagate_frequency` keeps the files' sizes. -/
theorem Tree.propagate_sized {c : Preset} {t u : Tree} {a b : Nat} (h : t.propagate c a b = some u)
    (ht : t.Sized c) : u.Sized c := by
  obtain ⟨t', h1, h2⟩ := Option.bind_eq_some_iff.mp h
  rcases Tree.rescaleIfFull_cases h2 with rfl | rfl
  · exact Tree.sumUp_sized h1 ht
  · exact Tree.rescale_sized c t' (Tree.sumUp_sized h1 ht)

/-! ### The loop of `update_model` -/

/-- The bounded loop answers what the loop of R68 ends with. -/
theorem Tree.promote_promotes {c : Preset} {n : Nat} {t u : Tree} {a code1 : Nat}
    (h : Tree.promote c n t a code1 = some u) : Tree.Promotes c t a code1 u := by
  induction n generalizing t a code1 with
  | zero => cases h
  | succ n ih =>
    simp only [Tree.promote, Option.bind_eq_bind, Option.bind_eq_some_iff] at h
    obtain ⟨⟨t', left⟩, iteration, parent, up, above, next, h⟩ := h
    split at h
    · rename_i top
      exact Option.some.inj h ▸ .last iteration up (top ▸ next)
    · exact .more iteration up next ‹_› (ih h)

/-! ### The fresh tree -/

theorem Tree.init_sized {c : Preset} {t : Tree} (ht : t.Sized c) : (t.init c).Sized c := by
  simpa [Tree.Sized, Tree.init] using ht

theorem Tree.reset_sized (c : Preset) : (Tree.reset c).Sized c := by
  cases c <;> exact ⟨RegFile.hasSize_fill _ _ _ (by decide) (by decide), RegFile.hasSize_fill _ _ _ (by decide) (by decide),
    RegFile.hasSize_fill _ _ _ (by decide) (by decide), RegFile.hasSize_fill _ _ _ (by decide) (by decide)⟩

theorem Tree.dadOf_init {c : Preset} {t : Tree} (ht : t.Sized c) {x : Nat} (h2 : 2 ≤ x) (hx : x ≤ c.twiceMax) :
    (t.init c).dadOf c x = some (x / 2) := by
  have hd : Tree.hasDad c x = true := Tree.hasDad_iff.mpr ⟨h2, hx⟩
  simp only [Tree.dadOf, Tree.init, hd, if_true]
  rw [RegFile.get_mapIdx _ _ ht.1 (by omega), if_pos hd, toNat_ofNat_node (c := c) (by omega)]

theorem Tree.leftOf_init {c : Preset} {t : Tree} (ht : t.Sized c) {x : Nat} (h1 : 1 ≤ x) (hx : x ≤ c.maxChar) :
    (t.init c).leftOf c x = some (2 * x) := by
  have hi : Tree.isInternal c x = true := Tree.isInternal_iff.mpr ⟨h1, hx⟩
  have : 2 * x ≤ c.twiceMax := by simp only [Preset.twiceMax, Preset.succMax]; omega
  simp only [Tree.leftOf, Tree.init, hi, if_true]
  rw [RegFile.get_mapIdx _ _ ht.2.2.1 (by omega), if_pos hi, toNat_ofNat_node this]

theorem Tree.rightOf_init {c : Preset} {t : Tree} (ht : t.Sized c) {x : Nat} (h1 : 1 ≤ x) (hx : x ≤ c.maxChar) :
    (t.init c).rightOf c x = some (2 * x + 1) := by
  have hi : Tree.isInternal c x = true := Tree.isInternal_iff.mpr ⟨h1, hx⟩
  have : 2 * x + 1 ≤ c.twiceMax := by simp only [Preset.twiceMax, Preset.succMax]; omega
  simp only [Tree.rightOf, Tree.init, hi, if_true]
  rw [RegFile.get_mapIdx _ _ ht.2.2.2 (by omega), if_pos hi, toNat_ofNat_node this]

theorem Tree.ancestor_init {c : Preset} {t : Tree} (ht : t.Sized c) (x : Nat) (h1 : 1 ≤ x) (hx : x ≤ c.twiceMax) :
    ∃ n, (t.init c).ancestor c n x = some Config.root := by
  induction x using Nat.strongRecOn with
  | ind x ih =>
    by_cases h : x = 1
    · exact ⟨0, by rw [h]; rfl⟩
    · obtain ⟨n, hn⟩ := ih (x / 2) (by omega) (by omega) (by omega)
      exact ⟨n + 1, by simp only [Tree.ancestor, Tree.dadOf_init ht (by omega : 2 ≤ x) hx]; exact hn⟩

/-- `init_tree` establishes the shape of R69. -/
theorem Tree.shape_init {c : Preset} {t : Tree} (ht : t.Sized c) : (t.init c).Shape c := by
  have hb : c.twiceMax = 2 * c.maxChar + 1 := by simp only [Preset.twiceMax, Preset.succMax]; omega
  refine ⟨Tree.init_sized ht, fun i h1 h2 => ?_, fun x h1 h2 => ?_, Tree.ancestor_init ht⟩
  · refine ⟨2 * i, 2 * i + 1, Tree.leftOf_init ht h1 h2, Tree.rightOf_init ht h1 h2, by omega, ?_, ?_⟩
    · rw [Tree.dadOf_init ht (by omega) (by omega)]; congr 1; omega
    · rw [Tree.dadOf_init ht (by omega) (by omega)]; congr 1; omega
  · refine ⟨x / 2, Tree.dadOf_init ht h1 h2, by omega, by omega, ?_⟩
    rw [Tree.leftOf_init ht (by omega) (by omega), Tree.rightOf_init ht (by omega) (by omega)]
    rcases Nat.mod_two_eq_zero_or_one x with h | h
    · exact .inl (congrArg some (by omega))
    · exact .inr (congrArg some (by omega))

end Sys2Proof.Machine
end

