-- ==== Sys2Proof/Certificates/Slice0/Obligations.lean ====
section
/-! DEFINITION. The statements about the model, each a proposition `Obligations.<Name>`. -/

open Sys2Proof Sys2Proof.Machine

/-! ### Encoding (30_encoding.md) -/

/-- The opcode table's boundary symbols decode to the instructions they stand for (R54), and a symbol above MAXCHAR to none.
The numbering of the table's words is the model's (log 14). -/
def Obligations.TableWordsDecode : Prop :=
  decodeTableWord 16 0x000 = some (.lit 0) ∧ decodeTableWord 16 0x0FF = some (.lit 255) ∧
  decodeTableWord 16 0x100 = some .term ∧
  decodeTableWord 16 0x101 = some (.copyR0 3 0) ∧ decodeTableWord 16 0x1FD = some (.copyR0 255 0) ∧
  decodeTableWord 16 0x1FE = some (.copyR1 3 0) ∧ decodeTableWord 16 0x2FA = some (.copyR1 255 0) ∧
  decodeTableWord 16 0x2FB = some (.copyR2 3 0) ∧ decodeTableWord 16 0x3F7 = some (.copyR2 255 0) ∧
  decodeTableWord 16 0x3F8 = some (.copyR3 3 0) ∧ decodeTableWord 16 0x4F4 = some (.copyR3 255 0) ∧
  decodeTableWord 16 0x4F5 = some (.copyR4 3 0) ∧ decodeTableWord 16 0x5F1 = some (.copyR4 255 0) ∧
  decodeTableWord 16 0x5F2 = some (.copyR5 3 0) ∧ decodeTableWord 16 0x6EE = some (.copyR5 255 0) ∧
  decodeTableWord 16 0x6EF = none

/-- In any tree of the shape of R69, decoding an encoded item gives the item back, with every operand, and leaves the bits
after it (R48, R49, R51). -/
def Obligations.EncodedItemDecodes : Prop :=
  ∀ (c : Preset) (t : Tree) (i : Instr) (bits rest : List Bool), t.Shape c →
    encodeItem c t i = some bits → decodeItem c t (bits ++ rest) = .ok (i, rest)

/-- In any tree of that shape, the bits a decoded item took are the encoding of that item, and the item is well formed: each list of
bits has one meaning (R56). -/
def Obligations.DecodedItemEncodes : Prop :=
  ∀ (c : Preset) (t : Tree) (bits rest : List Bool) (i : Instr), t.Shape c →
    decodeItem c t bits = .ok (i, rest) →
    WellFormed c i = true ∧ ∃ taken, encodeItem c t i = some taken ∧ bits = taken ++ rest

/-- In any tree of that shape every well-formed item has an encoding: its symbol's code, of at least 1 and at most MAXCHAR bits
(R55), and its extra field. -/
def Obligations.EveryItemHasACode : Prop :=
  ∀ (c : Preset) (t : Tree) (i : Instr), t.Shape c → WellFormed c i = true →
    ∃ code, codeOf c t (i.symbol c) = some code ∧ 1 ≤ code.length ∧ code.length ≤ c.maxChar ∧
      encodeItem c t i = some (code ++ i.extraField)

/-- The code is complete (R56): in any tree of that shape, any MAXCHAR bits or more begin with the code of a symbol. -/
def Obligations.LongEnoughBitsHoldASymbol : Prop :=
  ∀ (c : Preset) (t : Tree) (bits : List Bool), t.Shape c → c.maxChar ≤ bits.length →
    ∃ node rest, descendBits c t Config.root bits = .ok (node, rest) ∧ c.succMax ≤ node ∧ node ≤ c.twiceMax

/-- In the tree START builds, the code of symbol s is the binary representation of s + SUCCMAX without its leading 1, most
significant digit first (R50). -/
def Obligations.InitialCodesAreBinary : Prop :=
  ∀ (c : Preset) (t : Tree) (s : Nat), t.Sized c → s ≤ c.maxChar →
    codeOf c (t.init c) s = some (Nat.bits (s + c.succMax)).dropLast.reverse

/-- The operand ranges of a copy (R53): its length is MINCOPY to MAXCOPY, and its distance less its length is the range's least
offset to that plus 2^copybits - 1; so the distance is at least the length. -/
def Obligations.CopyOperandRanges : Prop :=
  ∀ (c : Preset) (s : Nat) (r : Fin 6) (len extra : Nat), classify c s = some (.copy r len) →
    extra < 2 ^ Config.copyBits r →
    Config.minCopy ≤ len ∧ len ≤ c.maxCopy ∧ len ≤ copyDistance r len extra ∧
    Config.copyMin r ≤ copyDistance r len extra - len ∧
    copyDistance r len extra - len ≤ Config.copyMin r + 2 ^ Config.copyBits r - 1

/-- The pseudo-instruction COPY len, dist (R57) has an encoding exactly when len ≤ dist and dist - len ≤ 21839, and then it is the
one copy of that length and distance. -/
def Obligations.PseudoCopyIsUnique : Prop :=
  ∀ (c : Preset) (len dist : Nat), lengthOk c len = true →
    ((∃ i, copyPseudo c len dist = some i) ↔ len ≤ dist ∧ dist - len ≤ 21839) ∧
    ∀ i, copyPseudo c len dist = some i →
      ∃ r extra, extra < 2 ^ Config.copyBits r ∧ i = Instr.copyOf r len extra ∧ copyDistance r len extra = dist ∧
        ∀ r' extra', extra' < 2 ^ Config.copyBits r' → copyDistance r' len extra' = dist → r' = r ∧ extra' = extra

/-! ### The bit reader (40_bitstream_reader.md) -/

/-- read_bit delivers stream bit number BITS_USED, bit 15 - (k mod 16) of word k / 16 (R36), and moves the cursor by one; the law
of R62 stays. -/
def Obligations.ReadBitDeliversStreamBit : Prop :=
  ∀ (s : State) (b : Bool), ReaderOk s → s.bitpos < 16 * s.inLen.toNat → streamBit s s.bitpos = some b →
    ∃ t, readBit s = .ok b t ∧ t.bitpos = s.bitpos + 1 ∧ SameButReader s t ∧ ReaderOk t

/-- read_bits(n) (R60): the value is below 2^n, its bit i is the i-th stream bit read, and the cursor moves by n. -/
def Obligations.ReadBitsWeighsFirstBitLeast : Prop :=
  ∀ (n v : Nat) (s t : State), ReaderOk s → readBits n s = .ok v t →
    v < 2 ^ n ∧ t.bitpos = s.bitpos + n ∧ ∀ i, i < n → streamBit s (s.bitpos + i) = some (v.testBit i)

/-- An item whose bits run out (R101): the step ends in ERROR with INPUT_EXHAUSTED, all 16*IN_LEN bits are consumed, and no byte was
written. Where no bit at all is left (R59), nothing else changes, the turn taken from the model's schedule (log 3) apart. -/
def Obligations.ExhaustedInputEndsTheJob : Prop :=
  (∀ (s e u : State), s.fsm = .busy → EngineNext s e → ReaderOk s → fetchInstr e = .raised .inputExhausted u →
    ∃ t, step s = .next t ∧ t.fsm = .error ∧ t.errInfo = 0x102 ∧ t.bitpos = 16 * s.inLen.toNat ∧
      t.outCount = s.outCount ∧ t.outMem = s.outMem ∧ t.hist = s.hist ∧ t.hcur = s.hcur ∧ t.inMem = s.inMem) ∧
  (∀ (s e : State), s.fsm = .busy → EngineNext s e → s.bitcount = 0 → s.inLen ≤ s.widx →
    step s = .next { e with errInfo := 0x102, fsm := .error })

/-- What the machine fetches through its registers, bit by bit, is what the decoder reads from the list of stream bits ahead, and the
tree is updated for its symbol (R61, R65, R75). -/
def Obligations.FetchIsDecode : Prop :=
  ∀ (s u : State) (i : Instr), ReaderOk s → fetchInstr s = .ok i u →
    decodeItem s.cfg s.tree (bitsAhead s) = .ok (i, bitsAhead u) ∧
    s.tree.update s.cfg (i.symbol s.cfg) = some u.tree ∧ SameButFetch s u ∧ ReaderOk u

/-- Every fetched item is well formed, in any state (R53, R56). -/
def Obligations.FetchedItemIsWellFormed : Prop :=
  ∀ (s u : State) (i : Instr), fetchInstr s = .ok i u → WellFormed s.cfg i = true

/-! ### The tree (41_huffman_tree.md) -/

/-- init_tree (R63): every used entry as the rule gives it; entries 0, dad[ROOT] and freq[ROOT] keep what they held. -/
def Obligations.InitTreeEntries : Prop :=
  ∀ (c : Preset) (t : Tree), t.Sized c →
    (∀ i, 2 ≤ i → i ≤ c.twiceMax → (t.init c).dadOf c i = some (i / 2) ∧ (t.init c).freqOf c i = some 1) ∧
    (∀ i, 1 ≤ i → i ≤ c.maxChar →
      (t.init c).leftOf c i = some (2 * i) ∧ (t.init c).rightOf c i = some (2 * i + 1)) ∧
    (t.init c).dad.get 0 = t.dad.get 0 ∧ (t.init c).dad.get 1 = t.dad.get 1 ∧
    (t.init c).freq.get 0 = t.freq.get 0 ∧ (t.init c).freq.get 1 = t.freq.get 1 ∧
    (t.init c).left.get 0 = t.left.get 0 ∧ (t.init c).right.get 0 = t.right.get 0

/-- rescale (R67): every frequency is halved, rounding down, and no link changes. -/
def Obligations.RescaleHalvesEveryFrequency : Prop :=
  ∀ (c : Preset) (t : Tree), t.Sized c →
    (∀ i f, t.freqOf c i = some f → ∃ g, (t.rescale c).freqOf c i = some g ∧ g.toNat = f.toNat / 2) ∧
    (t.rescale c).freq.get 0 = t.freq.get 0 ∧ t.SameLinks (t.rescale c)

/-- The climb of propagate_frequency (R66, R70): afterwards every node from dad[a] up to ROOT holds the sum, modulo 2^16, of its two
children's stored frequencies, every other frequency is as before, and no link changes. -/
def Obligations.PropagationLeavesSumsOnThePath : Prop :=
  ∀ (c : Preset) (t u : Tree) (a b n : Nat), t.Shape c → t.sibling c a = some b →
    Tree.sumUp c n t a b = some u →
    t.SameLinks u ∧
    (∀ k p l r, t.ancestor c (k + 1) a = some p → t.leftOf c p = some l → t.rightOf c p = some r →
      ∃ fl fr, u.freqOf c l = some fl ∧ u.freqOf c r = some fr ∧ u.freqOf c p = some (fl + fr)) ∧
    (∀ x, (∀ k, t.ancestor c (k + 1) a ≠ some x) → u.freqOf c x = t.freqOf c x)

/-- propagate_frequency (R66) is the climb and then the rescale test, which is equality with MAXFREQ: where the climb leaves the root
at 2000 every frequency is halved, at any other root frequency, above it too, nothing more happens. -/
def Obligations.RescaleOnlyAtMaxFreq : Prop :=
  (∀ (c : Preset) (t : Tree) (f : Half), t.freqOf c Config.root = some f →
    (f.toNat = 2000 → t.rescaleIfFull c = some (t.rescale c)) ∧ (f.toNat ≠ 2000 → t.rescaleIfFull c = some t)) ∧
  (∀ (c : Preset) (t u : Tree) (a b : Nat) (f : Half), Tree.sumUp c c.maxChar t a b = some u →
    u.freqOf c Config.root = some f →
    t.propagate c a b = some (if f.toNat = 2000 then u.rescale c else u))

/-- One iteration of the loop of R68, for a node `a` under code1 and its uncle b. A tie or a smaller frequency never swaps: the tree
and the node stay. A strictly greater frequency always does: the iteration is the exchange, which leaves tree u and a's old
sibling x, and then propagate_frequency(b, x) in u; it answers that tree and b. -/
def Obligations.OnlyAGreaterNodeSwaps : Prop :=
  ∀ (c : Preset) (t : Tree) (a b code1 code2 : Nat) (fa fb : Half), t.dadOf c code1 = some code2 →
    t.otherChild c code2 code1 = some b → t.freqOf c a = some fa → t.freqOf c b = some fb →
    (fa ≤ fb → t.promoteOnce c a code1 = some (t, a)) ∧
    (fb < fa → ∀ u x v, t.exchange c a b code1 code2 = some (u, x) → u.propagate c b x = some v →
      t.promoteOnce c a code1 = some (v, b))

/-- The exchange of R68 in a tree of the shape of R69: a and its uncle b change places, on the same sides, the child that stays is a's
old sibling, and nothing else changes. -/
def Obligations.ExchangeSwapsNodeAndUncle : Prop :=
  ∀ (c : Preset) (t : Tree) (a b code1 code2 x : Nat), t.Shape c →
    t.dadOf c a = some code1 → t.dadOf c code1 = some code2 → t.otherChild c code2 code1 = some b →
    t.sibling c a = some x →
    ∃ u, t.exchange c a b code1 code2 = some (u, x) ∧
      (∀ y, u.dadOf c y = if y = a then some code2 else if y = b then some code1 else t.dadOf c y) ∧
      (∀ y, u.leftOf c y = if t.leftOf c y = some a then some b
        else if t.leftOf c y = some b then some a else t.leftOf c y) ∧
      (∀ y, u.rightOf c y = if t.rightOf c y = some a then some b
        else if t.rightOf c y = some b then some a else t.rightOf c y) ∧
      u.freq = t.freq

/-- A leaf whose parent is the root (R71): its update raises its own frequency by one, modulo 2^16, and changes nothing else: no
propagation, no rescale. -/
def Obligations.LeafUnderRootOnlyCounts : Prop :=
  ∀ (c : Preset) (t : Tree) (sym : Nat), t.Sized c → sym ≤ c.maxChar →
    t.dadOf c (sym + c.succMax) = some Config.root →
    ∃ u f, t.freqOf c (sym + c.succMax) = some f ∧ t.update c sym = some u ∧ t.SameLinks u ∧
      ∀ x, u.freqOf c x = if x = sym + c.succMax then some (f + 1) else t.freqOf c x

/-- update_model of a leaf whose parent is not the root (R68): the leaf's frequency is raised by one, modulo 2^16, and nothing else;
then propagate_frequency runs from the leaf and its sibling; then the loop, from the leaf and its parent, to its end. In a tree of
the shape of R69 the update always answers (UpdateIsDefined). -/
def Obligations.UpdateCountsThenPromotes : Prop :=
  ∀ (c : Preset) (t u : Tree) (sym code1 : Nat), t.Sized c → t.dadOf c (sym + c.succMax) = some code1 →
    code1 ≠ Config.root → t.update c sym = some u →
    ∃ f b t1 t2, t.freqOf c (sym + c.succMax) = some f ∧ t.setFreq c (sym + c.succMax) (f + 1) = some t1 ∧
      t.SameLinks t1 ∧
      (∀ x, t1.freqOf c x = if x = sym + c.succMax then some (f + 1) else t.freqOf c x) ∧
      t.sibling c (sym + c.succMax) = some b ∧ t1.propagate c (sym + c.succMax) b = some t2 ∧
      Tree.Promotes c t2 (sym + c.succMax) code1 u

/-- The tree-shape invariant is kept by every update, rescale included (R69). -/
def Obligations.UpdateKeepsShape : Prop :=
  ∀ (c : Preset) (t u : Tree) (sym : Nat), t.Shape c → t.update c sym = some u → u.Shape c

/-- In a tree of that shape the update of any symbol of the alphabet is defined: no index leaves its file and every walk reaches the
root (R69, R93). -/
def Obligations.UpdateIsDefined : Prop :=
  ∀ (c : Preset) (t : Tree) (sym : Nat), t.Shape c → sym ≤ c.maxChar → ∃ u, t.update c sym = some u

/-- The sum-of-children property does not hold (R70): right after init_tree node 2 holds 1 and its children sum to 2. -/
def Obligations.SumPropertyFails : Prop :=
  ∀ (c : Preset) (t : Tree), t.Sized c →
    ∃ f l r fl fr, (t.init c).freqOf c 2 = some f ∧ (t.init c).leftOf c 2 = some l ∧
      (t.init c).rightOf c 2 = some r ∧ (t.init c).freqOf c l = some fl ∧ (t.init c).freqOf c r = some fr ∧
      f ≠ fl + fr

/-! ### The symbols (42_lz_copy.md) -/

/-- LIT (R76) with room left: the byte is appended to output and history (R72), and everything else is as before, every other
byte of OUT_MEM and HIST among it. -/
def Obligations.LitAppendsByte : Prop :=
  ∀ (b : Byte) (s : State), s.outCount.toNat + 1 ≤ s.declSize.toNat → s.declSize.toNat ≤ Config.declMax →
    s.hcur.toNat < s.cfg.maxSize →
    ∃ t, exec (.lit b) s = .next t ∧ SameButOutput s t ∧
      t.outCount.toNat = s.outCount.toNat + 1 ∧ t.hcur.toNat = (s.hcur.toNat + 1) % s.cfg.maxSize ∧
      (∀ a, t.outMem.read a = if a = s.outCount.toNat then some b else s.outMem.read a) ∧
      (∀ a, t.hist.read a = if a = s.hcur.toNat then some b else s.hist.read a)

/-- TERM (R77): with exactly DECL_SIZE bytes the job is DONE and nothing else changes; otherwise it ends in EARLY_TERMINATE. -/
def Obligations.TermEndsTheJob : Prop :=
  ∀ (s : State),
    (s.outCount = s.declSize → exec .term s = .next { s with fsm := .done }) ∧
    (s.outCount ≠ s.declSize → exec .term s = .next { s with errInfo := 0x202, fsm := .error })

/-- copy_exec (R73), the byte-serial primitive, overlapping copies included: each new byte is the byte `distance` before it. -/
def Obligations.CopyPrimitiveIsByteSerial : Prop :=
  ∀ (distance n : Nat) (s : State), 1 ≤ distance → CopyRuns distance n s →
    ∃ t, copyExec distance n s = .ok t ∧ CopiedFrom distance n s t ∧ HistoryLaw t

/-- COPY_R0 (R79): where the checks of R78 pass, it copies `len` bytes from `extra + len` back, and changes nothing else. -/
def Obligations.CopyR0Copies : Prop :=
  ∀ (len : Nat) (extra : BitVec 4) (s : State), CopyRuns (extra.toNat + len) len s →
    ∃ t, exec (.copyR0 len extra) s = .next t ∧ CopiedFrom (extra.toNat + len) len s t ∧ HistoryLaw t

/-- COPY_R1 (R80): as COPY_R0, from `extra + len + 16` back. -/
def Obligations.CopyR1Copies : Prop :=
  ∀ (len : Nat) (extra : BitVec 6) (s : State), CopyRuns (extra.toNat + len + 16) len s →
    ∃ t, exec (.copyR1 len extra) s = .next t ∧ CopiedFrom (extra.toNat + len + 16) len s t ∧ HistoryLaw t

/-- COPY_R2 (R81): as COPY_R0, from `extra + len + 80` back. -/
def Obligations.CopyR2Copies : Prop :=
  ∀ (len : Nat) (extra : BitVec 8) (s : State), CopyRuns (extra.toNat + len + 80) len s →
    ∃ t, exec (.copyR2 len extra) s = .next t ∧ CopiedFrom (extra.toNat + len + 80) len s t ∧ HistoryLaw t

/-- COPY_R3 (R82): as COPY_R0, from `extra + len + 336` back. -/
def Obligations.CopyR3Copies : Prop :=
  ∀ (len : Nat) (extra : BitVec 10) (s : State), CopyRuns (extra.toNat + len + 336) len s →
    ∃ t, exec (.copyR3 len extra) s = .next t ∧ CopiedFrom (extra.toNat + len + 336) len s t ∧ HistoryLaw t

/-- COPY_R4 (R83): as COPY_R0, from `extra + len + 1360` back. -/
def Obligations.CopyR4Copies : Prop :=
  ∀ (len : Nat) (extra : BitVec 12) (s : State), CopyRuns (extra.toNat + len + 1360) len s →
    ∃ t, exec (.copyR4 len extra) s = .next t ∧ CopiedFrom (extra.toNat + len + 1360) len s t ∧ HistoryLaw t

/-- COPY_R5 (R84): as COPY_R0, from `extra + len + 5456` back, a distance of MAXSIZE included. -/
def Obligations.CopyR5Copies : Prop :=
  ∀ (len : Nat) (extra : BitVec 14) (s : State), CopyRuns (extra.toNat + len + 5456) len s →
    ∃ t, exec (.copyR5 len extra) s = .next t ∧ CopiedFrom (extra.toNat + len + 5456) len s t ∧ HistoryLaw t

/-- A copy from further back than the bytes produced (R103) ends the job in DIST_UNWRITTEN, whatever its length; nothing
else changes. -/
def Obligations.UnwrittenDistanceRefused : Prop :=
  ∀ (r : Fin 6) (len extra : Nat) (s : State), extra < 2 ^ Config.copyBits r →
    s.outCount.toNat < copyDistance r len extra →
    exec (Instr.copyOf r len extra) s = .next { s with errInfo := 0x103, fsm := .error }

/-- A copy from bytes produced but no longer held (R104) ends the job in DIST_BEYOND_HISTORY; with a well-formed length only
range 5 can be such a copy. -/
def Obligations.OverwrittenDistanceRefused : Prop :=
  ∀ (r : Fin 6) (len extra : Nat) (s : State), extra < 2 ^ Config.copyBits r →
    copyDistance r len extra ≤ s.outCount.toNat → s.cfg.maxSize < copyDistance r len extra →
    exec (Instr.copyOf r len extra) s = .next { s with errInfo := 0x203, fsm := .error } ∧
    (lengthOk s.cfg len = true → r = 5)

/-- A symbol that would take OUT_COUNT past DECL_SIZE (R105) ends the job in OUTPUT_OVERRUN with no byte written: a literal, and
a copy whose distance is legal. -/
def Obligations.OverrunRefused : Prop :=
  (∀ (b : Byte) (s : State), s.declSize.toNat < s.outCount.toNat + 1 →
    exec (.lit b) s = .next { s with errInfo := 0x303, fsm := .error }) ∧
  (∀ (r : Fin 6) (len extra : Nat) (s : State), extra < 2 ^ Config.copyBits r →
    copyDistance r len extra ≤ s.outCount.toNat → copyDistance r len extra ≤ s.cfg.maxSize →
    s.declSize.toNat < s.outCount.toNat + len →
    exec (Instr.copyOf r len extra) s = .next { s with errInfo := 0x303, fsm := .error })

/-- The frame of every symbol: it enters an error, or ends the job as TERM, or writes only the output, the history and their cursors,
and no register else. OUT_MEM keeps every byte below the old OUT_COUNT and every byte at or above the new one. HIST keeps every
cell but as many as there are new bytes, from the old cursor onward, and the cursor moves by as many. -/
def Obligations.SymbolFrame : Prop :=
  ∀ (i : Instr) (s t : State), exec i s = .next t →
    ((∃ e, t = enterError e s) ∨ (i = .term ∧ t = { s with fsm := .done }) ∨ SameButOutput s t) ∧ OutputAppended s t

/-! ### The engine step and the job (43_engine_control.md, 60_exceptions.md) -/

/-- A step runs the item it fetches: while BUSY, on the engine's turn, it is exec of that item in the state with the cursor past the item
and the tree updated (R92), a listed turn taken from the model's schedule first (log 3). An error raised while fetching is entered
instead (R98, R108). -/
def Obligations.StepRunsFetchedItem : Prop :=
  ∀ (s e : State), s.fsm = .busy → EngineNext s e →
    (∀ i u, fetchInstr e = .ok i u → step s = exec i u) ∧
    (∀ cause u, fetchInstr e = .raised cause u → step s = .next { u with errInfo := cause.info, fsm := .error })

/-- A step runs the item that stands at the cursor: when the stream bits ahead decode to an item, step is exec of it in the
state with the cursor past its bits and the tree updated for its symbol, and nothing else changed (R92), a listed turn taken from the
model's schedule (log 3) apart. -/
def Obligations.StepRunsDecodedItem : Prop :=
  ∀ (s e : State) (i : Instr) (rest : List Bool) (tr : Tree), s.fsm = .busy → EngineNext s e → ReaderOk s →
    InputLoaded s → decodeItem s.cfg s.tree (bitsAhead s) = .ok (i, rest) →
    s.tree.update s.cfg (i.symbol s.cfg) = some tr →
    ∃ u, SameButFetch e u ∧ u.tree = tr ∧ bitsAhead u = rest ∧ ReaderOk u ∧ step s = exec i u

/-- Outside BUSY the engine takes no step (R28, R87). -/
def Obligations.EngineRestsOutsideBusy : Prop :=
  ∀ (s : State), s.fsm ≠ .busy →
    (s.schedule = [] → step s = .next s) ∧
    ∀ rest, s.schedule = .engine :: rest → step s = .next { s with schedule := rest }

/-- An error is precise at the grain of a symbol (R98, R108): an engine step that enters ERROR has written no output, and leaves
the code and detail in ERR_INFO. -/
def Obligations.ErrorWritesNoOutput : Prop :=
  ∀ (s e t : State), s.fsm = .busy → EngineNext s e → step s = .next t → t.fsm = .error →
    t.outCount = s.outCount ∧ t.outMem = s.outMem ∧ t.hist = s.hist ∧ t.hcur = s.hcur ∧
    t.inMem = s.inMem ∧ t.inLen = s.inLen ∧ t.declSize = s.declSize ∧ t.irqEn = s.irqEn ∧
    ∃ cause : ErrCause, t.errInfo = cause.info

/-- A job that ends in DONE has produced exactly DECL_SIZE bytes, all of them in OUT_MEM, and left ERR_INFO 0 (R94). -/
def Obligations.DoneMeansComplete : Prop :=
  ∀ (s e t : State), s.Inv → s.fsm = .busy → EngineNext s e → step s = .next t → t.fsm = .done →
    t.outCount = t.declSize ∧ t.errInfo = 0 ∧ t.outMem = s.outMem ∧
    ∀ j, j < t.declSize.toNat → ∃ v, t.outMem.read j = some v

/-- With its input loaded, a running job's engine step always answers a next state: no fault of the model can happen. -/
def Obligations.EngineNeverStops : Prop :=
  ∀ (s e : State), s.Inv → s.fsm = .busy → EngineNext s e → InputLoaded s → ∃ t, step s = .next t

/-- Every job ends (R93): with its input loaded and no reset to come, a running job leaves BUSY for DONE or ERROR after at most one
engine step more than the bits it has left, whatever host accesses come between; each of those is one more transition. -/
def Obligations.EveryJobEnds : Prop :=
  ∀ (s : State), s.Inv → s.fsm = .busy → .reset ∉ s.schedule → InputLoaded s →
    ∃ n t, n ≤ bitsLeft s + 1 + s.schedule.countP (fun turn => decide (turn ≠ .engine)) ∧ core.run n s = .next t ∧ (t.fsm = .done ∨ t.fsm = .error)

/-- The job's result does not depend on the host (R95): no host access while BUSY changes anything a job reads, and engine steps
from two states that no job can tell apart end alike. -/
def Obligations.JobIgnoresTheHost : Prop :=
  ∀ (s : State), s.fsm = .busy →
    (∀ accesses : List HostAccess, SameJob s (accesses.foldl (fun u a => hostAccess a u) s)) ∧
    ∀ u, SameJob s u →
      (∀ t, engineStep s = .next t → ∃ v, engineStep u = .next v ∧ SameJob t v) ∧
      (∀ f, engineStep s = .fault f → engineStep u = .fault f) ∧
      (∀ r, engineStep s ≠ .refused r)

/-- The transitions of fsm (R28): nothing leaves BUSY but an engine step, to DONE or ERROR, or reset; another state is left by a host
access, to BUSY or ERROR, or from DONE or ERROR to IDLE, or by reset. -/
def Obligations.FsmTransitions : Prop :=
  ∀ (s t : State), step s = .next t → t.fsm ≠ s.fsm →
    (∃ rest, s.schedule = .reset :: rest ∧ t.fsm = .idle) ∨
    (s.fsm = .busy ∧ (s.schedule = [] ∨ ∃ rest, s.schedule = .engine :: rest) ∧
      (t.fsm = .done ∨ t.fsm = .error)) ∨
    (s.fsm ≠ .busy ∧ (∃ a rest, s.schedule = .host a :: rest) ∧
      (t.fsm = .busy ∨ t.fsm = .error ∨ ((s.fsm = .done ∨ s.fsm = .error) ∧ t.fsm = .idle)))

/-- The invariant of the machine holds right after reset. It holds whatever values the log names for what the spec leaves open. -/
def Obligations.InvariantAtReset : Prop :=
  ∀ (c : Preset) (index : Nat), (State.resetOf c index).Inv

/-- Every step keeps the invariant: canonical memories, the history law (R17, R74), the files' sizes, the values of ERR_INFO
(R99), and for a running job the tree's shape (R69), the reader law (R62) and the bounds of R97. -/
def Obligations.EveryStepKeepsTheInvariant : Prop :=
  ∀ (s t : State), s.Inv → step s = .next t → t.Inv

/-! ### The host's commands and window (10_state.md, 20_memory.md, 43_engine_control.md) -/

/-- A write of CTRL (R88): IRQ_EN always, then START unless BUSY, else CLEAR in DONE or ERROR, which only sets fsm (R90); and what a read of
CTRL gives. -/
def Obligations.CtrlWrite : Prop :=
  ∀ (v : Word) (s : State),
    (v.getLsbD 0 = true → s.fsm ≠ .busy → hostWrite 0 .w32 v s = startAction { s with irqEn := v.getLsbD 2 }) ∧
    (v.getLsbD 0 = true → s.fsm = .busy → hostWrite 0 .w32 v s = { s with irqEn := v.getLsbD 2 }) ∧
    (v.getLsbD 0 = false → v.getLsbD 1 = true → s.fsm = .done ∨ s.fsm = .error →
      hostWrite 0 .w32 v s = { s with irqEn := v.getLsbD 2, fsm := .idle }) ∧
    (v.getLsbD 0 = false → v.getLsbD 1 = true → s.fsm = .idle ∨ s.fsm = .busy →
      hostWrite 0 .w32 v s = { s with irqEn := v.getLsbD 2 }) ∧
    (v.getLsbD 0 = false → v.getLsbD 1 = false → hostWrite 0 .w32 v s = { s with irqEn := v.getLsbD 2 }) ∧
    hostRead 0 .w32 s = { data := if s.irqEn then 4 else 0, busError := false }

/-- START with arguments in bounds gives every job the clean entry of R97, whatever ran before (R89, R120): the counters and cursors 0,
a fresh tree, BUSY; nothing else of the block changes. -/
def Obligations.StartGivesCleanEntry : Prop :=
  ∀ (s : State), s.tree.Sized s.cfg → s.declSize.toNat ≤ 38912 → s.inLen.toNat ≤ 43008 →
    startAction s = { s with
      errInfo := 0, outCount := 0, widx := 0, bitcount := 0, bitbuffer := 0, hcur := 0,
      tree := s.tree.init s.cfg, fsm := .busy, draw := (startAction s).draw } ∧
    JobOk (startAction s)

/-- START refuses what does not fit (R100), DECL_SIZE first: the job ends at once with no bit used and no byte produced, and irq is
high if enabled. -/
def Obligations.StartRefusesCapacity : Prop :=
  ∀ (s : State),
    (38912 < s.declSize.toNat → (startAction s).errInfo = 0x101) ∧
    (s.declSize.toNat ≤ 38912 → 43008 < s.inLen.toNat → (startAction s).errInfo = 0x201) ∧
    (38912 < s.declSize.toNat ∨ 43008 < s.inLen.toNat →
      (startAction s).fsm = .error ∧ (startAction s).outCount = 0 ∧ (startAction s).bitsUsed = 0 ∧
      (startAction s).tree = s.tree ∧ (startAction s).irq = s.irqEn)

/-- While BUSY the host changes nothing but IRQ_EN, which takes the written value (R91); the model's record of the response apart. -/
def Obligations.HostWritesWhileBusyAreLost : Prop :=
  ∀ (s : State), s.fsm = .busy →
    (∀ a, SameButIrqEn s (hostAccess a s)) ∧
    (∀ v, (hostWrite 0 .w32 v s).irqEn = v.getLsbD 2) ∧
    (∀ off w v, off ≠ 0 → hostWrite off w v s = s)

/-- A host access is at a platform address, and the block's window is the 512 KiB from BLOCK_BASE (R40). Inside it a read changes
nothing (R39) but the model's record of the response (log 4), which is what the window offset reads; a write does what a write at that
offset does, and its response is a bus error exactly where a read's is (R38). Outside it the access has no effect and no response: the
model's reading (log 12). On the host's turn a step is the access. BLOCK_BASE as a multiple of 512 KiB is the model's (log 2), and so is
the list of turns (log 3). -/
def Obligations.HostAccessesReachTheWindow : Prop :=
  ∀ (addr : Nat) (w : Width) (v : Word) (s : State),
    s.blockBase = 0x80000 * s.blockIndex ∧
    (∃ r, hostAccess (.read addr w) s = { s with resp := r }) ∧
    (s.blockBase ≤ addr → addr < s.blockBase + 0x80000 →
      hostAccess (.read addr w) s = { s with resp := some (hostRead (addr - s.blockBase) w s) } ∧
      hostAccess (.write addr w v) s = { hostWrite (addr - s.blockBase) w v s with
        resp := some { data := 0, busError := (hostRead (addr - s.blockBase) w s).busError } }) ∧
    (addr < s.blockBase ∨ s.blockBase + 0x80000 ≤ addr →
      hostAccess (.read addr w) s = { s with resp := none } ∧
      hostAccess (.write addr w v) s = { s with resp := none }) ∧
    ∀ a rest, s.schedule = .host a :: rest → step s = .next (hostAccess a { s with schedule := rest })

/-- STATUS (R22): its bits 0 to 3 are BUSY, DONE, ERR and the level of irq (R110), the others 0; a write of it is ignored, and it
is 0 after reset. -/
def Obligations.StatusBits : Prop :=
  ∀ (s : State),
    (s.status.getLsbD 0 = decide (s.fsm = .busy)) ∧ (s.status.getLsbD 1 = decide (s.fsm = .done)) ∧
    (s.status.getLsbD 2 = decide (s.fsm = .error)) ∧
    (s.status.getLsbD 3 = (s.irqEn && decide (s.fsm = .done ∨ s.fsm = .error))) ∧
    (s.status.getLsbD 3 = s.irq) ∧ (∀ i, 4 ≤ i → s.status.getLsbD i = false) ∧
    (∀ w v, hostWrite 0x04 w v s = s) ∧ State.reset.status = 0

/-- The register map (R20 to R27): what each offset reads, CTRL and STATUS as the words R88 and R22 give (CtrlWrite and StatusBits say
their bits), and that reserved offsets read 0; and that IN_LEN and DECL_SIZE take the low 16 bits written while not BUSY, and every
read-only or reserved offset ignores a write. -/
def Obligations.RegisterMap : Prop :=
  ∀ (s : State),
    hostRead 0x00 .w32 s = { data := s.ctrl, busError := false } ∧
    hostRead 0x04 .w32 s = { data := s.status, busError := false } ∧
    hostRead 0x08 .w32 s = { data := s.inLen.setWidth 32, busError := false } ∧
    hostRead 0x0C .w32 s = { data := s.declSize.setWidth 32, busError := false } ∧
    hostRead 0x10 .w32 s = { data := s.outCount.setWidth 32, busError := false } ∧
    hostRead 0x14 .w32 s = { data := s.errInfo, busError := false } ∧
    (s.widx.toNat ≤ Config.maxBuf →
      (hostRead 0x18 .w32 s).data.toNat = 16 * s.widx.toNat - s.bitcount.toNat) ∧
    (∀ off, 0x1C ≤ off → off < 0x10000 → off % 4 = 0 → hostRead off .w32 s = { data := 0, busError := false }) ∧
    (∀ v, s.fsm ≠ .busy → hostWrite 0x08 .w32 v s = { s with inLen := v.setWidth 16 }) ∧
    (∀ v, s.fsm ≠ .busy → hostWrite 0x0C .w32 v s = { s with declSize := v.setWidth 16 }) ∧
    (∀ off v, off < 0x10000 → off ≠ 0 → off ≠ 0x08 → off ≠ 0x0C → hostWrite off .w32 v s = s)

/-- Bus errors (R38): a misaligned access, or a register access that is not 32 bits, changes nothing and reads 0 with a bus error;
no other access gets one. Two things in it are the model's choice and not the spec's (log 11, DEDUCED): that a reserved offset counts as a
register, so that an access of it narrower than 32 bits gets a bus error; and that a misaligned access of an unmapped offset gets a bus
error, although R40 says that unmapped offsets are read and written without one. -/
def Obligations.BusErrors : Prop :=
  ∀ (off : Nat) (w : Width) (v : Word) (s : State),
    ((off % w.bytes ≠ 0 ∨ (off < 0x10000 ∧ w ≠ .w32)) →
      hostWrite off w v s = s ∧ hostRead off w s = { data := 0, busError := true }) ∧
    (off % w.bytes = 0 → (off < 0x10000 → w = .w32) → (hostRead off w s).busError = false)

/-- Host accesses of IN_MEM (R35, R37, R41). While not BUSY a 32-bit write fills two words, low half first, a 16-bit write one word, and
an 8-bit write changes only the byte it names; no other byte and nothing else changes. In every state, BUSY too, a read gives the current
content without a bus error: a byte, a word, or two words with the lower-numbered one low. (Of a byte never written, a read gives a free value:
log 6.) -/
def Obligations.InMemHostAccesses : Prop :=
  (∀ (s : State),
    (∀ a b, a < 2 * Config.maxBuf → s.inMem.read a = some b →
      hostRead (0x10000 + a) .w8 s = { data := b.setWidth 32, busError := false }) ∧
    (∀ w x, w < Config.maxBuf → s.inMem.readWord w = some x →
      hostRead (0x10000 + 2 * w) .w16 s = { data := x.setWidth 32, busError := false }) ∧
    (∀ j x y, 4 * j < 2 * Config.maxBuf → s.inMem.readWord (2 * j) = some x → s.inMem.readWord (2 * j + 1) = some y →
      hostRead (0x10000 + 4 * j) .w32 s = { data := y ++ x, busError := false })) ∧
  ∀ (s : State) (v : Word), s.fsm ≠ .busy →
    (∀ j, 4 * j < 2 * Config.maxBuf →
      (hostWrite (0x10000 + 4 * j) .w32 v s).inMem.readWord (2 * j) = some (v.extractLsb' 0 16) ∧
      (hostWrite (0x10000 + 4 * j) .w32 v s).inMem.readWord (2 * j + 1) = some (v.extractLsb' 16 16) ∧
      (∀ a, a < 4 * j ∨ 4 * j + 4 ≤ a →
        (hostWrite (0x10000 + 4 * j) .w32 v s).inMem.read a = s.inMem.read a)) ∧
    (∀ w, w < Config.maxBuf →
      (hostWrite (0x10000 + 2 * w) .w16 v s).inMem.readWord w = some (v.extractLsb' 0 16) ∧
      (∀ a, a < 2 * w ∨ 2 * w + 2 ≤ a →
        (hostWrite (0x10000 + 2 * w) .w16 v s).inMem.read a = s.inMem.read a)) ∧
    (∀ b, b < 2 * Config.maxBuf →
      (hostWrite (0x10000 + b) .w8 v s).inMem.read b = some (v.extractLsb' 0 8) ∧
      (∀ a, a ≠ b → (hostWrite (0x10000 + b) .w8 v s).inMem.read a = s.inMem.read a)) ∧
    (∀ off w, 0x10000 ≤ off → ∃ m, hostWrite off w v s = { s with inMem := m })

/-- Reads and writes of the other windows (R40, R41): unmapped offsets read 0 without a bus error, bytes of OUT_MEM below OUT_COUNT read as
produced, packed from the least significant, and no write outside IN_MEM has an effect. -/
def Obligations.OtherWindows : Prop :=
  ∀ (s : State),
    (∀ off w, off % w.bytes = 0 → (0x25000 ≤ off ∧ off < 0x40000) ∨ 0x4A800 ≤ off →
      hostRead off w s = { data := 0, busError := false }) ∧
    (∀ n b, n < s.outCount.toNat → n < Config.maxBuf → s.outMem.read n = some b →
      hostRead (0x40000 + n) .w8 s = { data := b.setWidth 32, busError := false }) ∧
    (∀ n b0 b1, n % 2 = 0 → n + 1 < s.outCount.toNat → n + 1 < Config.maxBuf →
      s.outMem.read n = some b0 → s.outMem.read (n + 1) = some b1 →
      hostRead (0x40000 + n) .w16 s = { data := (b1 ++ b0).setWidth 32, busError := false }) ∧
    (∀ n b0 b1 b2 b3, n % 4 = 0 → n + 3 < s.outCount.toNat → n + 3 < Config.maxBuf →
      s.outMem.read n = some b0 → s.outMem.read (n + 1) = some b1 → s.outMem.read (n + 2) = some b2 →
      s.outMem.read (n + 3) = some b3 →
      hostRead (0x40000 + n) .w32 s = { data := b3 ++ b2 ++ b1 ++ b0, busError := false }) ∧
    (∀ off w v, 0x25000 ≤ off → hostWrite off w v s = s)

/-! ### Reset (70_reset_and_hazards.md) -/

/-- The state after reset (R30): every register and cursor 0, IDLE, irq low, and no cell of a memory holding a value. -/
def Obligations.ResetValues : Prop :=
  State.reset.fsm = .idle ∧ State.reset.ctrl = 0 ∧ State.reset.status = 0 ∧ State.reset.inLen = 0 ∧
  State.reset.declSize = 0 ∧ State.reset.outCount = 0 ∧ State.reset.errInfo = 0 ∧ State.reset.bitsUsed = 0 ∧
  State.reset.widx = 0 ∧ State.reset.bitcount = 0 ∧ State.reset.bitbuffer = 0 ∧ State.reset.hcur = 0 ∧
  State.reset.irq = false ∧
  ∀ a, State.reset.inMem.read a = none ∧ State.reset.outMem.read a = none ∧ State.reset.hist.read a = none

/-- The reset input acts in any state, BUSY included (R119): every register is 0, fsm is IDLE, irq is low, the memories hold no value, and
no job runs. -/
def Obligations.ResetInputInAnyState : Prop :=
  ∀ (s : State) (rest : List Turn), s.schedule = .reset :: rest →
    ∃ t, step s = .next t ∧ t.fsm = .idle ∧ t.ctrl = 0 ∧ t.status = 0 ∧ t.inLen = 0 ∧ t.declSize = 0 ∧
      t.outCount = 0 ∧ t.errInfo = 0 ∧ t.bitsUsed = 0 ∧ t.widx = 0 ∧ t.bitcount = 0 ∧ t.bitbuffer = 0 ∧
      t.hcur = 0 ∧ t.irq = false ∧ t.cfg = s.cfg ∧ t.blockIndex = s.blockIndex ∧ t.schedule = rest ∧
      ∀ a, t.inMem.read a = none ∧ t.outMem.read a = none ∧ t.hist.read a = none
end

