-- ==== Sys2Proof/Laws/PerInstr.lean ====
section
/-! SUPPORT. Statements for all instructions, made one constructor at a time. -/

namespace Sys2Proof.Laws.SymbolMap

/-- The class of an instruction as the symbol map gives it (30_encoding.md R54). -/
def classOf : Instr → SymbolClass
  | .lit b => .lit b
  | .term => .term
  | .copyR0 len _ => .copy 0 len
  | .copyR1 len _ => .copy 1 len
  | .copyR2 len _ => .copy 2 len
  | .copyR3 len _ => .copy 3 len
  | .copyR4 len _ => .copy 4 len
  | .copyR5 len _ => .copy 5 len

/-- A well-formed instruction's symbol is in the alphabet, has the instruction's class, and its extra field has that class's number
of bits (R51, R54). -/
def Statement (i : Instr) : Prop :=
  ∀ c, WellFormed c i = true → i.symbol c ≤ c.maxChar ∧ classify c (i.symbol c) = some (classOf i) ∧
    i.extraField.length = (classOf i).extraBits

theorem copySymbol_class (c : Preset) (r : Fin 6) (len : Nat) (h : lengthOk c len = true) :
    copySymbol c r len ≤ c.maxChar ∧ classify c (copySymbol c r len) = some (.copy r len) := by
  have h : 3 ≤ len ∧ len ≤ c.maxCopy := by
    simp only [lengthOk, Bool.and_eq_true, decide_eq_true_eq] at h
    exact h
  have hr := r.isLt
  have hq : (copySymbol c r len - Config.firstCode) / c.codesPerRange = r.val := by
    simp only [copySymbol, Config.firstCode, Config.minCopy]
    rw [show 257 + r.val * c.codesPerRange + (len - 3) - 257 = (len - 3) + c.codesPerRange * r.val by
      rw [Nat.mul_comm]; omega]
    rw [Nat.add_mul_div_left _ _ (by cases c <;> decide), Nat.div_eq_of_lt, Nat.zero_add]
    simp only [Preset.codesPerRange, Config.minCopy]
    omega
  constructor
  · cases c <;> simp only [copySymbol, Preset.maxChar, Preset.codesPerRange, Preset.maxCopy, Config.firstCode,
      Config.minCopy, Config.copyRanges] at h ⊢ <;> omega
  · have h1 : ¬ copySymbol c r len < 256 := by simp only [copySymbol, Config.firstCode]; omega
    have h2 : ¬ copySymbol c r len = Config.terminate := by
      simp only [copySymbol, Config.firstCode, Config.terminate]; omega
    simp only [classify, h1, h2, if_false, hq, hr, dif_pos]
    have : copySymbol c r len - Config.firstCode + Config.minCopy - r.val * c.codesPerRange = len := by
      simp only [copySymbol, Config.firstCode, Config.minCopy]; omega
    rw [this]

theorem length_bitsOfExtra (n v : Nat) : (bitsOfExtra n v).length = n := by
  induction n generalizing v with
  | zero => rfl
  | succ n ih => simp [bitsOfExtra, ih]

theorem lit (b : Byte) : Statement (.lit b) := by
  intro c _
  have := b.isLt
  refine ⟨?_, ?_, rfl⟩
  · have : 255 ≤ c.maxChar := by cases c <;> decide
    simp only [Instr.symbol]; omega
  · simp [classify, Instr.symbol, classOf, this]

theorem term : Statement .term := by
  intro c _
  refine ⟨?_, ?_, rfl⟩ <;> cases c <;> decide

theorem copyR0 (len : Nat) (extra : BitVec 4) : Statement (.copyR0 len extra) := fun c h =>
  ⟨(copySymbol_class c 0 len h).1, (copySymbol_class c 0 len h).2, length_bitsOfExtra _ _⟩

theorem copyR1 (len : Nat) (extra : BitVec 6) : Statement (.copyR1 len extra) := fun c h =>
  ⟨(copySymbol_class c 1 len h).1, (copySymbol_class c 1 len h).2, length_bitsOfExtra _ _⟩

theorem copyR2 (len : Nat) (extra : BitVec 8) : Statement (.copyR2 len extra) := fun c h =>
  ⟨(copySymbol_class c 2 len h).1, (copySymbol_class c 2 len h).2, length_bitsOfExtra _ _⟩

theorem copyR3 (len : Nat) (extra : BitVec 10) : Statement (.copyR3 len extra) := fun c h =>
  ⟨(copySymbol_class c 3 len h).1, (copySymbol_class c 3 len h).2, length_bitsOfExtra _ _⟩

theorem copyR4 (len : Nat) (extra : BitVec 12) : Statement (.copyR4 len extra) := fun c h =>
  ⟨(copySymbol_class c 4 len h).1, (copySymbol_class c 4 len h).2, length_bitsOfExtra _ _⟩

theorem copyR5 (len : Nat) (extra : BitVec 14) : Statement (.copyR5 len extra) := fun c h =>
  ⟨(copySymbol_class c 5 len h).1, (copySymbol_class c 5 len h).2, length_bitsOfExtra _ _⟩

end Sys2Proof.Laws.SymbolMap
end

