-- ==== Sys2Proof/Tests/Slice0.lean ====
section
/-! SUPPORT. The model's own tests: well-formedness, decoding of words written out from the spec, single operations and single steps
against the vectors of 95_test_vectors.md, and for each statement with hypotheses a witness that meets them. -/

-- One theorem at a time: each `decide +kernel` waits for the kernel, and many waiting at once ask for more threads than the
-- check's memory limit has stacks for.
set_option Elab.async false

namespace Sys2Proof.Tests

open Sys2Proof.Machine

/-! ### Well-formedness: one ill-formed term for each check, refused (R53) -/

theorem test_wf_copyR0_short : WellFormed .a2m (.copyR0 2 0) = false := by decide
theorem test_wf_copyR0_long : WellFormed .a2m (.copyR0 256 0) = false := by decide
theorem test_wf_copyR1_short : WellFormed .a2m (.copyR1 2 0) = false := by decide
theorem test_wf_copyR1_long : WellFormed .doc64 (.copyR1 67 0) = false := by decide
theorem test_wf_copyR2_short : WellFormed .a2m (.copyR2 2 0) = false := by decide
theorem test_wf_copyR2_long : WellFormed .a2m (.copyR2 256 0) = false := by decide
theorem test_wf_copyR3_short : WellFormed .a2m (.copyR3 0 0) = false := by decide
theorem test_wf_copyR3_long : WellFormed .doc64 (.copyR3 67 0) = false := by decide
theorem test_wf_copyR4_short : WellFormed .a2m (.copyR4 2 0) = false := by decide
theorem test_wf_copyR4_long : WellFormed .a2m (.copyR4 256 0) = false := by decide
theorem test_wf_copyR5_short : WellFormed .a2m (.copyR5 2 0) = false := by decide
theorem test_wf_copyR5_long : WellFormed .a2m (.copyR5 256 0) = false := by decide
theorem test_wf_bounds : WellFormed .a2m (.copyR5 255 0) = true ∧ WellFormed .doc64 (.copyR0 66 0) = true ∧
    WellFormed .a2m (.copyR0 3 0) = true ∧ WellFormed .a2m (.lit 0) = true ∧ WellFormed .a2m .term = true := by decide

/-! ### Decoding: the bits of one item of each class after START, by R50 the binary digits of symbol + 1775 without the
leading 1, then the extra field with its first bit of weight 1 (R51) -/

/-- Bits written as a list of 0 and 1. -/
def bits (l : List Nat) : List Bool := l.map (· == 1)

/-- What the decoder reads from bits at the start of a job. -/
def readsAs (c : Preset) (l : List Nat) : Option Instr :=
  match decodeItem c (startTree c) (bits l) with
  | .ok (i, _) => some i
  | .error _ => none

/-- V-TREE-1, V-TREE-7: 0x41 is leaf 1840 = 11100110000b. -/
theorem test_decode_lit : readsAs .a2m [1,1,0,0,1,1,0,0,0,0] = some (.lit 0x41) := by decide +kernel
/-- V-TREE-1: TERMINATE is leaf 2031 = 11111101111b. -/
theorem test_decode_term : readsAs .a2m [1,1,1,1,1,0,1,1,1,1] = some .term := by decide +kernel
/-- Symbol 257 is leaf 2032 = 11111110000b; the extra bits 1,0,1,0 are 5 (V-BR-5). -/
theorem test_decode_copyR0 : readsAs .a2m [1,1,1,1,1,1,0,0,0,0, 1,0,1,0] = some (.copyR0 3 5) := by decide +kernel
/-- Symbol 510 is leaf 2285 = 100011101101b; extra 1,1,0,0,0,1 is 35. -/
theorem test_decode_copyR1 :
    readsAs .a2m [0,0,0,1,1,1,0,1,1,0,1, 1,1,0,0,0,1] = some (.copyR1 3 35) := by decide +kernel
/-- Symbol 763 is leaf 2538 = 100111101010b; extra 1,0,0,0,1,0,0,0 is 17 (V-COPY-6). -/
theorem test_decode_copyR2 :
    readsAs .a2m [0,0,1,1,1,1,0,1,0,1,0, 1,0,0,0,1,0,0,0] = some (.copyR2 3 17) := by decide +kernel
/-- Symbol 1016 is leaf 2791 = 101011100111b; extra 1,0,1,1,1,1,0,0,0,0 is 61 (V-BR-2). -/
theorem test_decode_copyR3 :
    readsAs .a2m [0,1,0,1,1,1,0,0,1,1,1, 1,0,1,1,1,1,0,0,0,0] = some (.copyR3 3 61) := by decide +kernel
/-- Symbol 1269 is leaf 3044 = 101111100100b; extra 1,0,1,0,0,1,0,0,0,0,0,0 is 37 (V-COPY-6). -/
theorem test_decode_copyR4 :
    readsAs .a2m [0,1,1,1,1,1,0,0,1,0,0, 1,0,1,0,0,1,0,0,0,0,0,0] = some (.copyR4 3 37) := by decide +kernel
/-- Symbol 1522 is leaf 3297 = 110011100001b; extra 1,0,0,1,1,1,0,0,1,1,1,1,1,1 is 16185 (P5). -/
theorem test_decode_copyR5 :
    readsAs .a2m [1,0,0,1,1,1,0,0,0,0,1, 1,0,0,1,1,1,0,0,1,1,1,1,1,1] = some (.copyR5 3 16185) := by decide +kernel
/-- Bits that end inside a code are no item. -/
theorem test_decode_short : readsAs .a2m [1,1,0,0] = none := by decide +kernel
/-- V-TREE-1, DOC64: TERMINATE is leaf 897 = 1110000001b, and symbol 640 is leaf 1281. -/
theorem test_decode_doc64 : readsAs .doc64 [1,1,0,0,0,0,0,0,1] = some .term ∧
    readsAs .doc64 [0,1,0,0,0,0,0,0,0,1, 0,0,0,0,0,0,0,0,0,0,0,0,0,1] = some (.copyR5 66 8192) := by decide +kernel
/-- The program P1 of L3 and its words. -/
theorem test_assemble_P1 : assemble .a2m [.lit 0x41, .lit 0x42, .lit 0x41, .lit 0x42, .lit 0x41, .lit 0x42, .lit 0x41, .lit 0x42,
    .term] = some [0xCC2B, 0x5C0A, 0xF5BC] := by decide +kernel
/-- The program P2 of L3, in DOC64, and its words: its copies are `COPY 3,3` and `COPY 6,6`. -/
theorem test_assemble_P2D : (do
    let a ← copyPseudo .doc64 3 3
    let b ← copyPseudo .doc64 6 6
    assemble .doc64 [.lit 0x41, .lit 0x42, .lit 0x43, a, b, .term]) = some [0x615C, 0xE182, 0x05D0, 0x5D00] := by decide +kernel
/-- `COPY 3,21644` is `COPYX 5,3,16185`, and `COPY` has no encoding for a distance below its length (R57, P5). -/
theorem test_copyPseudo : copyPseudo .a2m 3 21644 = some (.copyR5 3 16185) ∧ copyPseudo .a2m 5 4 = none ∧
    copyPseudo .a2m 3 21843 = none := by decide +kernel

/-! ### Single operations -/

/-- A running job of the normative preset over these words, by START from reset. -/
def job (words : List Half) (decl : BitVec 16) : State :=
  startAction { State.reset with
    inMem := placeWords words 0 [], inLen := BitVec.ofNat 16 words.length, declSize := decl }

/-- What a part of an engine step reads from the state it leaves. -/
def seen {α β : Type} (f : α → State → β) : Flow α → Option β
  | .ok a s => some (f a s)
  | _ => none

/-- What an outcome's next state shows. -/
def next {β : Type} (f : State → β) : Host.Outcome State Fault Refusal → Option β
  | .next s => some (f s)
  | _ => none

/-- V-BR-1: after ten bits of 0xCC2B. -/
theorem test_readBits_ten : seen (fun v s => (v, s.widx, s.bitcount, s.bitbuffer, s.bitsUsed)) (readBits 10 (job [0xCC2B] 8)) =
    some (0b0000110011, 1, 6, 0xAC00, 10) := by decide +kernel
/-- V-BR-1: the 17th bit loads word 1. -/
theorem test_readBits_loads : seen (fun _ s => (s.widx, s.bitcount)) (readBits 17 (job [0xCC2B, 0x5C0A] 8)) =
    some (2, 15) := by decide +kernel
/-- V-BR-5: fourteen 1 bits are 16383, and a lone last bit weighs 8192. -/
theorem test_readBits_weights : seen (fun v _ => v) (readBits 14 (job [0xFFFF] 0)) = some 16383 ∧
    seen (fun v _ => v) (readBits 14 (job [0x0004] 0)) = some 8192 := by decide +kernel
/-- V-TREE-2: the first update of 'A' leaves its leaf at depth 5 with code 01011, freq 2, and root 12; 'B' has code 101011. -/
theorem test_update_A : (((startTree .a2m).update .a2m 0x41).map fun t =>
    (codeOf .a2m t 0x41, codeOf .a2m t 0x42, t.freqOf .a2m 1840, t.freqOf .a2m 1)) =
    some (some (bits [0,1,0,1,1]), some (bits [1,0,1,0,1,1]), some 2, some 12) := by decide +kernel
/-- V-TREE-4: updates of 'Z'; from the seventh on only its leaf's frequency changes. -/
theorem test_update_Z : ((do
    let t ← (startTree .a2m).update .a2m 90
    let t ← t.update .a2m 90
    let t ← t.update .a2m 90
    let t ← t.update .a2m 90
    let t ← t.update .a2m 90
    let t ← t.update .a2m 90
    let u ← t.update .a2m 90
    some (codeOf .a2m t 90, t.freqOf .a2m 1, u.dadOf .a2m 1865, u.freqOf .a2m 1865, u.freqOf .a2m 1))) =
    some (some (bits [1]), some 17, some 1, some 8, some 17) := by decide +kernel
/-- R67: halving rounds down, and 1 becomes 0. -/
theorem test_rescale : (({ startTree .a2m with freq := (startTree .a2m).freq.set 5 995 }).rescale .a2m).freqOf .a2m 5 = some 497 ∧
    ((startTree .a2m).rescale .a2m).freqOf .a2m 1840 = some 0 := by decide +kernel

/-- A job with these bytes produced, and nothing else of it. -/
def produced (bytes : List Byte) (decl : BitVec 16) : State :=
  { job [] decl with
    outCount := BitVec.ofNat 16 bytes.length
    hcur := BitVec.ofNat 15 bytes.length
    outMem := bytes.zipIdx.map fun (v, a) => (a, v)
    hist := bytes.zipIdx.map fun (v, a) => (a, v) }

/-- L1-5: the primitive gives AAAAA from history A. -/
theorem test_copyExec_overlap : ((copyExec 1 5 (produced [0x41] 8)).toOption.map fun s => (s.outCount, s.hcur, s.outMem)) =
    some (6, 6, [(0, 0x41), (1, 0x41), (2, 0x41), (3, 0x41), (4, 0x41), (5, 0x41)]) := by decide +kernel

/-! ### Instructions and steps -/

/-- V-LIT-1: P1, step 1. -/
theorem test_step_lit : next (fun s => (s.outMem, s.hist, s.outCount, s.hcur, s.bitsUsed)) (step (job [0xCC2B, 0x5C0A, 0xF5BC] 8)) =
    some ([(0, 0x41)], [(0, 0x41)], 1, 1, 10) := by decide +kernel
/-- V-LIT-4: a literal with DECL_SIZE 0. -/
theorem test_step_lit_overrun : next (fun s => (s.fsm, s.errInfo, s.outCount, s.bitsUsed)) (step (job [0xCC2B, 0x5C0A, 0xF5BC] 0)) =
    some (.error, 0x303, 0, 10) := by decide +kernel
/-- P0: the empty stream. -/
theorem test_step_term : next (fun s => (s.fsm, s.errInfo, s.outCount, s.bitsUsed, s.tree.freqOf .a2m 1)) (step (job [0xFBC0] 0)) =
    some (.done, 0, 0, 10, some 12) := by decide +kernel
/-- V-ERR-12: the same with DECL_SIZE 1. -/
theorem test_step_term_early : next (fun s => (s.fsm, s.errInfo, s.bitsUsed)) (step (job [0xFBC0] 1)) =
    some (.error, 0x202, 10) := by decide +kernel
/-- V-BR-4: an empty input. -/
theorem test_step_exhausted : next (fun s => (s.fsm, s.errInfo, s.bitsUsed)) (step (job [] 0)) =
    some (.error, 0x102, 0) := by decide +kernel
/-- V-COPY-2: `COPY 3,3` at out_count 3. -/
theorem test_copyR0 : next (fun s => (s.outCount, s.outMem.drop 3)) (exec (.copyR0 3 0) (produced [0x41, 0x42, 0x43] 12)) =
    some (6, [(3, 0x41), (4, 0x42), (5, 0x43)]) := by decide +kernel
/-- V-COPY-5 with DECL_SIZE 1: the distance check comes before the overrun check. -/
theorem test_copyR0_unwritten : next (fun s => (s.fsm, s.errInfo, s.outCount)) (exec (.copyR0 3 0) (produced [0x41] 1)) =
    some (.error, 0x103, 1) := by decide +kernel

/-- The bytes 0, 1, 2, … of the prefix of P6. -/
def counting (n : Nat) : List Byte := (List.range n).map (BitVec.ofNat 8)

/-- R80's example: at 20 bytes, length 3 and distance 19 append out[1], out[2], out[3]. -/
theorem test_copyR1 : next (fun s => s.outMem.drop 20) (exec (.copyR1 3 0) (produced (counting 20) 30)) =
    some [(20, 1), (21, 2), (22, 3)] := by decide +kernel
/-- R81's example: at 100 bytes, length 3 and extra 17 append out[0], out[1], out[2]. -/
theorem test_copyR2 : next (fun s => s.outMem.drop 100) (exec (.copyR2 3 17) (produced (counting 100) 200)) =
    some [(100, 0), (101, 1), (102, 2)] := by decide +kernel
/-- R82: at 400 bytes, length 3 and extra 61 are distance 400. -/
theorem test_copyR3 : next (fun s => s.outMem.drop 400) (exec (.copyR3 3 61) (produced (counting 400) 500)) =
    some [(400, 0), (401, 1), (402, 2)] := by decide +kernel
/-- R83's example: length 3 and extra 0 need 1363 bytes; at 1362 the copy is refused. -/
theorem test_copyR4_unwritten : next (fun s => s.errInfo)
    (exec (.copyR4 3 0) { job [] 2000 with outCount := 1362, hcur := 1362 }) = some 0x103 := by decide +kernel
/-- R83's example at 1363 bytes: out[0], out[1], out[2]. -/
theorem test_copyR4 : next (fun s => s.outMem.map (·.2)) (exec (.copyR4 3 0)
    { job [] 2000 with outCount := 1363, hcur := 1363, hist := [(0, 7), (1, 8), (2, 9)] }) = some [7, 8, 9] := by decide +kernel
/-- V-COPY-7e: distance MAXSIZE at out_count 21676 reads from cell 32. -/
theorem test_copyR5 : next (fun s => s.outMem) (exec (.copyR5 3 16185)
    { job [] 21679 with outCount := 21676, hcur := 32, hist := [(32, 0x20), (33, 0x21), (34, 0x22)] }) =
    some [(21676, 0x20), (21677, 0x21), (21678, 0x22)] := by decide +kernel
/-- V-COPY-7b and V-COPY-7a: a distance above MAXSIZE, and one above out_count too. -/
theorem test_copyR5_far : next (fun s => s.errInfo) (exec (.copyR5 3 16186) { job [] 21679 with outCount := 21676, hcur := 32 }) =
      some 0x203 ∧
    next (fun s => s.errInfo) (exec (.copyR5 3 16383) { job [] 21679 with outCount := 21676, hcur := 32 }) = some 0x103 := by
  decide +kernel

/-! ### The host -/

/-- A running or ended job with P0 loaded, as V-HOST-3 needs it. -/
def ended (irq : Bool) : State := { State.reset with irqEn := irq, fsm := .done }

/-- V-HOST-3: STATUS and CTRL in DONE with and without IRQ_EN, and after CLEAR with IRQ_EN. -/
theorem test_host_irq : (hostRead 4 .w32 (ended true)).data = 0xA ∧ (hostRead 0 .w32 (ended true)).data = 4 ∧
    (hostRead 4 .w32 (hostWrite 0 .w32 0 (ended true))).data = 2 ∧
    (hostRead 4 .w32 (hostWrite 0 .w32 6 (ended true))).data = 0 ∧
    (hostRead 0 .w32 (hostWrite 0 .w32 6 (ended true))).data = 4 := by decide +kernel
/-- V-HOST-6: a capacity refusal raises irq at once. -/
theorem test_host_capacity : (hostRead 4 .w32 (hostWrite 0 .w32 5 { State.reset with declSize := 38913 })).data = 0xC ∧
    (hostRead 0x14 .w32 (hostWrite 0 .w32 5 { State.reset with declSize := 38913, inLen := 43009 })).data = 0x101 ∧
    (hostRead 0x14 .w32 (hostWrite 0 .w32 1 { State.reset with declSize := 8, inLen := 43009 })).data = 0x201 := by decide +kernel
/-- V-HOST-7: reserved bits. -/
theorem test_host_reserved : (hostRead 8 .w32 (hostWrite 8 .w32 0x00010005 State.reset)).data = 5 ∧
    (hostRead 12 .w32 (hostWrite 12 .w32 0xFFFFFFFF State.reset)).data = 0xFFFF ∧
    (hostRead 0 .w32 (hostWrite 0 .w32 0xFFFFFFF8 (ended true))).data = 0 := by decide +kernel
/-- V-HOST-8 and V-HOST-9: bus errors, and unmapped offsets without one. -/
theorem test_host_bus : hostRead 2 .w32 State.reset = ⟨0, true⟩ ∧ hostRead 4 .w16 State.reset = ⟨0, true⟩ ∧
    hostWrite 0 .w8 1 State.reset = State.reset ∧ hostWrite (inBase + 1) .w16 1 State.reset = State.reset ∧
    hostRead (outBase + 2) .w32 State.reset = ⟨0, true⟩ ∧ hostRead 0x25000 .w32 State.reset = ⟨0, false⟩ ∧
    hostRead 0x4A800 .w32 State.reset = ⟨0, false⟩ := by decide +kernel
/-- V-MEM-1: a 32-bit write of 0x5C0ACC2B, read back, and an 8-bit write of its second byte. -/
theorem test_host_inMem : (hostWrite inBase .w32 0x5C0ACC2B State.reset).inMem = [(0, 0x2B), (1, 0xCC), (2, 0x0A), (3, 0x5C)] ∧
    (hostRead (inBase + 2) .w16 (hostWrite inBase .w32 0x5C0ACC2B State.reset)).data = 0x5C0A ∧
    ((hostWrite (inBase + 1) .w8 0xFF (hostWrite inBase .w32 0x5C0ACC2B State.reset)).inMem.readWord 0) = some 0xFF2B := by
  decide +kernel
/-- V-MEM-3: a 32-bit and a 16-bit read of OUT_MEM. -/
theorem test_host_outMem :
    (hostRead outBase .w32 (produced [0x41, 0x42, 0x41, 0x42] 8)).data = 0x42414241 ∧
    (hostRead (outBase + 2) .w16 (produced [0x41, 0x42, 0x41, 0x42] 8)).data = 0x4241 := by decide +kernel
/-- A host access is at a platform address: the block's base and its neighbours' (R40). -/
theorem test_host_base :
    (hostAccess (.write (0x80000 + 8) .w32 5) { State.reset with blockIndex := 1 }).inLen = 5 ∧
    (hostAccess (.write 8 .w32 5) { State.reset with blockIndex := 1 }).inLen = 0 := by decide +kernel

/-! ### Placing an item and stepping -/

theorem test_withFetchWord_lit : next (fun s => (s.errInfo, s.bitsUsed)) (step (State.reset.withFetchWord 16 0x41)) =
    some (0x303, 10) := by decide +kernel
theorem test_withFetchWord_term : next (fun s => (s.fsm, s.bitsUsed)) (step (State.reset.withFetchWord 16 0x100)) =
    some (.done, 10) := by decide +kernel
theorem test_withFetchWord_copyR5 : next (fun s => (s.errInfo, s.bitsUsed)) (step (State.reset.withFetchWord 16 0x5F2)) =
    some (0x103, 25) := by decide +kernel

/-! ### Witnesses: for each statement with hypotheses, a concrete case that meets them all -/

theorem sized_start (c : Preset) : (startTree c).Sized c := Tree.init_sized (Tree.reset_sized c)

theorem shape_start (c : Preset) : (startTree c).Shape c := Tree.shape_init (Tree.reset_sized c)

/-- EncodedItemDecodes. -/
theorem test_witness_EncodedItemDecodes : (startTree .a2m).Shape .a2m ∧
    encodeItem .a2m (startTree .a2m) (.copyR0 3 5) = some (bits [1,1,1,1,1,1,0,0,0,0, 1,0,1,0]) :=
  ⟨shape_start _, by decide +kernel⟩
/-- DecodedItemEncodes. -/
theorem test_witness_DecodedItemEncodes : (startTree .doc64).Shape .doc64 ∧
    decodeItem .doc64 (startTree .doc64) (bits [1,1,0,0,0,0,0,0,1,1]) = .ok (.term, [true]) :=
  ⟨shape_start _, by decide +kernel⟩
/-- EveryItemHasACode: the longest copy of the last range. -/
theorem test_witness_EveryItemHasACode : (startTree .a2m).Shape .a2m ∧ WellFormed .a2m (.copyR5 255 16383) = true :=
  ⟨shape_start _, by decide⟩
/-- LongEnoughBitsHoldASymbol. -/
theorem test_witness_LongEnoughBitsHoldASymbol : (startTree .a2m).Shape .a2m ∧
    Preset.a2m.maxChar ≤ (List.replicate 1774 true).length := ⟨shape_start _, by rw [List.length_replicate]; decide⟩
/-- InitialCodesAreBinary, at the first and the last symbol. -/
theorem test_witness_InitialCodesAreBinary : (Tree.reset .a2m).Sized .a2m ∧ 0 ≤ Preset.a2m.maxChar ∧ 1774 ≤ Preset.a2m.maxChar ∧
    codeOf .a2m ((Tree.reset .a2m).init .a2m) 1774 = some (bits [1,0,1,1,1,0,1,1,1,0,1]) :=
  ⟨Tree.reset_sized _, by decide, by decide, by decide +kernel⟩
/-- CopyOperandRanges, at the first and the last copy symbol. -/
theorem test_witness_CopyOperandRanges : classify .a2m 257 = some (.copy 0 3) ∧ 0 < 2 ^ Config.copyBits 0 ∧
    classify .a2m 1774 = some (.copy 5 255) ∧ 16383 < 2 ^ Config.copyBits 5 := by decide
/-- PseudoCopyIsUnique, at the ends of its distances. -/
theorem test_witness_PseudoCopyIsUnique : lengthOk .a2m 3 = true ∧ copyPseudo .a2m 3 3 = some (.copyR0 3 0) ∧
    copyPseudo .a2m 3 21842 = some (.copyR5 3 16383) := by decide +kernel

/-- P1's job after ten bits, as V-BR-1 gives it. -/
def afterTen : State := { job [0xCC2B, 0x5C0A, 0xF5BC] 8 with widx := 1, bitcount := 6, bitbuffer := 0xAC00 }

theorem readerOk_afterTen : ReaderOk afterTen where
  law := ⟨0xCC2B, by decide +kernel, by decide⟩
  loaded := by decide
  input := by decide

theorem job_eq (words : List Half) (decl : BitVec 16) (h : words.length ≤ Config.maxBuf)
    (hd : decl.toNat ≤ Config.declMax) : job words decl = enterBusy (clearJob { State.reset with
      inMem := placeWords words 0 [], inLen := BitVec.ofNat 16 words.length, declSize := decl }) := by
  have hm : Config.maxBuf = 43008 := rfl
  have hx : Config.declMax = 38912 := rfl
  have hc : Config.capMargin = 4096 := rfl
  unfold job startAction capacityRefusal
  rw [if_neg, if_neg]
  · simp only [BitVec.toNat_ofNat]; omega
  · simp only; omega

theorem readerOk_job (words : List Half) (decl : BitVec 16) (h : words.length ≤ Config.maxBuf)
    (hd : decl.toNat ≤ Config.declMax) : ReaderOk (job words decl) := by
  rw [job_eq words decl h hd]
  have hm : Config.maxBuf = 43008 := rfl
  refine ⟨⟨rfl, rfl⟩, Nat.zero_le _, ?_⟩
  simp only [enterBusy_inLen, clearJob_inLen, BitVec.toNat_ofNat]
  omega

/-- ReadBitDeliversStreamBit, inside a word and where the next word is loaded. -/
theorem test_witness_ReadBitDeliversStreamBit :
    (ReaderOk afterTen ∧ afterTen.bitpos < 16 * afterTen.inLen.toNat ∧ streamBit afterTen afterTen.bitpos = some true) ∧
    (ReaderOk (job [0xFBC0] 0) ∧ (job [0xFBC0] 0).bitpos < 16 * (job [0xFBC0] 0).inLen.toNat ∧
      streamBit (job [0xFBC0] 0) (job [0xFBC0] 0).bitpos = some true) :=
  ⟨⟨readerOk_afterTen, by decide +kernel, by decide +kernel⟩,
    readerOk_job _ _ (by decide) (by decide), by decide +kernel, by decide +kernel⟩
/-- ReadBitsWeighsFirstBitLeast, across a word boundary. -/
theorem test_witness_ReadBitsWeighsFirstBitLeast : ReaderOk afterTen ∧ ∃ v t, readBits 14 afterTen = .ok v t := by
  refine ⟨readerOk_afterTen, ?_⟩
  have h : seen (fun v _ => v) (readBits 14 afterTen) = some 0b00111010110101 := by decide +kernel
  cases hr : readBits 14 afterTen with
  | ok v t => exact ⟨v, t, rfl⟩
  | raised e s => rw [hr] at h; cases h
  | stop f => rw [hr] at h; cases h

/-! Every premise `EngineNext` is met with no turn listed, and with the engine's listed first. -/

theorem engineNext_nil {s : State} (h : s.schedule = []) : EngineNext s s := .inl ⟨h, rfl⟩

theorem engineNext_cons (s : State) (rest : List Turn) :
    EngineNext { s with schedule := .engine :: rest } { s with schedule := rest } := .inr ⟨rest, rfl, rfl⟩

/-- The error a fetch raises. -/
def raisedBy : Flow Instr → Option ErrCause
  | .raised e _ => some e
  | _ => none

/-- ExhaustedInputEndsTheJob: one word that ends inside an extra field, and no word at all. -/
theorem test_witness_ExhaustedInputEndsTheJob :
    ((job [0x1DA0] 8).fsm = .busy ∧ EngineNext (job [0x1DA0] 8) (job [0x1DA0] 8) ∧ ReaderOk (job [0x1DA0] 8) ∧
      raisedBy (fetchInstr (job [0x1DA0] 8)) = some .inputExhausted) ∧
    ((job [] 0).fsm = .busy ∧
      EngineNext { job [] 0 with schedule := [.engine, .reset] } { job [] 0 with schedule := [.reset] } ∧
      (job [] 0).bitcount = 0 ∧ (job [] 0).inLen ≤ (job [] 0).widx) :=
  ⟨⟨by decide +kernel, engineNext_nil (by decide +kernel), readerOk_job _ _ (by decide) (by decide), by decide +kernel⟩,
    by decide +kernel, engineNext_cons _ _, by decide +kernel, by decide +kernel⟩
/-- FetchIsDecode, FetchedItemIsWellFormed and StepRunsFetchedItem: P1's first item. -/
theorem test_witness_FetchIsDecode : ReaderOk (job [0xCC2B, 0x5C0A, 0xF5BC] 8) ∧
    seen (fun i _ => i) (fetchInstr (job [0xCC2B, 0x5C0A, 0xF5BC] 8)) = some (.lit 0x41) :=
  ⟨readerOk_job _ _ (by decide) (by decide), by decide +kernel⟩

/-- InitTreeEntries and SumPropertyFails. -/
theorem test_witness_InitTreeEntries : (Tree.reset .a2m).Sized .a2m ∧ (Tree.reset .doc64).Sized .doc64 ∧
    2 ≤ Preset.a2m.twiceMax ∧ 1 ≤ Preset.a2m.maxChar :=
  ⟨Tree.reset_sized _, Tree.reset_sized _, by decide, by decide⟩
/-- RescaleHalvesEveryFrequency. -/
theorem test_witness_RescaleHalvesEveryFrequency : (startTree .a2m).Sized .a2m ∧ (startTree .a2m).freqOf .a2m 3549 = some 1 :=
  ⟨sized_start _, by decide +kernel⟩
/-- PropagationLeavesSumsOnThePath: V-TREE-2's first propagation. -/
theorem test_witness_PropagationLeavesSumsOnThePath : (startTree .a2m).Shape .a2m ∧
    (startTree .a2m).sibling .a2m 1840 = some 1841 ∧
    (Tree.sumUp .a2m 10 (startTree .a2m) 1840 1841).isSome = true ∧
    (startTree .a2m).ancestor .a2m 10 1840 = some 1 :=
  ⟨shape_start _, by decide +kernel, by decide +kernel, by decide +kernel⟩
/-- RescaleOnlyAtMaxFreq: at 2000 and past it, and a climb that leaves the root at 11. -/
theorem test_witness_RescaleOnlyAtMaxFreq :
    ((Tree.sumUp .a2m Preset.a2m.maxChar (startTree .a2m) 1840 1841).bind (·.freqOf .a2m Config.root)) = some 11 ∧
    ({ startTree .a2m with freq := (startTree .a2m).freq.set 1 2000 } : Tree).freqOf .a2m 1 = some 2000 ∧
    ({ startTree .a2m with freq := (startTree .a2m).freq.set 1 2001 } : Tree).freqOf .a2m 1 = some 2001 := by decide +kernel
/-- OnlyAGreaterNodeSwaps: leaf 1840 ties with its uncle 921 after START, and with frequency 2 it is greater. -/
theorem test_witness_OnlyAGreaterNodeSwaps :
    (startTree .a2m).dadOf .a2m 920 = some 460 ∧ (startTree .a2m).otherChild .a2m 460 920 = some 921 ∧
    ((startTree .a2m).freqOf .a2m 1840 = some 1 ∧ (startTree .a2m).freqOf .a2m 921 = some 1 ∧ (1 : Half) ≤ 1) ∧
    (({ startTree .a2m with freq := (startTree .a2m).freq.set 1840 2 } : Tree).freqOf .a2m 1840 = some 2 ∧ (1 : Half) < 2 ∧
      ((({ startTree .a2m with freq := (startTree .a2m).freq.set 1840 2 } : Tree).exchange .a2m 1840 921 920 460).bind fun (u, x) =>
        (u.propagate .a2m 921 x).map fun _ => x) = some 1841) := by decide +kernel
/-- UpdateCountsThenPromotes: leaf 1840 after START, at depth 10. -/
theorem test_witness_UpdateCountsThenPromotes : (startTree .a2m).Sized .a2m ∧
    (startTree .a2m).dadOf .a2m (65 + Preset.a2m.succMax) = some 920 ∧ 920 ≠ Config.root ∧
    ((startTree .a2m).update .a2m 65).isSome = true :=
  ⟨sized_start _, by decide +kernel, by decide, by decide +kernel⟩
/-- ExchangeSwapsNodeAndUncle: leaf 1840 and its uncle 921 after START. -/
theorem test_witness_ExchangeSwapsNodeAndUncle : (startTree .a2m).Shape .a2m ∧ (startTree .a2m).dadOf .a2m 1840 = some 920 ∧
    (startTree .a2m).dadOf .a2m 920 = some 460 ∧ (startTree .a2m).otherChild .a2m 460 920 = some 921 ∧
    (startTree .a2m).sibling .a2m 1840 = some 1841 ∧ (startTree .a2m).freqOf .a2m 1840 = some 1 ∧
    (startTree .a2m).freqOf .a2m 921 = some 1 :=
  ⟨shape_start _, by decide +kernel⟩
/-- LeafUnderRootOnlyCounts: a tree whose leaf 1775 is under the root. -/
theorem test_witness_LeafUnderRootOnlyCounts :
    ({ startTree .a2m with dad := (startTree .a2m).dad.set 1775 1 } : Tree).Sized .a2m ∧
    ({ startTree .a2m with dad := (startTree .a2m).dad.set 1775 1 } : Tree).dadOf .a2m (0 + Preset.a2m.succMax) = some 1 :=
  ⟨by simpa [Tree.Sized] using sized_start .a2m, by decide +kernel⟩
/-- UpdateKeepsShape and UpdateIsDefined, at the first and the last symbol. -/
theorem test_witness_UpdateKeepsShape : (startTree .a2m).Shape .a2m ∧ ((startTree .a2m).update .a2m 0).isSome = true ∧
    ((startTree .a2m).update .a2m 1774).isSome = true ∧ 1774 ≤ Preset.a2m.maxChar :=
  ⟨shape_start _, by decide +kernel, by decide +kernel, by decide⟩

/-! A state with `n` bytes produced, for any `n` a history holds. -/

/-- `n` cells from address `a`, all holding `v`. -/
def filled (v : Byte) : Nat → Nat → Memory
  | 0, _ => []
  | n + 1, a => (a, v) :: filled v n (a + 1)

theorem read_filled (v : Byte) (n a b : Nat) : (filled v n a).read b = if a ≤ b ∧ b < a + n then some v else none := by
  induction n generalizing a with
  | zero => simp [filled, Memory.read]
  | succ n ih =>
    simp only [filled, Memory.read, ih]
    by_cases h : b = a
    · rw [if_pos h, if_pos (by omega)]
    · rw [if_neg h]
      exact if_congr (by omega) rfl rfl

/-- A state of the normative preset with `n` bytes produced. -/
def withOutput (n : Nat) (decl : BitVec 16) : State :=
  { State.reset with
    fsm := .busy, declSize := decl, outCount := BitVec.ofNat 16 n, hcur := BitVec.ofNat 15 n,
    outMem := filled 0x41 n 0, hist := filled 0x41 n 0 }

theorem maxSize_withOutput (n : Nat) (decl : BitVec 16) : (withOutput n decl).cfg.maxSize = 21644 :=
  (by decide : Preset.a2m.maxSize = 21644)

theorem outCount_withOutput (n : Nat) (decl : BitVec 16) (hn : n < 21644) : (withOutput n decl).outCount.toNat = n := by
  have : (withOutput n decl).outCount.toNat = n % 2 ^ 16 := BitVec.toNat_ofNat n 16
  omega

theorem historyLaw_withOutput (n : Nat) (decl : BitVec 16) (hn : n < 21644) : HistoryLaw (withOutput n decl) := by
  have ho := outCount_withOutput n decl hn
  refine ⟨?_, fun j hj => ⟨0x41, ?_⟩, fun j hj _ => ?_⟩
  · rw [maxSize_withOutput, ho, Nat.mod_eq_of_lt hn]
    have : (withOutput n decl).hcur.toNat = n % 2 ^ 15 := BitVec.toNat_ofNat n 15
    omega
  · rw [ho] at hj
    exact (read_filled 0x41 n 0 j).trans (if_pos ⟨by omega, by omega⟩)
  · rw [ho] at hj
    rw [maxSize_withOutput, Nat.mod_eq_of_lt (by omega)]
    rfl

/-- CopyRuns of the six copy statements: as many bytes as the distance. -/
theorem copyRuns_withOutput (n len : Nat) (hn : n < 21644) (hl : n + len ≤ 38912) :
    CopyRuns n len (withOutput n 38912) where
  history := historyLaw_withOutput n _ hn
  declared := Nat.le_refl 38912
  written := by rw [outCount_withOutput n _ hn]
  held := by rw [maxSize_withOutput]; omega
  room := by rw [outCount_withOutput n _ hn]; exact hl

/-- LitAppendsByte: exactly one byte of room. -/
theorem test_witness_LitAppendsByte : (withOutput 7 8).outCount.toNat + 1 ≤ (withOutput 7 8).declSize.toNat ∧
    (withOutput 7 8).declSize.toNat ≤ Config.declMax ∧ (withOutput 7 8).hcur.toNat < (withOutput 7 8).cfg.maxSize := by decide
/-- TermEndsTheJob: both clauses. -/
theorem test_witness_TermEndsTheJob : (withOutput 8 8).outCount = (withOutput 8 8).declSize ∧
    (withOutput 8 9).outCount ≠ (withOutput 8 9).declSize := by decide
/-- CopyPrimitiveIsByteSerial: L1-5, an overlapping copy, and a copy of all the output. -/
theorem test_witness_CopyPrimitiveIsByteSerial : (1 ≤ 1 ∧ CopyRuns 1 5 (withOutput 1 38912)) ∧ CopyRuns 21643 3 (withOutput 21643 38912) :=
  ⟨⟨Nat.le_refl 1, { copyRuns_withOutput 1 5 (by omega) (by omega) with }⟩, copyRuns_withOutput _ _ (by omega) (by omega)⟩
/-- CopyR0Copies. -/
theorem test_witness_CopyR0Copies : CopyRuns ((15 : BitVec 4).toNat + 255) 255 (withOutput 270 38912) :=
  copyRuns_withOutput _ _ (by omega) (by omega)
/-- CopyR1Copies. -/
theorem test_witness_CopyR1Copies : CopyRuns ((0 : BitVec 6).toNat + 3 + 16) 3 (withOutput 19 38912) :=
  copyRuns_withOutput _ _ (by omega) (by omega)
/-- CopyR2Copies. -/
theorem test_witness_CopyR2Copies : CopyRuns ((17 : BitVec 8).toNat + 3 + 80) 3 (withOutput 100 38912) :=
  copyRuns_withOutput _ _ (by omega) (by omega)
/-- CopyR3Copies. -/
theorem test_witness_CopyR3Copies : CopyRuns ((1023 : BitVec 10).toNat + 255 + 336) 255 (withOutput 1614 38912) :=
  copyRuns_withOutput _ _ (by omega) (by omega)
/-- CopyR4Copies. -/
theorem test_witness_CopyR4Copies : CopyRuns ((0 : BitVec 12).toNat + 3 + 1360) 3 (withOutput 1363 38912) :=
  copyRuns_withOutput _ _ (by omega) (by omega)
/-- CopyR5Copies. -/
theorem test_witness_CopyR5Copies : CopyRuns ((16184 : BitVec 14).toNat + 3 + 5456) 3 (withOutput 21643 38912) :=
  copyRuns_withOutput 21643 3 (by omega) (by omega)
/-- UnwrittenDistanceRefused: one byte short. -/
theorem test_witness_UnwrittenDistanceRefused : 0 < 2 ^ Config.copyBits 0 ∧
    (withOutput 2 8).outCount.toNat < copyDistance 0 3 0 := by decide
/-- OverwrittenDistanceRefused: V-COPY-7b, the least such distance. -/
theorem test_witness_OverwrittenDistanceRefused : 16186 < 2 ^ Config.copyBits 5 ∧
    copyDistance 5 3 16186 ≤ ({ State.reset with outCount := 21676 } : State).outCount.toNat ∧
    ({ State.reset with outCount := 21676 } : State).cfg.maxSize < copyDistance 5 3 16186 ∧ lengthOk .a2m 3 = true := by decide
/-- OverrunRefused: a literal with no room, and a copy one byte too long. -/
theorem test_witness_OverrunRefused : (withOutput 8 8).declSize.toNat < (withOutput 8 8).outCount.toNat + 1 ∧
    0 < 2 ^ Config.copyBits 0 ∧ copyDistance 0 3 0 ≤ (withOutput 3 5).outCount.toNat ∧
    copyDistance 0 3 0 ≤ (withOutput 3 5).cfg.maxSize ∧ (withOutput 3 5).declSize.toNat < (withOutput 3 5).outCount.toNat + 3 := by
  decide
/-- SymbolFrame: a symbol of each of its three kinds that answers a next state. -/
theorem test_witness_SymbolFrame : (∃ t, exec .term (withOutput 8 8) = .next t) ∧ (∃ t, exec (.lit 0) (withOutput 7 8) = .next t) ∧
    ∃ t, exec (.lit 0) (withOutput 8 8) = .next t := ⟨⟨_, rfl⟩, ⟨_, rfl⟩, ⟨_, rfl⟩⟩

theorem next_of_seen {β : Type} {f : State → β} {o : Host.Outcome State Fault Refusal} {b : β} (h : next f o = some b) :
    ∃ t, o = .next t ∧ f t = b := by
  cases o with
  | next t => exact ⟨t, rfl, Option.some.inj h⟩
  | fault r => cases h
  | refused r => cases h

/-- The running job of P0. -/
def p0 : State := job [0xFBC0] 0

theorem p0_eq : p0 = enterBusy (clearJob { State.reset with inMem := [(0, 0xC0), (1, 0xFB)], inLen := 1 }) :=
  (job_eq [0xFBC0] 0 (by decide) (by decide)).trans rfl

theorem inv_p0 : p0.Inv := by
  rw [p0_eq]
  refine ⟨⟨rfl, rfl, rfl, ?_, ?_, ?_⟩, ⟨rfl, ?_, ?_⟩, sized_start .a2m, rfl, by decide, fun _ => ?_⟩
  · intro cell hc
    simp only [enterBusy_inMem, clearJob_inMem, List.mem_cons, List.not_mem_nil, or_false] at hc
    rcases hc with rfl | rfl <;> decide
  · intro cell hc; cases hc
  · intro cell hc; cases hc
  · intro j hj; exact absurd hj (Nat.not_lt_zero j)
  · intro j hj; exact absurd hj (Nat.not_lt_zero j)
  · exact ⟨shape_start .a2m, ⟨⟨rfl, rfl⟩, by decide, by decide⟩, by decide, by decide⟩

theorem loaded_p0 : InputLoaded p0 := by
  intro w hw
  have : w = 0 := by
    have h1 : p0.inLen.toNat = 1 := rfl
    omega
  subst this
  exact ⟨0xFBC0, by decide +kernel⟩

/-- The turns to come are no part of the invariant. -/
theorem inv_schedule {s : State} (h : s.Inv) (turns : List Turn) : ({ s with schedule := turns } : State).Inv where
  memories := { h.memories with }
  history := { h.history with }
  sized := h.sized
  errInfo := h.errInfo
  words := h.words
  job hb := { h.job hb with reader := { (h.job hb).reader with } }

theorem loaded_schedule {s : State} (h : InputLoaded s) (turns : List Turn) :
    InputLoaded ({ s with schedule := turns } : State) := h

/-- The job of P0 with the engine's turn listed, and a host read after it. -/
def p0Listed : State := { p0 with schedule := [.engine, .host (.read 4 .w32)] }

/-- EngineNeverStops and DoneMeansComplete: the running job of P0, with no turn listed and with the engine's listed. -/
theorem test_witness_EngineNeverStops : (p0.Inv ∧ p0.fsm = .busy ∧ EngineNext p0 p0 ∧ InputLoaded p0 ∧
      ∃ t, step p0 = .next t ∧ t.fsm = .done) ∧
    (p0Listed.Inv ∧ p0Listed.fsm = .busy ∧ EngineNext p0Listed { p0 with schedule := [.host (.read 4 .w32)] } ∧
      InputLoaded p0Listed ∧ ∃ t, step p0Listed = .next t ∧ t.fsm = .done) :=
  ⟨⟨inv_p0, rfl, engineNext_nil rfl, loaded_p0, next_of_seen (f := fun s => s.fsm) (by decide +kernel)⟩,
    inv_schedule inv_p0 _, rfl, engineNext_cons _ _, loaded_schedule loaded_p0 _, next_of_seen (f := fun s => s.fsm) (by decide +kernel)⟩
/-- EveryJobEnds: the running job of P0, with no turn listed and with two. -/
theorem test_witness_EveryJobEnds : (p0.Inv ∧ p0.fsm = .busy ∧ .reset ∉ p0.schedule ∧ InputLoaded p0) ∧
    (p0Listed.Inv ∧ p0Listed.fsm = .busy ∧ .reset ∉ p0Listed.schedule ∧ InputLoaded p0Listed) :=
  ⟨⟨inv_p0, rfl, List.not_mem_nil, loaded_p0⟩, inv_schedule inv_p0 _, rfl,
    (by decide : Turn.reset ∉ [Turn.engine, .host (.read 4 .w32)]), loaded_schedule loaded_p0 _⟩
/-- EveryStepKeepsTheInvariant: the same job, and a host write of CTRL in it. -/
theorem test_witness_EveryStepKeepsTheInvariant : p0.Inv ∧ ∃ t, step p0 = .next t :=
  ⟨inv_p0, (test_witness_EngineNeverStops.1.2.2.2.2).imp fun _ h => h.1⟩
/-- StepRunsDecodedItem. -/
theorem test_witness_StepRunsDecodedItem : p0.fsm = .busy ∧ EngineNext p0 p0 ∧ ReaderOk p0 ∧ InputLoaded p0 ∧
    decodeItem p0.cfg p0.tree (bitsAhead p0) = .ok (.term, bits [0,0,0,0,0,0]) ∧
    (p0.tree.update p0.cfg (Instr.term.symbol p0.cfg)).isSome = true :=
  ⟨rfl, engineNext_nil rfl, (inv_p0.job rfl).reader, loaded_p0, by decide +kernel, by decide +kernel⟩
/-- StepRunsFetchedItem: an item on a listed turn, and an error while fetching. -/
theorem test_witness_StepRunsFetchedItem : (p0Listed.fsm = .busy ∧
      EngineNext p0Listed { p0 with schedule := [.host (.read 4 .w32)] } ∧
      seen (fun i _ => i) (fetchInstr { p0 with schedule := [.host (.read 4 .w32)] }) = some .term) ∧
    ((job [] 0).fsm = .busy ∧ EngineNext (job [] 0) (job [] 0) ∧ raisedBy (fetchInstr (job [] 0)) = some .inputExhausted) :=
  ⟨⟨rfl, engineNext_cons _ _, by decide +kernel⟩, rfl, engineNext_nil rfl, by decide +kernel⟩
/-- EngineRestsOutsideBusy. -/
theorem test_witness_EngineRestsOutsideBusy : State.reset.fsm ≠ .busy ∧ State.reset.schedule = [] ∧
    ({ State.reset with schedule := [.engine] } : State).schedule = .engine :: [] := ⟨by decide, rfl, rfl⟩
/-- ErrorWritesNoOutput: a job whose first step fails. -/
theorem test_witness_ErrorWritesNoOutput : (job [0xFBC0] 1).fsm = .busy ∧ EngineNext (job [0xFBC0] 1) (job [0xFBC0] 1) ∧
    ∃ t, step (job [0xFBC0] 1) = .next t ∧ t.fsm = .error :=
  ⟨rfl, engineNext_nil rfl, next_of_seen (f := fun s => s.fsm) (by decide +kernel)⟩
/-- JobIgnoresTheHost: the job of P0 and the same with IRQ_EN set. -/
theorem test_witness_JobIgnoresTheHost : p0.fsm = .busy ∧ SameJob p0 { p0 with irqEn := true, resp := some ⟨0, false⟩ } :=
  ⟨rfl, rfl⟩
/-- FsmTransitions: the engine, a host access, and reset. -/
theorem test_witness_FsmTransitions : (∃ t, step p0 = .next t ∧ t.fsm = .done) ∧
    (∃ t, step { p0 with fsm := .done, schedule := [.host (.write 0 .w32 2)] } = .next t ∧ t.fsm = .idle) ∧
    (∃ t, step { p0 with schedule := [.reset] } = .next t ∧ t.fsm = .idle) :=
  ⟨test_witness_EngineNeverStops.1.2.2.2.2, ⟨_, rfl, rfl⟩, ⟨_, rfl, rfl⟩⟩
/-- CtrlWrite: START in IDLE and in BUSY, CLEAR in DONE and in IDLE, neither. -/
theorem test_witness_CtrlWrite : (1 : Word).getLsbD 0 = true ∧ State.reset.fsm ≠ .busy ∧ p0.fsm = .busy ∧
    (2 : Word).getLsbD 0 = false ∧ (2 : Word).getLsbD 1 = true ∧ (ended true).fsm = .done ∧ State.reset.fsm = .idle ∧
    (4 : Word).getLsbD 0 = false ∧ (4 : Word).getLsbD 1 = false := by decide
/-- StartGivesCleanEntry: the largest arguments. -/
theorem test_witness_StartGivesCleanEntry : ({ State.reset with declSize := 38912, inLen := 43008 } : State).tree.Sized .a2m ∧
    ({ State.reset with declSize := 38912, inLen := 43008 } : State).declSize.toNat ≤ 38912 ∧
    ({ State.reset with declSize := 38912, inLen := 43008 } : State).inLen.toNat ≤ 43008 :=
  ⟨Tree.reset_sized _, by decide, by decide⟩
/-- StartRefusesCapacity: the least refused arguments. -/
theorem test_witness_StartRefusesCapacity : 38912 < ({ State.reset with declSize := 38913 } : State).declSize.toNat ∧
    ({ State.reset with inLen := 43009 } : State).declSize.toNat ≤ 38912 ∧
    43008 < ({ State.reset with inLen := 43009 } : State).inLen.toNat := by decide
/-- HostWritesWhileBusyAreLost. -/
theorem test_witness_HostWritesWhileBusyAreLost : p0.fsm = .busy := rfl
/-- RegisterMap: the premises of its clauses at their boundaries. -/
theorem test_witness_RegisterMap : State.reset.widx.toNat ≤ Config.maxBuf ∧ State.reset.fsm ≠ .busy ∧
    (0x1C ≤ 0x1C ∧ 0x1C < 0x10000 ∧ 0x1C % 4 = 0) ∧ (0x1C ≤ 0xFFFC ∧ 0xFFFC < 0x10000 ∧ 0xFFFC % 4 = 0) := by decide
/-- BusErrors: each clause. -/
theorem test_witness_BusErrors : 2 % Width.w32.bytes ≠ 0 ∧ (4 < 0x10000 ∧ Width.w16 ≠ .w32) ∧
    (0x10002 % Width.w16.bytes = 0 ∧ (0x10002 < 0x10000 → Width.w16 = .w32)) := by decide
/-- HostAccessesReachTheWindow: the first and the last address of a window, its neighbours, and a host's turn. -/
theorem test_witness_HostAccessesReachTheWindow :
    (({ State.reset with blockIndex := 1 } : State).blockBase ≤ 0x80000 ∧
      0xFFFFF < ({ State.reset with blockIndex := 1 } : State).blockBase + 0x80000) ∧
    0x7FFFF < ({ State.reset with blockIndex := 1 } : State).blockBase ∧
    ({ State.reset with blockIndex := 1 } : State).blockBase + 0x80000 ≤ 0x100000 ∧
    ({ p0 with schedule := [.host (.read 4 .w32)] } : State).schedule = .host (.read 4 .w32) :: [] := by decide
/-- InMemHostAccesses, its reads: a running job's input of two words, by bytes, by words and whole. -/
theorem test_witness_InMemHostAccesses_read : (job [0xCC2B, 0x5C0A] 8).inMem.read 3 = some 0x5C ∧ 3 < 2 * Config.maxBuf ∧
    (job [0xCC2B, 0x5C0A] 8).inMem.readWord (2 * 0) = some 0xCC2B ∧
    (job [0xCC2B, 0x5C0A] 8).inMem.readWord (2 * 0 + 1) = some 0x5C0A ∧ 4 * 0 < 2 * Config.maxBuf := by decide +kernel
/-- InMemHostAccesses, its writes: the first and the last cell of each width. -/
theorem test_witness_InMemHostAccesses : State.reset.fsm ≠ .busy ∧ 4 * 0 < 2 * Config.maxBuf ∧ 4 * 21503 < 2 * Config.maxBuf ∧
    43007 < Config.maxBuf ∧ 86015 < 2 * Config.maxBuf := by decide
/-- OtherWindows: the boundaries of the unmapped ranges, and bytes produced. -/
theorem test_witness_OtherWindows : (0x25000 % Width.w32.bytes = 0 ∧ 0x3FFFC % Width.w32.bytes = 0 ∧ 0x4A800 % Width.w32.bytes = 0) ∧
    0 + 3 < (withOutput 8 8).outCount.toNat ∧ 6 + 1 < (withOutput 8 8).outCount.toNat ∧
    (withOutput 8 8).outMem.read 6 = some 0x41 ∧ (withOutput 8 8).outMem.read 7 = some 0x41 ∧ (withOutput 8 8).outMem.read 0 = some 0x41 ∧
    (withOutput 8 8).outMem.read 1 = some 0x41 ∧ (withOutput 8 8).outMem.read 2 = some 0x41 ∧
    (withOutput 8 8).outMem.read 3 = some 0x41 := by decide
/-- ResetInputInAnyState: a running job. -/
theorem test_witness_ResetInputInAnyState : ({ p0 with schedule := [.reset] } : State).schedule = .reset :: [] := rfl

end Sys2Proof.Tests
end

section
/-! SUPPORT. The register window of the host bus: which register an aligned 32-bit access reaches, and what each register reads and
takes (10_state.md R20 to R27). -/

namespace Sys2Proof.Machine

theorem busError_w32 {off : Nat} : busError off .w32 = false ↔ off % 4 = 0 := by
  simp [busError, Width.bytes]

/-- An aligned 32-bit read of the register space answers the register (R38). -/
theorem hostRead_register {off : Nat} (s : State) (hr : off < inBase) (ha : off % 4 = 0) :
    hostRead off .w32 s = { data := readRegister off s, busError := false } := by
  simp [hostRead, busError_w32.mpr ha, hr]

/-- An aligned 32-bit write of the register space reaches the register (R38). -/
theorem hostWrite_register {off : Nat} (v : Word) (s : State) (hr : off < inBase) (ha : off % 4 = 0) :
    hostWrite off .w32 v s = writeRegister off v s := by
  simp [hostWrite, busError_w32.mpr ha, hr]

/-- A write that gets a bus error has no effect (R38). -/
theorem hostWrite_of_busError {off : Nat} {w : Width} (v : Word) (s : State) (h : busError off w = true) :
    hostWrite off w v s = s := by
  simp [hostWrite, h]

/-- A write of the register space has the effect of the register's write, or none (R38). -/
theorem hostWrite_register_cases {off : Nat} (w : Width) (v : Word) (s : State) (hr : off < inBase) :
    hostWrite off w v s = writeRegister off v s ∨ hostWrite off w v s = s := by
  cases h : busError off w with
  | true => exact .inr (hostWrite_of_busError v s h)
  | false => simp [hostWrite, h, hr]

/-- The reserved offsets read 0 (R20). -/
theorem readRegister_reserved {off : Nat} (s : State) (h : 0x1C ≤ off) : readRegister off s = 0 := by
  unfold readRegister
  split
  case h_8 => rfl
  all_goals omega

/-- Only CTRL, IN_LEN and DECL_SIZE take a write (R20). -/
theorem writeRegister_ignored {off : Nat} (v : Word) (s : State) (h0 : off ≠ 0) (h8 : off ≠ 0x08) (hC : off ≠ 0x0C) :
    writeRegister off v s = s := by
  unfold writeRegister
  split
  case h_4 => rfl
  all_goals contradiction

/-- A write of a register space offset that takes none has no effect, whatever its width and alignment. -/
theorem hostWrite_ignored {off : Nat} (w : Width) (v : Word) (s : State) (hr : off < inBase) (h0 : off ≠ 0)
    (h8 : off ≠ 0x08) (hC : off ≠ 0x0C) : hostWrite off w v s = s := by
  rcases hostWrite_register_cases w v s hr with h | h
  · exact h.trans (writeRegister_ignored v s h0 h8 hC)
  · exact h

theorem hostWrite_inLen {s : State} (v : Word) (h : s.fsm ≠ .busy) :
    hostWrite 0x08 .w32 v s = { s with inLen := v.setWidth 16 } :=
  (hostWrite_register v s (by decide) rfl).trans (if_neg h)

theorem hostWrite_declSize {s : State} (v : Word) (h : s.fsm ≠ .busy) :
    hostWrite 0x0C .w32 v s = { s with declSize := v.setWidth 16 } :=
  (hostWrite_register v s (by decide) rfl).trans (if_neg h)

/-- The bit cursor fits in the 20 bits BITS_USED shows (R16, R27). -/
theorem toNat_bitsUsed {s : State} (h : s.widx.toNat ≤ Config.maxBuf) : s.bitsUsed.toNat = s.bitpos := by
  have hmax : Config.maxBuf = 43008 := rfl
  have hpos : s.bitpos ≤ 16 * s.widx.toNat := Nat.sub_le _ _
  simp only [State.bitsUsed, BitVec.toNat_setWidth, BitVec.toNat_ofNat]
  omega

/-! ### STATUS -/

/-- Each bit of STATUS, as R22 places them. -/
theorem getLsbD_status (s : State) (i : Nat) : s.status.getLsbD i =
    if i = 0 then s.fsm == .busy else if i = 1 then s.fsm == .done else if i = 2 then s.fsm == .error
    else if i = 3 then s.irq else false := by
  change BitVec.getLsbD (w := 28 + 1 + 1 + 1 + 1) _ i = _
  unfold State.status
  simp only [BitVec.getLsbD_append, BitVec.getLsbD_ofBool, BitVec.getLsbD_zero]
  match i with
  | 0 | 1 | 2 | 3 => simp
  | n + 4 => simp

theorem irq_eq (s : State) : s.irq = (s.irqEn && decide (s.fsm = .done ∨ s.fsm = .error)) := by
  simp [State.irq, Bool.beq_eq_decide_eq]

end Sys2Proof.Machine
end

section
/-! SUPPORT. What changes `fsm` (10_state.md R28): the engine, which ends a job or leaves it BUSY, and a host write of CTRL. -/

namespace Sys2Proof.Machine

/-! ### The engine -/

theorem outcomeOf_eq_next {x : Except Fault State} {t : State} : outcomeOf x = .next t ↔ x = .ok t := by
  cases x <;> simp [outcomeOf]

/-- How item `i` ends (R76 to R78): it enters an error, ends the job as TERM, or writes only the output, the history and their
cursors. -/
def ItemEnds (i : Instr) (s t : State) : Prop :=
  (∃ e, t = enterError e s) ∨ (i = .term ∧ t = { s with fsm := .done }) ∨ SameButOutput s t

theorem execLit_ends {b : Byte} {s t : State} (h : execLit b s = .next t) : ItemEnds (.lit b) s t := by
  unfold execLit at h
  split at h
  · injection h with h
    exact .inl ⟨_, h.symm⟩
  · obtain ⟨_, _, rfl⟩ := emitByte_ok (outcomeOf_eq_next.mp h)
    exact .inr (.inr (afterEmit_frame b s))

theorem execTerm_ends {s t : State} (h : execTerm s = .next t) : ItemEnds .term s t := by
  unfold execTerm at h
  split at h
  · injection h with h
    exact .inl ⟨_, h.symm⟩
  · injection h with h
    exact .inr (.inl ⟨rfl, h.symm⟩)

/-- The shared execution of the copies ends as an item may, whichever copy runs it. -/
theorem execCopy_ends {r : Fin 6} {len extra : Nat} {i : Instr} {s t : State} (h : execCopy r len extra s = .next t) :
    ItemEnds i s t := by
  unfold execCopy at h
  split at h
  · injection h with h
    exact .inl ⟨_, h.symm⟩
  · exact .inr (.inr (copyFrom_frame (outcomeOf_eq_next.mp h)))

theorem exec_ends {i : Instr} {s t : State} (h : exec i s = .next t) : ItemEnds i s t := by
  cases i with
  | lit b => exact execLit_ends h
  | term => exact execTerm_ends h
  | copyR0 len extra => exact execCopy_ends (r := 0) h
  | copyR1 len extra => exact execCopy_ends (r := 1) h
  | copyR2 len extra => exact execCopy_ends (r := 2) h
  | copyR3 len extra => exact execCopy_ends (r := 3) h
  | copyR4 len extra => exact execCopy_ends (r := 4) h
  | copyR5 len extra => exact execCopy_ends (r := 5) h

theorem ItemEnds.fsm {i : Instr} {s t : State} (h : ItemEnds i s t) : t.fsm = s.fsm ∨ t.fsm = .done ∨ t.fsm = .error := by
  rcases h with ⟨e, rfl⟩ | ⟨_, rfl⟩ | h
  · exact .inr (.inr rfl)
  · exact .inr (.inl rfl)
  · exact .inl (by rw [h])

/-- An engine step leaves `fsm` alone or ends the job. -/
theorem engineStep_fsm {s t : State} (h : engineStep s = .next t) :
    t.fsm = s.fsm ∨ t.fsm = .done ∨ t.fsm = .error := by
  rcases engineStep_cases h with ⟨i, u, hfetch, hexec⟩ | ⟨e, u, _, rfl⟩
  · have hkept : u.fsm = s.fsm := by rw [fetchInstr_frame hfetch]
    exact hkept ▸ (exec_ends hexec).fsm
  · exact .inr (.inr rfl)

/-- The engine's turn changes `fsm` only from BUSY, to DONE or ERROR (R28). -/
theorem engineTurn_fsm {s t : State} (h : engineTurn s = .next t) (hne : t.fsm ≠ s.fsm) :
    s.fsm = .busy ∧ (t.fsm = .done ∨ t.fsm = .error) := by
  rcases engineTurn_cases h with ⟨hbusy, hstep⟩ | ⟨_, rfl⟩
  · exact ⟨hbusy, (engineStep_fsm hstep).resolve_left hne⟩
  · exact absurd rfl hne

theorem engineTurn_of_not_busy {s : State} (h : s.fsm ≠ .busy) : engineTurn s = .next s := if_neg h

/-! ### The host -/

/-- The moves of `fsm` that the host's commands make (R28, R88). -/
def HostMove (f g : Fsm) : Prop :=
  f ≠ .busy ∧ (g = .busy ∨ g = .error ∨ ((f = .done ∨ f = .error) ∧ g = .idle))

theorem startAction_fsm (s : State) : (startAction s).fsm = .busy ∨ (startAction s).fsm = .error := by
  unfold startAction
  split
  · exact .inr rfl
  · exact .inl rfl

theorem writeCtrl_fsm (v : Word) (s : State) : (writeCtrl v s).fsm = s.fsm ∨ HostMove s.fsm (writeCtrl v s).fsm := by
  simp only [writeCtrl]
  split
  · split
    · exact .inl rfl
    next hidle => exact .inr ⟨hidle, (startAction_fsm _).imp_right .inl⟩
  · split
    · split
      next hended => exact .inr ⟨fun hbusy => by simp [hbusy] at hended, .inr (.inr ⟨hended, rfl⟩)⟩
      · exact .inl rfl
    · exact .inl rfl

theorem writeRegister_fsm (off : Nat) (v : Word) (s : State) :
    (writeRegister off v s).fsm = s.fsm ∨ HostMove s.fsm (writeRegister off v s).fsm := by
  unfold writeRegister
  split
  · exact writeCtrl_fsm v s
  · exact .inl (by split <;> rfl)
  · exact .inl (by split <;> rfl)
  · exact .inl rfl

@[simp] theorem writeWindow_fsm (off : Nat) (w : Width) (v : Word) (s : State) :
    (writeWindow off w v s).fsm = s.fsm := by
  unfold writeWindow
  split <;> rfl

theorem hostWrite_fsm (off : Nat) (w : Width) (v : Word) (s : State) :
    (hostWrite off w v s).fsm = s.fsm ∨ HostMove s.fsm (hostWrite off w v s).fsm := by
  unfold hostWrite
  split
  · exact .inl rfl
  · split
    · exact writeRegister_fsm off v s
    · exact .inl (writeWindow_fsm off w v s)

/-- A host access leaves `fsm` alone or makes one of the host's moves. -/
theorem hostAccess_fsm (a : HostAccess) (s : State) :
    (hostAccess a s).fsm = s.fsm ∨ HostMove s.fsm (hostAccess a s).fsm := by
  cases a with
  | read addr w => exact .inl (by simp only [hostAccess]; split <;> rfl)
  | write addr w v =>
    simp only [hostAccess]
    split
    · exact hostWrite_fsm _ w v s
    · exact .inl rfl

end Sys2Proof.Machine
end

section
/-! SUPPORT. The parts of the invariant that hold right after reset (10_state.md R30). -/

namespace Sys2Proof.Machine

/-- Where no byte is produced and the cursor is 0, the law of the history says nothing of the memories. -/
theorem HistoryLaw.of_no_output {s : State} (hcount : s.outCount = 0) (hcur : s.hcur = 0) : HistoryLaw s where
  cursor := by simp [hcount, hcur]
  produced j hj := by simp [hcount] at hj
  window j hj := by simp [hcount] at hj

theorem Memory.within_nil (size : Nat) : Memory.within size [] := fun _ h => absurd h List.not_mem_nil

theorem memoriesOk_resetOf (c : Preset) (index : Nat) : MemoriesOk (State.resetOf c index) where
  inForm := rfl
  outForm := rfl
  histForm := rfl
  inCells := Memory.within_nil _
  outCells := Memory.within_nil _
  histCells := Memory.within_nil _

end Sys2Proof.Machine
end

section
/-! CERTIFICATE. The statements about the state (10_state.md). -/

namespace Sys2Proof.Machine

/-- Settles O45: whose turn the step is decides which of the three ways `fsm` can have moved. -/
theorem fsmTransitions : Obligations.FsmTransitions := by
  intro s t hstep hne
  rcases step_cases hstep with ⟨hs, h⟩ | ⟨rest, hs, h⟩ | ⟨a, rest, hs, rfl⟩ | ⟨rest, hs, rfl⟩
  · obtain ⟨hbusy, hended⟩ := engineTurn_fsm h hne
    exact .inr (.inl ⟨hbusy, .inl hs, hended⟩)
  · obtain ⟨hbusy, hended⟩ := engineTurn_fsm h hne
    exact .inr (.inl ⟨hbusy, .inr ⟨rest, hs⟩, hended⟩)
  · obtain ⟨hfree, hmove⟩ := (hostAccess_fsm a { s with schedule := rest }).resolve_left hne
    exact .inr (.inr ⟨hfree, ⟨a, rest, hs⟩, hmove⟩)
  · exact .inl ⟨rest, hs, rfl⟩

/-- Settles O39: outside BUSY the engine's turn is the identity on the state it finds. -/
theorem engineRestsOutsideBusy : Obligations.EngineRestsOutsideBusy := by
  intro s hfree
  refine ⟨fun hs => ?_, fun rest hs => ?_⟩
  · exact (step_of_engineNext (.inl ⟨hs, rfl⟩)).trans (engineTurn_of_not_busy hfree)
  · exact (step_of_engineNext (.inr ⟨rest, hs, rfl⟩)).trans (engineTurn_of_not_busy hfree)

/-- Settles O46: the memories are empty, nothing is produced, and no job runs; of the tree files only the sizes count. -/
theorem invariantAtReset : Obligations.InvariantAtReset := fun c index =>
  { memories := memoriesOk_resetOf c index
    history := .of_no_output rfl rfl
    sized := Tree.reset_sized c
    errInfo := .inl rfl
    words := Nat.zero_le _
    job := fun hbusy => Fsm.noConfusion hbusy }

/-- Settles O53, bit by bit. -/
theorem statusBits : Obligations.StatusBits := by
  intro s
  refine ⟨?_, ?_, ?_, ?_, ?_, fun i hi => ?_, fun w v => ?_, by decide⟩
  · rw [getLsbD_status]; exact Bool.beq_eq_decide_eq ..
  · rw [getLsbD_status]; exact Bool.beq_eq_decide_eq ..
  · rw [getLsbD_status]; exact Bool.beq_eq_decide_eq ..
  · rw [getLsbD_status]; exact irq_eq s
  · rw [getLsbD_status]; rfl
  · rw [getLsbD_status, if_neg (by omega), if_neg (by omega), if_neg (by omega), if_neg (by omega)]
  · exact hostWrite_ignored w v s (by decide) (by decide) (by decide) (by decide)

/-- Settles O54, offset by offset. -/
theorem registerMap : Obligations.RegisterMap := by
  intro s
  refine ⟨hostRead_register s (by decide) rfl, hostRead_register s (by decide) rfl, hostRead_register s (by decide) rfl,
    hostRead_register s (by decide) rfl, hostRead_register s (by decide) rfl, hostRead_register s (by decide) rfl,
    fun hw => ?_, fun off hlow hhigh halign => ?_, fun v hfree => hostWrite_inLen v hfree,
    fun v hfree => hostWrite_declSize v hfree, fun off v hr h0 h8 hC => hostWrite_ignored .w32 v s hr h0 h8 hC⟩
  · rw [hostRead_register s (by decide) rfl]
    exact toNat_bitsUsed hw
  · rw [hostRead_register s hhigh halign, readRegister_reserved s hlow]

/-- Settles O58: the fields by evaluation, the memories because an empty list of cells reads nothing. -/
theorem resetValues : Obligations.ResetValues :=
  ⟨rfl, rfl, rfl, rfl, rfl, rfl, rfl, rfl, rfl, rfl, rfl, rfl, rfl, fun _ => ⟨rfl, rfl, rfl⟩⟩

end Sys2Proof.Machine
end

section
/-! SUPPORT. The bit reader of a running job (40_bitstream_reader.md): the bit it delivers, and that it never stops. -/

namespace Sys2Proof.Machine

theorem ReaderLaw.bitcount_le {s : State} (h : ReaderLaw s) : s.bitcount.toNat ≤ 16 * s.widx.toNat := by
  unfold ReaderLaw at h
  split at h
  next => simp [h.1]
  next hw =>
    have hpos : s.widx.toNat ≠ 0 := fun h0 => hw (BitVec.eq_of_toNat_eq h0)
    have hlt := s.bitcount.isLt
    omega

/-- The bits consumed and the bits left are the input (R61). -/
theorem ReaderOk.bitpos_add_bitsLeft {s : State} (h : ReaderOk s) : s.bitpos + bitsLeft s = 16 * s.inLen.toNat := by
  have hcount := h.law.bitcount_le
  have hloaded := h.loaded
  simp only [State.bitpos, bitsLeft]
  omega

theorem loadWord_eq_ok {s : State} {w : Nat} {v : Half} :
    loadWord s w = .ok v ↔ w < Config.maxBuf ∧ s.inMem.readWord w = some v := by
  unfold loadWord
  split
  next h => simp [Nat.not_lt.mpr h]
  next h => cases s.inMem.readWord w <;> simp [Nat.not_le.mp h]

theorem SameButReader.inputLoaded {s t : State} (h : SameButReader s t) (hs : InputLoaded s) : InputLoaded t := by
  rw [h]; exact hs

/-- The first bit of a word is stream bit `16 * w` (R36). -/
theorem streamBit_word {s : State} {w : Nat} {b : Bool} (h : streamBit s (16 * w) = some b) :
    ∃ v, s.inMem.readWord w = some v ∧ v.msb = b := by
  obtain ⟨v, hv, hb⟩ := Option.map_eq_some_iff.mp h
  rw [Nat.mul_div_cancel_left w (by decide)] at hv
  exact ⟨v, hv, by simpa [BitVec.msb_eq_getLsbD_last] using hb⟩

theorem ReaderLaw.of_word {s : State} {v : Half} (hw : s.widx ≠ 0) (hv : s.inMem.readWord (s.widx.toNat - 1) = some v)
    (hbuf : s.bitbuffer = v <<< (16 - s.bitcount.toNat)) : ReaderLaw s :=
  (if_neg hw).mpr ⟨v, hv, hbuf⟩

/-- Where bits of a word are held, the word is the last one loaded (R62). -/
theorem ReaderLaw.word_of_held {s : State} (h : ReaderLaw s) (hc : s.bitcount ≠ 0) :
    s.widx ≠ 0 ∧ ∃ v, s.inMem.readWord (s.widx.toNat - 1) = some v ∧ s.bitbuffer = v <<< (16 - s.bitcount.toNat) := by
  unfold ReaderLaw at h
  split at h
  next => exact absurd h.1 hc
  next hw => exact ⟨hw, h⟩

theorem toNat_bitcount_pred {s : State} (hc : s.bitcount ≠ 0) : (s.bitcount - 1).toNat = s.bitcount.toNat - 1 := by
  have hpos := BitVec.toNat_pos_of_ne_zero hc
  bv_omega

theorem toNat_widx_succ {s : State} (hw : s.widx.toNat < s.inLen.toNat) : (s.widx + 1).toNat = s.widx.toNat + 1 := by
  have hlen := s.inLen.isLt
  bv_omega

theorem afterShift_frame (s : State) : SameButReader s (afterShift s) := rfl

theorem afterLoad_frame (v : Half) (s : State) : SameButReader s (afterLoad v s) := rfl

theorem bitpos_afterShift {s : State} (h : ReaderLaw s) (hc : s.bitcount ≠ 0) :
    (afterShift s).bitpos = s.bitpos + 1 := by
  have hle := h.bitcount_le
  have hpos := BitVec.toNat_pos_of_ne_zero hc
  simp only [State.bitpos, afterShift, toNat_bitcount_pred hc]
  omega

theorem bitpos_afterLoad {s : State} (v : Half) (hc : s.bitcount = 0) (hw : s.widx.toNat < s.inLen.toNat) :
    (afterLoad v s).bitpos = s.bitpos + 1 := by
  have h15 : (afterLoad v s).bitcount.toNat = 15 := rfl
  have hnext : (afterLoad v s).widx.toNat = s.widx.toNat + 1 := toNat_widx_succ hw
  have h0 : s.bitcount.toNat = 0 := by rw [hc]; rfl
  simp only [State.bitpos, h15, hnext, h0]
  omega

theorem ReaderOk.afterShift {s : State} (h : ReaderOk s) (hc : s.bitcount ≠ 0) : ReaderOk (afterShift s) where
  law := by
    obtain ⟨hw, v, hv, hbuf⟩ := h.law.word_of_held hc
    have hpos := BitVec.toNat_pos_of_ne_zero hc
    refine .of_word hw hv ?_
    simp only [Machine.afterShift, toNat_bitcount_pred hc, hbuf, ← BitVec.shiftLeft_add]
    congr 1
    omega
  loaded := h.loaded
  input := h.input

theorem ReaderOk.afterLoad {s : State} {v : Half} (h : ReaderOk s) (hw : s.widx.toNat < s.inLen.toNat)
    (hv : s.inMem.readWord s.widx.toNat = some v) : ReaderOk (afterLoad v s) where
  law := by
    have hnext : (Machine.afterLoad v s).widx.toNat = s.widx.toNat + 1 := toNat_widx_succ hw
    refine .of_word (v := v) (fun h0 => ?_) ?_ rfl
    · rw [h0] at hnext
      exact absurd hnext.symm (Nat.succ_ne_zero _)
    · rw [hnext, Nat.add_sub_cancel]
      exact hv
  loaded := (toNat_widx_succ hw).trans_le hw
  input := h.input

/-- The top bit of the register is the stream bit at the cursor (R36, R62). -/
theorem streamBit_held {s : State} (h : ReaderLaw s) (hc : s.bitcount ≠ 0) :
    streamBit s s.bitpos = some s.bitbuffer.msb := by
  obtain ⟨hw, v, hv, hbuf⟩ := h.word_of_held hc
  have hpos := BitVec.toNat_pos_of_ne_zero hc
  have hwpos := BitVec.toNat_pos_of_ne_zero hw
  have hlt := s.bitcount.isLt
  have hword : s.bitpos / 16 = s.widx.toNat - 1 := by simp only [State.bitpos]; omega
  have hbit : 15 - s.bitpos % 16 = s.bitcount.toNat - 1 := by simp only [State.bitpos]; omega
  have hfrom : 16 - 1 - (16 - s.bitcount.toNat) = s.bitcount.toNat - 1 := by omega
  have hkept : ¬ 16 - 1 < 16 - s.bitcount.toNat := by omega
  rw [streamBit, hword, hbit, hv, hbuf, BitVec.msb_eq_getLsbD_last, BitVec.getLsbD_shiftLeft, hfrom,
    decide_eq_false hkept]
  rfl

/-- `read_bit` with bits left delivers the stream bit at the cursor (R58, R61, R62). -/
theorem ReaderOk.exists_readBit {s : State} {b : Bool} (h : ReaderOk s) (hleft : s.bitpos < 16 * s.inLen.toNat)
    (hb : streamBit s s.bitpos = some b) :
    ∃ t, readBit s = .ok b t ∧ t.bitpos = s.bitpos + 1 ∧ SameButReader s t ∧ ReaderOk t := by
  by_cases hc : s.bitcount = 0
  · have hpos : s.bitpos = 16 * s.widx.toNat := by simp [State.bitpos, hc]
    have hw : s.widx.toNat < s.inLen.toNat := by omega
    obtain ⟨v, hv, rfl⟩ := streamBit_word (hpos ▸ hb)
    have hload := loadWord_eq_ok.mpr ⟨hw.trans_le h.input, hv⟩
    exact ⟨_, readBit_of_load hc hw hload, bitpos_afterLoad v hc hw, afterLoad_frame v s, h.afterLoad hw hv⟩
  · obtain rfl := Option.some.inj ((streamBit_held h.law hc).symm.trans hb)
    exact ⟨_, readBit_of_bitcount hc, bitpos_afterShift h.law hc, afterShift_frame s, h.afterShift hc⟩

end Sys2Proof.Machine
end

section
/-! SUPPORT. Neighbours and walks in a tree of the shape of R69: which node is whose child, and how far the root is. -/

namespace Sys2Proof.Machine

section
variable {c : Preset} {t u : Tree} {x y p n m : Nat}

theorem Tree.exists_freqOf (hx : Tree.isNode c x = true) : ∃ f, t.freqOf c x = some f := ⟨_, if_pos hx⟩

theorem Tree.exists_setFreq (t : Tree) (v : Half) (hx : Tree.isNode c x = true) : ∃ u, t.setFreq c x v = some u :=
  ⟨_, if_pos hx⟩

theorem Tree.hasDad_of_dadOf (h : t.dadOf c x = some p) : Tree.hasDad c x = true := by
  unfold Tree.dadOf at h
  split at h
  · assumption
  · cases h

/-- A node with a parent is a used entry of `freq`. -/
theorem Tree.isNode_of_dadOf (h : t.dadOf c x = some p) : Tree.isNode c x = true := by
  have hx := Tree.hasDad_iff.mp (Tree.hasDad_of_dadOf h)
  exact Tree.isNode_iff.mpr ⟨by omega, hx.2⟩

theorem Tree.isNode_of_isInternal (h : Tree.isInternal c x = true) : Tree.isNode c x = true := by
  have hx := Tree.isInternal_iff.mp h
  exact Tree.isNode_iff.mpr ⟨hx.1, hx.2.trans (Preset.maxChar_lt_twiceMax c).le⟩

theorem Tree.dadOf_root : t.dadOf c Config.root = none := rfl

theorem Tree.isInternal_of_leftOf (h : t.leftOf c p = some x) : Tree.isInternal c p = true := by
  unfold Tree.leftOf at h
  split at h
  · assumption
  · cases h

theorem Tree.isInternal_of_rightOf (h : t.rightOf c p = some x) : Tree.isInternal c p = true := by
  unfold Tree.rightOf at h
  split at h
  · assumption
  · cases h

/-! ### Children -/

/-- The children of `p` are `x` and `y`, on either side. -/
def Tree.ChildPair (c : Preset) (t : Tree) (p x y : Nat) : Prop :=
  (t.leftOf c p = some x ∧ t.rightOf c p = some y) ∨ (t.leftOf c p = some y ∧ t.rightOf c p = some x)

theorem Tree.ChildPair.otherChild (h : t.ChildPair c p x y) (hne : x ≠ y) : t.otherChild c p x = some y := by
  rcases h with ⟨hl, hr⟩ | ⟨hl, hr⟩
  · simp [Tree.otherChild, hl, hr]
  · simp [Tree.otherChild, hl, hne.symm]

theorem Tree.ChildPair.isInternal (h : t.ChildPair c p x y) : Tree.isInternal c p = true := by
  rcases h with ⟨hl, _⟩ | ⟨hl, _⟩ <;> exact Tree.isInternal_of_leftOf hl

theorem Tree.Shape.dadOf_of_leftOf (h : t.Shape c) (hl : t.leftOf c p = some x) : t.dadOf c x = some p := by
  have hp := Tree.isInternal_iff.mp (Tree.isInternal_of_leftOf hl)
  obtain ⟨l, r, hl', _, _, hdl, _⟩ := h.children p hp.1 hp.2
  exact Option.some.inj (hl'.symm.trans hl) ▸ hdl

theorem Tree.Shape.dadOf_of_rightOf (h : t.Shape c) (hr : t.rightOf c p = some x) : t.dadOf c x = some p := by
  have hp := Tree.isInternal_iff.mp (Tree.isInternal_of_rightOf hr)
  obtain ⟨l, r, _, hr', _, _, hdr⟩ := h.children p hp.1 hp.2
  exact Option.some.inj (hr'.symm.trans hr) ▸ hdr

theorem Tree.Shape.isInternal_of_dadOf (h : t.Shape c) (hx : t.dadOf c x = some p) : Tree.isInternal c p = true := by
  have hd := Tree.hasDad_iff.mp (Tree.hasDad_of_dadOf hx)
  obtain ⟨q, hq, h1, h2, _⟩ := h.parents x hd.1 hd.2
  obtain rfl := Option.some.inj (hq.symm.trans hx)
  exact Tree.isInternal_iff.mpr ⟨h1, h2⟩

/-- A node with a parent has one sibling (R64). -/
theorem Tree.Shape.exists_childPair (h : t.Shape c) (hx : t.dadOf c x = some p) :
    ∃ y, t.ChildPair c p x y ∧ x ≠ y ∧ t.dadOf c y = some p := by
  have hd := Tree.hasDad_iff.mp (Tree.hasDad_of_dadOf hx)
  obtain ⟨q, hq, h1, h2, hside⟩ := h.parents x hd.1 hd.2
  obtain rfl := Option.some.inj (hq.symm.trans hx)
  obtain ⟨l, r, hl, hr, hne, hdl, hdr⟩ := h.children q h1 h2
  rcases hside with hside | hside
  · obtain rfl := Option.some.inj (hl.symm.trans hside)
    exact ⟨r, .inl ⟨hl, hr⟩, hne, hdr⟩
  · obtain rfl := Option.some.inj (hr.symm.trans hside)
    exact ⟨l, .inr ⟨hl, hr⟩, hne.symm, hdl⟩

theorem Tree.Shape.exists_sibling (h : t.Shape c) (hx : t.dadOf c x = some p) :
    ∃ y, t.sibling c x = some y ∧ Tree.isNode c y = true := by
  obtain ⟨y, hpair, hne, hy⟩ := h.exists_childPair hx
  exact ⟨y, by simp [Tree.sibling, hx, hpair.otherChild hne], Tree.isNode_of_dadOf hy⟩

/-- The shape is about the links and the sizes alone. -/
theorem Tree.Shape.of_sameLinks (h : t.Shape c) (hlinks : t.SameLinks u) (hsized : u.Sized c) : u.Shape c where
  sized := hsized
  children := by simpa only [hlinks.leftOf, hlinks.rightOf, hlinks.dadOf] using h.children
  parents := by simpa only [hlinks.leftOf, hlinks.rightOf, hlinks.dadOf] using h.parents
  rooted := by simpa only [hlinks.ancestor] using h.rooted

/-! ### Depth -/

theorem Tree.ancestor_succ (c : Preset) (t : Tree) (n x : Nat) :
    t.ancestor c (n + 1) x = (t.dadOf c x).bind (t.ancestor c n) := rfl

theorem Tree.ancestor_succ_of_dadOf (h : t.dadOf c x = some p) (n : Nat) :
    t.ancestor c (n + 1) x = t.ancestor c n p := by
  rw [Tree.ancestor_succ, h, Option.bind_some]

theorem Tree.ancestor_add (c : Preset) (t : Tree) (n m x : Nat) :
    t.ancestor c (n + m) x = (t.ancestor c n x).bind (t.ancestor c m) := by
  induction n generalizing x with
  | zero => simp [Tree.ancestor]
  | succ n ih => simp only [Nat.succ_add_eq_add_succ, Nat.add_succ, Tree.ancestor_succ, ih, Option.bind_assoc]

theorem Tree.ancestor_root_succ (c : Preset) (t : Tree) (n : Nat) : t.ancestor c (n + 1) Config.root = none := rfl

/-- A node is at one depth only. -/
theorem Tree.depth_unique (hn : t.ancestor c n x = some Config.root) (hm : t.ancestor c m x = some Config.root) :
    n = m := by
  rcases Nat.lt_trichotomy n m with h | h | h
  · obtain ⟨k, rfl⟩ := Nat.exists_eq_add_of_lt h
    rw [Nat.add_assoc, Tree.ancestor_add, hn, Option.bind_some, Tree.ancestor_root_succ] at hm
    cases hm
  · exact h
  · obtain ⟨k, rfl⟩ := Nat.exists_eq_add_of_lt h
    rw [Nat.add_assoc, Tree.ancestor_add, hm, Option.bind_some, Tree.ancestor_root_succ] at hn
    cases hn

theorem Tree.Shape.isInternal_of_ancestor (h : t.Shape c) (hx : t.ancestor c (n + 1) x = some p) :
    Tree.isInternal c p = true := by
  rw [Tree.ancestor_add] at hx
  obtain ⟨y, _, hy⟩ := Option.bind_eq_some_iff.mp hx
  exact h.isInternal_of_dadOf (by simpa [Tree.ancestor] using hy)

/-- The node `i + 1` levels above `x`, 0 where there is none. -/
def Tree.above (c : Preset) (t : Tree) (x i : Nat) : Nat := (t.ancestor c (i + 1) x).getD 0

/-- No node is deeper than there are internal nodes (R55): those above it are different. -/
theorem Tree.Shape.depth_le (h : t.Shape c) (hx : t.ancestor c n x = some Config.root) : n ≤ c.maxChar := by
  have level (i : Nat) (hi : i < n) : ∃ y, t.ancestor c (i + 1) x = some y ∧
      t.ancestor c (n - (i + 1)) y = some Config.root := by
    rw [show n = (i + 1) + (n - (i + 1)) by omega, Tree.ancestor_add] at hx
    exact Option.bind_eq_some_iff.mp hx
  have internal : ∀ i ∈ Finset.range n, t.above c x i ∈ Finset.Icc 1 c.maxChar := fun i hi => by
    obtain ⟨y, hy, _⟩ := level i (Finset.mem_range.mp hi)
    simpa [Tree.above, hy, Tree.isInternal_iff] using h.isInternal_of_ancestor hy
  have distinct : Set.InjOn (t.above c x) (Finset.range n) := fun i hi j hj hij => by
    have hin := Finset.mem_range.mp hi
    have hjn := Finset.mem_range.mp hj
    obtain ⟨y, hy, hdepth⟩ := level i hin
    obtain ⟨z, hz, hdepth'⟩ := level j hjn
    obtain rfl : y = z := by simpa [Tree.above, hy, hz] using hij
    have := Tree.depth_unique hdepth hdepth'
    omega
  simpa using Finset.card_le_card_of_injOn _ internal distinct

theorem Tree.Shape.exists_depth (h : t.Shape c) (hx : Tree.isNode c x = true) :
    ∃ n, t.ancestor c n x = some Config.root :=
  h.rooted x (Tree.isNode_iff.mp hx).1 (Tree.isNode_iff.mp hx).2

/-- A node with a parent is below the root, and its parent is one level up. -/
theorem Tree.Shape.exists_depth_succ (h : t.Shape c) (hx : t.dadOf c x = some p) :
    ∃ n, t.ancestor c (n + 1) x = some Config.root ∧ t.ancestor c n p = some Config.root := by
  obtain ⟨n, hn⟩ := h.exists_depth (Tree.isNode_of_dadOf hx)
  cases n with
  | zero =>
    obtain rfl := Option.some.inj hn
    cases Tree.dadOf_root.symm.trans hx
  | succ n => exact ⟨n, hn, (Tree.ancestor_succ_of_dadOf hx n).symm.trans hn⟩

theorem Tree.Shape.dadOf_ne (h : t.Shape c) (hx : t.dadOf c x = some p) : p ≠ x := by
  rintro rfl
  obtain ⟨n, hn, hn'⟩ := h.exists_depth_succ hx
  exact Nat.succ_ne_self n (Tree.depth_unique hn hn')

end

end Sys2Proof.Machine
end

section
/-! SUPPORT. `propagate_frequency` (41_huffman_tree.md R66) is defined in a tree of the shape of R69, and keeps it. -/

namespace Sys2Proof.Machine

section
variable {c : Preset} {t : Tree} {a b p d n : Nat}

/-- The climb from depth `d` is defined with `d` levels to climb. -/
theorem Tree.Shape.exists_sumUp (h : t.Shape c) (ha : t.ancestor c (d + 1) a = some Config.root)
    (hb : Tree.isNode c b = true) (hd : d < n) : ∃ u, Tree.sumUp c n t a b = some u := by
  induction n generalizing t a b d with
  | zero => exact absurd hd (Nat.not_lt_zero d)
  | succ n ih =>
    obtain ⟨p, hp, hdepth⟩ := Option.bind_eq_some_iff.mp ha
    obtain ⟨fa, hfa⟩ := Tree.exists_freqOf (t := t) (Tree.isNode_of_dadOf hp)
    obtain ⟨fb, hfb⟩ := Tree.exists_freqOf (t := t) hb
    obtain ⟨t', ht'⟩ := Tree.exists_setFreq t (fa + fb)
      (Tree.isNode_of_isInternal (h.isInternal_of_dadOf hp))
    have hlinks := Tree.setFreq_sameLinks ht'
    simp only [Tree.sumUp, Option.bind_eq_bind, Option.bind_some, hp, hfa, hfb, ht']
    by_cases hroot : p = Config.root
    · exact ⟨t', if_pos hroot⟩
    · rw [if_neg hroot]
      cases d with
      | zero => exact absurd (Option.some.inj hdepth) hroot
      | succ d =>
        obtain ⟨q, hq, _⟩ := Option.bind_eq_some_iff.mp hdepth
        obtain ⟨b', hb', hnode'⟩ := h.exists_sibling hq
        rw [hlinks.sibling, hb', Option.bind_some]
        exact ih (h.of_sameLinks hlinks (Tree.setFreq_sized ht' h.sized)) ((hlinks.ancestor c _ _).trans hdepth) hnode'
          (by omega)

theorem Tree.exists_rescaleIfFull (c : Preset) (t : Tree) : ∃ u, t.rescaleIfFull c = some u := by
  obtain ⟨f, hf⟩ := Tree.exists_freqOf (t := t) (show Tree.isNode c Config.root = true by cases c <;> rfl)
  simp only [Tree.rescaleIfFull, Option.bind_eq_bind, hf, Option.bind_some]
  split
  · exact ⟨_, rfl⟩
  · exact ⟨_, rfl⟩

theorem Tree.Shape.of_propagate (h : t.Shape c) {u : Tree} (hu : t.propagate c a b = some u) : u.Shape c :=
  h.of_sameLinks (Tree.propagate_sameLinks hu) (Tree.propagate_sized hu h.sized)

theorem Tree.Shape.exists_propagate (h : t.Shape c) (ha : t.dadOf c a = some p) (hb : Tree.isNode c b = true) :
    ∃ u, t.propagate c a b = some u := by
  obtain ⟨d, hd, _⟩ := h.exists_depth_succ ha
  obtain ⟨v, hv⟩ := h.exists_sumUp hd hb (h.depth_le hd)
  obtain ⟨u, hu⟩ := Tree.exists_rescaleIfFull c v
  exact ⟨u, by simp only [Tree.propagate, Option.bind_eq_bind, hv, Option.bind_some, hu]⟩

end

end Sys2Proof.Machine
end

section
/-! SUPPORT. The exchange of R68: it renames two nodes into each other, and so keeps the shape of R69. -/

namespace Sys2Proof.Machine

/-- `u` is `t` with child `v` of node `p` in the place of its child `z`. -/
structure Tree.Replaced (c : Preset) (t : Tree) (p z v : Nat) (u : Tree) : Prop where
  sized : u.Sized c
  dad : u.dad = t.dad
  freq : u.freq = t.freq
  left : ∀ y, u.leftOf c y = if y = p then (t.leftOf c y).map (Function.update id z v) else t.leftOf c y
  right : ∀ y, u.rightOf c y = if y = p then (t.rightOf c y).map (Function.update id z v) else t.rightOf c y

/-- `u` is `t` with nodes `a` and `b` in each other's place. -/
structure Tree.Swapped (c : Preset) (t : Tree) (a b : Nat) (u : Tree) : Prop where
  sized : u.Sized c
  freq : u.freq = t.freq
  dad : ∀ y, u.dadOf c y = t.dadOf c (Equiv.swap a b y)
  left : ∀ y, u.leftOf c y = (t.leftOf c y).map (Equiv.swap a b)
  right : ∀ y, u.rightOf c y = (t.rightOf c y).map (Equiv.swap a b)

section
variable {c : Preset} {t u : Tree} {a b p q v x y z code1 code2 n d : Nat}

/-! ### One child -/

theorem Tree.setLeft_replaced (ht : t.Sized c) (hl : t.leftOf c p = some z) (hr : t.rightOf c p = some y) (hne : z ≠ y)
    (hv : v ≤ c.twiceMax) : ∃ u, t.setLeft c p v = some u ∧ t.Replaced c p z v u := by
  have hset : t.setLeft c p v = some { t with left := t.left.set p (BitVec.ofNat 16 v) } :=
    if_pos (Tree.isInternal_of_leftOf hl)
  refine ⟨_, hset, by simpa [Tree.Sized] using ht, rfl, rfl, fun k => ?_, fun k => ?_⟩
  · rw [Tree.leftOf_setLeft hset ht hv]
    by_cases hk : k = p <;> simp [hk, hl]
  · by_cases hk : k = p
    · subst hk
      rw [if_pos rfl, hr, Option.map_some, Function.update_of_ne hne.symm]
      exact hr
    · rw [if_neg hk]; rfl

theorem Tree.setRight_replaced (ht : t.Sized c) (hl : t.leftOf c p = some y) (hr : t.rightOf c p = some z) (hne : z ≠ y)
    (hv : v ≤ c.twiceMax) : ∃ u, t.setRight c p v = some u ∧ t.Replaced c p z v u := by
  have hset : t.setRight c p v = some { t with right := t.right.set p (BitVec.ofNat 16 v) } :=
    if_pos (Tree.isInternal_of_leftOf hl)
  refine ⟨_, hset, by simpa [Tree.Sized] using ht, rfl, rfl, fun k => ?_, fun k => ?_⟩
  · by_cases hk : k = p
    · subst hk
      rw [if_pos rfl, hl, Option.map_some, Function.update_of_ne hne.symm]
      exact hl
    · rw [if_neg hk]; rfl
  · rw [Tree.rightOf_setRight hset ht hv]
    by_cases hk : k = p <;> simp [hk, hr]

/-- The two tests of R68, for the child and for its sibling, both replace the child. -/
theorem Tree.ChildPair.exists_replaced (h : t.ChildPair c p z y) (ht : t.Sized c) (hne : z ≠ y) (hv : v ≤ c.twiceMax) :
    ∃ l u, t.leftOf c p = some l ∧ (if l = z then t.setLeft c p v else t.setRight c p v) = some u ∧
      (if l = y then t.setRight c p v else t.setLeft c p v) = some u ∧ t.Replaced c p z v u := by
  rcases h with ⟨hl, hr⟩ | ⟨hl, hr⟩
  · obtain ⟨u, hu, hrep⟩ := Tree.setLeft_replaced ht hl hr hne hv
    exact ⟨z, u, hl, by rw [if_pos rfl, hu], by rw [if_neg hne, hu], hrep⟩
  · obtain ⟨u, hu, hrep⟩ := Tree.setRight_replaced ht hl hr hne hv
    exact ⟨y, u, hl, by rw [if_neg hne.symm, hu], by rw [if_pos rfl, hu], hrep⟩

theorem Tree.Replaced.childPair_of_ne (h : t.Replaced c p z v u) (hq : q ≠ p) (hpair : t.ChildPair c q x y) :
    u.ChildPair c q x y := by
  simpa only [Tree.ChildPair, h.left, h.right, if_neg hq] using hpair

/-- The child that stays is on the other side of the one that was replaced (R68). -/
theorem Tree.Replaced.stays {l : Nat} (h : t.Replaced c p z v u) (hpair : t.ChildPair c p z y) (hne : z ≠ y)
    (hl : t.leftOf c p = some l) : (if l = z then u.rightOf c p else u.leftOf c p) = some y := by
  have hkept : (some y).map (Function.update id z v) = some y := by simp [Function.update_of_ne hne.symm]
  rcases hpair with ⟨hl', hr⟩ | ⟨hl', hr⟩
  · obtain rfl := Option.some.inj (hl'.symm.trans hl)
    rw [if_pos rfl, h.right, if_pos rfl, hr, hkept]
  · obtain rfl := Option.some.inj (hl'.symm.trans hl)
    rw [if_neg hne.symm, h.left, if_pos rfl, hl', hkept]

/-! ### The exchange -/

theorem Tree.exists_setDad (t : Tree) (p : Nat) (hx : Tree.hasDad c x = true) : ∃ u, t.setDad c x p = some u :=
  ⟨_, if_pos hx⟩

theorem Tree.setDad_sized (hu : t.setDad c x p = some u) (ht : t.Sized c) : u.Sized c := by
  obtain ⟨_, rfl⟩ := Tree.setDad_eq_some hu
  simpa [Tree.Sized] using ht

theorem Tree.setDad_freq (hu : t.setDad c x p = some u) : u.freq = t.freq := by
  obtain ⟨_, rfl⟩ := Tree.setDad_eq_some hu
  rfl

theorem Tree.leftOf_setDad (hu : t.setDad c x p = some u) (y : Nat) : u.leftOf c y = t.leftOf c y := by
  obtain ⟨_, rfl⟩ := Tree.setDad_eq_some hu
  rfl

theorem Tree.rightOf_setDad (hu : t.setDad c x p = some u) (y : Nat) : u.rightOf c y = t.rightOf c y := by
  obtain ⟨_, rfl⟩ := Tree.setDad_eq_some hu
  rfl

theorem bind_ite_bind {α β : Type} (p : Prop) [Decidable p] (x y : Option α) (f : α → Option β) :
    (if p then x.bind f else y.bind f) = (if p then x else y).bind f :=
  (apply_ite (Option.bind · f) p x y).symm

/-- The exchange from the outcomes of its writes. -/
theorem Tree.exchange_eq_some {upper lower : Nat} {t1 t2 t3 : Tree} (hupper : t.leftOf c code2 = some upper)
    (h1 : (if upper = code1 then t.setRight c code2 a else t.setLeft c code2 a) = some t1)
    (hlower : t1.leftOf c code1 = some lower)
    (h2 : (if lower = a then t1.setLeft c code1 b else t1.setRight c code1 b) = some t2)
    (hstays : (if lower = a then t2.rightOf c code1 else t2.leftOf c code1) = some x)
    (h3 : t2.setDad c b code1 = some t3) (h4 : t3.setDad c a code2 = some u) :
    t.exchange c a b code1 code2 = some (u, x) := by
  simp only [Tree.exchange, Option.bind_eq_bind, bind_ite_bind, Option.bind_some, hupper, h1, hlower, h2, hstays, h3, h4]

/-- Replacing `a` by `b` under `a`'s parent and `b` by `a` under `b`'s renames the two, for the links of one side. -/
theorem relink_eq_map_swap {link : Nat → Option Nat} {dadOf : Nat → Option Nat}
    (hdad : ∀ y k, link y = some k → dadOf k = some y) (ha : dadOf a = some code1) (hb : dadOf b = some code2)
    (hne : code1 ≠ code2) (y : Nat) :
    (if y = code1 then (if y = code2 then (link y).map (Function.update id b a) else link y).map (Function.update id a b)
      else if y = code2 then (link y).map (Function.update id b a) else link y) = (link y).map (Equiv.swap a b) := by
  cases hk : link y with
  | none => simp
  | some k =>
    have hky := hdad y k hk
    have hab : a ≠ b := by rintro rfl; exact hne (Option.some.inj (ha.symm.trans hb))
    by_cases hka : k = a
    · obtain rfl : code1 = y := by subst hka; exact Option.some.inj (ha.symm.trans hky)
      simp [hka, hne]
    · by_cases hkb : k = b
      · obtain rfl : code2 = y := by subst hkb; exact Option.some.inj (hb.symm.trans hky)
        simp [hkb, hne.symm]
      · simp [Function.update_of_ne hka, Function.update_of_ne hkb, Equiv.swap_apply_of_ne_of_ne hka hkb]

/-- The four writes of the exchange, two of children and two of parents, swap `a` and `b`. -/
theorem Tree.Shape.swapped {t1 t2 t3 : Tree} (h : t.Shape c) (hrep1 : t.Replaced c code2 b a t1)
    (hrep2 : t1.Replaced c code1 a b t2) (h3 : t2.setDad c b code1 = some t3) (h4 : t3.setDad c a code2 = some u)
    (ha : t.dadOf c a = some code1) (hb : t.dadOf c b = some code2) (hne : code1 ≠ code2) : t.Swapped c a b u where
  sized := Tree.setDad_sized h4 (Tree.setDad_sized h3 hrep2.sized)
  freq := (Tree.setDad_freq h4).trans ((Tree.setDad_freq h3).trans (hrep2.freq.trans hrep1.freq))
  dad y := by
    have hle {z p : Nat} (hz : t.dadOf c z = some p) : p ≤ c.twiceMax :=
      (Tree.isNode_iff.mp (Tree.isNode_of_isInternal (h.isInternal_of_dadOf hz))).2
    have hlinks : t2.dadOf c y = t.dadOf c y := by simp only [Tree.dadOf, hrep2.dad, hrep1.dad]
    rw [Tree.dadOf_setDad h4 (Tree.setDad_sized h3 hrep2.sized) (hle hb), Tree.dadOf_setDad h3 hrep2.sized (hle ha), hlinks,
      Equiv.swap_apply_def]
    split
    · exact hb.symm
    · split
      · exact ha.symm
      · rfl
  left y := by
    rw [Tree.leftOf_setDad h4, Tree.leftOf_setDad h3, hrep2.left, hrep1.left]
    exact relink_eq_map_swap (fun _ _ => h.dadOf_of_leftOf) ha hb hne y
  right y := by
    rw [Tree.rightOf_setDad h4, Tree.rightOf_setDad h3, hrep2.right, hrep1.right]
    exact relink_eq_map_swap (fun _ _ => h.dadOf_of_rightOf) ha hb hne y

/-- In a tree of the shape of R69 the exchange is defined, swaps `a` with its uncle `b`, and answers `a`'s old sibling. -/
theorem Tree.Shape.exists_exchange (h : t.Shape c) (hlow : t.ChildPair c code1 a x) (hlow' : a ≠ x)
    (hup : t.ChildPair c code2 code1 b) (hup' : code1 ≠ b) (ha : t.dadOf c a = some code1) (hb : t.dadOf c b = some code2)
    (h1 : t.dadOf c code1 = some code2) : ∃ u, t.exchange c a b code1 code2 = some (u, x) ∧ t.Swapped c a b u := by
  have hne : code1 ≠ code2 := (h.dadOf_ne h1).symm
  have hda := Tree.hasDad_of_dadOf ha
  have hdb := Tree.hasDad_of_dadOf hb
  have hb2 := (Tree.hasDad_iff.mp hdb).2
  obtain ⟨upper, t1, hupper, -, hset1, hrep1⟩ :=
    Tree.ChildPair.exists_replaced hup.symm h.sized hup'.symm (Tree.hasDad_iff.mp hda).2
  have hlow1 := hrep1.childPair_of_ne hne hlow
  obtain ⟨lower, t2, hlower, hset2, -, hrep2⟩ := hlow1.exists_replaced hrep1.sized hlow' hb2
  obtain ⟨t3, h3⟩ := Tree.exists_setDad t2 code1 hdb
  obtain ⟨u, h4⟩ := Tree.exists_setDad t3 code2 hda
  exact ⟨u, Tree.exchange_eq_some hupper hset1 hlower hset2 (hrep2.stays hlow1 hlow' hlower) h3 h4,
    h.swapped hrep1 hrep2 h3 h4 ha hb hne⟩

/-! ### What the exchange keeps -/

/-- The nodes no deeper than `b` other than `b` keep their depth when `b` is swapped with a node `a` below it. -/
theorem Tree.Swapped.ancestor_of_le (hu : t.Swapped c a b u) (ha : t.ancestor c (d + 2) a = some Config.root)
    (hb : t.ancestor c (d + 1) b = some Config.root) (hn : n ≤ d) (hy : t.ancestor c n y = some Config.root) :
    u.ancestor c n y = some Config.root := by
  induction n generalizing y with
  | zero => exact hy
  | succ n ih =>
    obtain ⟨p, hp, hdepth⟩ := Option.bind_eq_some_iff.mp hy
    have hya : y ≠ a := by rintro rfl; have := Tree.depth_unique ha hy; omega
    have hyb : y ≠ b := by rintro rfl; have := Tree.depth_unique hb hy; omega
    have hdad : u.dadOf c y = some p := by rw [hu.dad, Equiv.swap_apply_of_ne_of_ne hya hyb, hp]
    rw [Tree.ancestor_succ_of_dadOf hdad]
    exact ih (by omega) hdepth

/-- Every walk up still meets the root: a walk through `a` or `b` goes on from `code1` or `code2`, which stay below it. -/
theorem Tree.Swapped.rooted (hu : t.Swapped c a b u) (ha : t.dadOf c a = some code1) (hb : t.dadOf c b = some code2)
    (h1 : u.dadOf c code1 = some code2) (h2 : u.ancestor c d code2 = some Config.root)
    (hy : t.ancestor c n y = some Config.root) : ∃ m, u.ancestor c m y = some Config.root := by
  induction n generalizing y with
  | zero => exact ⟨0, hy⟩
  | succ n ih =>
    obtain ⟨p, hp, hdepth⟩ := Option.bind_eq_some_iff.mp hy
    have hdad := hu.dad y
    by_cases hya : y = a
    · rw [hya, Equiv.swap_apply_left, hb] at hdad
      exact ⟨d + 1, by rw [hya, Tree.ancestor_succ_of_dadOf hdad, h2]⟩
    · by_cases hyb : y = b
      · rw [hyb, Equiv.swap_apply_right, ha] at hdad
        exact ⟨d + 2, by rw [hyb, Tree.ancestor_succ_of_dadOf hdad, Tree.ancestor_succ_of_dadOf h1, h2]⟩
      · rw [Equiv.swap_apply_of_ne_of_ne hya hyb, hp] at hdad
        obtain ⟨m, hm⟩ := ih hdepth
        exact ⟨m + 1, by rw [Tree.ancestor_succ_of_dadOf hdad, hm]⟩

/-- A renaming of two nodes with parents, after which every node still reaches the root, keeps the shape of R69. -/
theorem Tree.Shape.of_swapped (h : t.Shape c) (hu : t.Swapped c a b u) (ha : Tree.hasDad c a = true)
    (hb : Tree.hasDad c b = true) (hrooted : ∀ x, 1 ≤ x → x ≤ c.twiceMax → ∃ n, u.ancestor c n x = some Config.root) :
    u.Shape c where
  sized := hu.sized
  children i h1 h2 := by
    obtain ⟨l, r, hl, hr, hne, hdl, hdr⟩ := h.children i h1 h2
    exact ⟨Equiv.swap a b l, Equiv.swap a b r, by simp [hu.left, hl], by simp [hu.right, hr],
      (Equiv.swap a b).injective.ne hne, by simp [hu.dad, hdl], by simp [hu.dad, hdr]⟩
  parents x h1 h2 := by
    have hx : Tree.hasDad c (Equiv.swap a b x) = true := by
      rw [Equiv.swap_apply_def]
      split
      · exact hb
      · split
        · exact ha
        · exact Tree.hasDad_iff.mpr ⟨h1, h2⟩
    obtain ⟨p, hp, hp1, hp2, hside⟩ := h.parents _ (Tree.hasDad_iff.mp hx).1 (Tree.hasDad_iff.mp hx).2
    refine ⟨p, (hu.dad x).trans hp, hp1, hp2, hside.imp (fun hl => ?_) fun hr => ?_⟩
    · simp [hu.left, hl]
    · simp [hu.right, hr]
  rooted := hrooted

end

end Sys2Proof.Machine
end

section
/-! SUPPORT. `update_model` (41_huffman_tree.md R68) is defined for every symbol in a tree of the shape of R69, and keeps it. -/

namespace Sys2Proof.Machine

section
variable {c : Preset} {t u : Tree} {a b code1 code2 d n x : Nat}

/-- The place of R68's loop: `code1`, which has the node `a` below it, is below `code2`, and `code2` is at depth `d`. -/
structure Tree.LoopAt (c : Preset) (t : Tree) (a code1 code2 d : Nat) : Prop where
  shape : t.Shape c
  lower : t.dadOf c a = some code1
  upper : t.dadOf c code1 = some code2
  depth : t.ancestor c d code2 = some Config.root

theorem Tree.LoopAt.of_sameLinks (h : t.LoopAt c a code1 code2 d) (hlinks : t.SameLinks u) (hsized : u.Sized c) :
    u.LoopAt c a code1 code2 d where
  shape := h.shape.of_sameLinks hlinks hsized
  lower := (hlinks.dadOf c a).trans h.lower
  upper := (hlinks.dadOf c code1).trans h.upper
  depth := (hlinks.ancestor c d code2).trans h.depth

/-- After `a` and its uncle `b` are swapped, `b` is below `code1`, and `code1` where it was. -/
theorem Tree.LoopAt.of_swapped (h : t.LoopAt c a code1 code2 d) (hb : t.dadOf c b = some code2) (hne : code1 ≠ b)
    (hu : t.Swapped c a b u) : u.LoopAt c b code1 code2 d := by
  have hdepth1 : t.ancestor c (d + 1) code1 = some Config.root :=
    (Tree.ancestor_succ_of_dadOf h.upper d).trans h.depth
  have hdepthA : t.ancestor c (d + 2) a = some Config.root := (Tree.ancestor_succ_of_dadOf h.lower _).trans hdepth1
  have hdepthB : t.ancestor c (d + 1) b = some Config.root := (Tree.ancestor_succ_of_dadOf hb d).trans h.depth
  have hdepth : u.ancestor c d code2 = some Config.root := hu.ancestor_of_le hdepthA hdepthB le_rfl h.depth
  have hupper : u.dadOf c code1 = some code2 := by
    rw [hu.dad, Equiv.swap_apply_of_ne_of_ne (h.shape.dadOf_ne h.lower) hne, h.upper]
  refine ⟨h.shape.of_swapped hu (Tree.hasDad_of_dadOf h.lower) (Tree.hasDad_of_dadOf hb) fun y h1 h2 => ?_, ?_, hupper,
    hdepth⟩
  · obtain ⟨n, hn⟩ := h.shape.rooted y h1 h2
    exact hu.rooted h.lower hb hupper hdepth hn
  · rw [hu.dad, Equiv.swap_apply_right, h.lower]

/-- The exchange and the second propagation of an iteration are defined. -/
theorem Tree.LoopAt.exists_exchange_propagate (h : t.LoopAt c a code1 code2 d) (hup : t.ChildPair c code2 code1 b)
    (hne : code1 ≠ b) (hb : t.dadOf c b = some code2) :
    ∃ v x u, t.exchange c a b code1 code2 = some (v, x) ∧ v.propagate c b x = some u ∧ u.LoopAt c b code1 code2 d := by
  obtain ⟨x, hlow, hlow', hx⟩ := h.shape.exists_childPair h.lower
  obtain ⟨v, hv, hswap⟩ := h.shape.exists_exchange hlow hlow' hup hne h.lower hb h.upper
  have hloop := h.of_swapped hb hne hswap
  obtain ⟨u, hu⟩ := hloop.shape.exists_propagate hloop.lower (Tree.isNode_of_dadOf hx)
  exact ⟨v, x, u, hv, hu,
    hloop.of_sameLinks (Tree.propagate_sameLinks hu) (Tree.propagate_sized hu hloop.shape.sized)⟩

/-- An iteration of R68's loop is defined, and leaves a node below `code1`. -/
theorem Tree.LoopAt.exists_promoteOnce (h : t.LoopAt c a code1 code2 d) :
    ∃ u left, t.promoteOnce c a code1 = some (u, left) ∧ u.LoopAt c left code1 code2 d := by
  obtain ⟨b, hup, hne, hb⟩ := h.shape.exists_childPair h.upper
  obtain ⟨fa, hfa⟩ := Tree.exists_freqOf (t := t) (Tree.isNode_of_dadOf h.lower)
  obtain ⟨fb, hfb⟩ := Tree.exists_freqOf (t := t) (Tree.isNode_of_dadOf hb)
  simp only [Tree.promoteOnce, Option.bind_eq_bind, Option.bind_some, h.upper, hup.otherChild hne, hfa, hfb]
  by_cases hlt : fb < fa
  · obtain ⟨v, x, u, hv, hu, hloop⟩ := h.exists_exchange_propagate hup hne hb
    exact ⟨u, b, by rw [if_pos hlt, hv, Option.bind_some]; simp only [hu, Option.bind_some], hloop⟩
  · exact ⟨t, a, if_neg hlt, h⟩

/-- The loop of R68 is defined with as many levels to climb as `code1` is deep. -/
theorem Tree.LoopAt.exists_promote (h : t.LoopAt c a code1 code2 d) (hn : d < n) :
    ∃ u, Tree.promote c n t a code1 = some u ∧ u.Shape c := by
  induction n generalizing t a code1 code2 d with
  | zero => exact absurd hn (Nat.not_lt_zero d)
  | succ n ih =>
    obtain ⟨u, left, hu, hloop⟩ := h.exists_promoteOnce
    simp only [Tree.promote, Option.bind_eq_bind, hu, Option.bind_some, hloop.lower, hloop.upper]
    by_cases hroot : code2 = Config.root
    · exact ⟨u, if_pos hroot, hloop.shape⟩
    · rw [if_neg hroot]
      cases d with
      | zero => exact absurd (Option.some.inj hloop.depth) hroot
      | succ d =>
        obtain ⟨above, habove, hdepth⟩ := Option.bind_eq_some_iff.mp hloop.depth
        exact ih ⟨hloop.shape, hloop.upper, habove, hdepth⟩ (by omega)

/-- `update_model` is defined for every symbol of the alphabet, and keeps the shape (R68, R69, R93). -/
theorem Tree.Shape.exists_update {sym : Nat} (h : t.Shape c) (hsym : sym ≤ c.maxChar) :
    ∃ u, t.update c sym = some u ∧ u.Shape c := by
  have hleaf : 2 ≤ sym + c.succMax ∧ sym + c.succMax ≤ c.twiceMax := by
    have : 1 ≤ c.maxChar := by cases c <;> decide
    simp only [Preset.twiceMax, Preset.succMax]
    omega
  obtain ⟨code1, hcode1, _⟩ := h.parents _ hleaf.1 hleaf.2
  have hnode := Tree.isNode_of_dadOf hcode1
  obtain ⟨f, hf⟩ := Tree.exists_freqOf (t := t) hnode
  obtain ⟨t1, ht1⟩ := Tree.exists_setFreq t (f + 1) hnode
  have hlinks := Tree.setFreq_sameLinks ht1
  have hshape := h.of_sameLinks hlinks (Tree.setFreq_sized ht1 h.sized)
  have hlower := (hlinks.dadOf c _).trans hcode1
  simp only [Tree.update, Option.bind_eq_bind, hf, ht1, hlower, Option.bind_some]
  by_cases hroot : code1 = Config.root
  · exact ⟨t1, if_pos hroot, hshape⟩
  · obtain ⟨b, hpair, hne, hb⟩ := hshape.exists_childPair hlower
    obtain ⟨t2, ht2⟩ := hshape.exists_propagate hlower (Tree.isNode_of_dadOf hb)
    rw [if_neg hroot, hpair.otherChild hne, Option.bind_some, ht2, Option.bind_some]
    have hshape2 := hshape.of_propagate ht2
    obtain ⟨d, hd⟩ := hshape2.exists_depth (Tree.isNode_of_isInternal (hshape.isInternal_of_dadOf hlower))
    cases d with
    | zero => exact absurd (Option.some.inj hd) hroot
    | succ d =>
      obtain ⟨code2, hupper, hdepth⟩ := Option.bind_eq_some_iff.mp hd
      have hlower2 := ((Tree.propagate_sameLinks ht2).dadOf c _).trans hlower
      exact Tree.LoopAt.exists_promote ⟨hshape2, hlower2, hupper, hdepth⟩ (hshape2.depth_le hd)

end

end Sys2Proof.Machine
end

section
/-! SUPPORT. Output and history (10_state.md R17, 42_lz_copy.md R72 to R74): a byte keeps their law, and a copy under it reads no
cell without a value. -/

namespace Sys2Proof.Machine

theorem Preset.maxSize_pos (c : Preset) : 0 < c.maxSize := by cases c <;> decide

section
variable {s : State} {distance n j : Nat}

theorem HistoryLaw.hcur_lt (h : HistoryLaw s) : s.hcur.toNat < s.cfg.maxSize :=
  h.cursor ▸ Nat.mod_lt _ (Preset.maxSize_pos s.cfg)

/-- Two byte numbers less than `m` apart have different places in a window of `m`. -/
theorem mod_ne_mod_of_lt {i k m : Nat} (hlt : i < k) (hnear : k < i + m) : i % m ≠ k % m := by
  intro heq
  have hdvd : m ∣ k - i := Nat.dvd_of_mod_eq_zero (Nat.sub_mod_eq_zero_of_mod_eq heq.symm)
  have := Nat.le_of_dvd (by omega) hdvd
  omega

/-- `emit_byte` keeps the law of the history (R74). -/
theorem HistoryLaw.afterEmit (h : HistoryLaw s) (v : Byte) (ho : s.outCount.toNat < Config.maxBuf) :
    HistoryLaw (afterEmit v s) := by
  obtain ⟨hcount, hcur, _⟩ := afterEmit_counts v ho h.hcur_lt
  have houtMem : (Machine.afterEmit v s).outMem = s.outMem.write s.outCount.toNat v := rfl
  have hhist : (Machine.afterEmit v s).hist = s.hist.write (s.outCount.toNat % s.cfg.maxSize) v :=
    h.cursor ▸ rfl
  have hcfg : (Machine.afterEmit v s).cfg = s.cfg := rfl
  refine ⟨?_, fun j hj => ?_, fun j hj hwin => ?_⟩
  · rw [hcur, hcount, hcfg, h.cursor, Nat.mod_add_mod]
  · rw [houtMem, Memory.read_write]
    split
    · exact ⟨v, rfl⟩
    · exact h.produced j (by omega)
  · rw [hcount, hcfg] at hwin
    rw [hhist, houtMem, hcfg]
    by_cases hnew : j = s.outCount.toNat
    · rw [hnew, Memory.read_write_same, Memory.read_write_same]
    · rw [Memory.read_write_other _ _ hnew, Memory.read_write_other _ _ (mod_ne_mod_of_lt (by omega) (by omega))]
      exact h.window j (by omega) (by omega)

/-- A byte the window still holds is in `HIST` (R34). -/
theorem HistoryLaw.exists_read (h : HistoryLaw s) (hj : j < s.outCount.toNat)
    (hwin : s.outCount.toNat ≤ j + s.cfg.maxSize) : ∃ v, s.hist.read (j % s.cfg.maxSize) = some v := by
  rw [h.window j hj hwin]
  exact h.produced j hj

/-- A copy starts at the byte `distance` before the next one (R73). -/
theorem HistoryLaw.copySource_eq (h : HistoryLaw s) (hwritten : distance ≤ s.outCount.toNat)
    (hheld : distance ≤ s.cfg.maxSize) : copySource distance s = (s.outCount.toNat - distance) % s.cfg.maxSize := by
  rw [copySource, h.cursor, Nat.add_sub_assoc hheld, Nat.mod_add_mod, ← Nat.add_mod_right (s.outCount.toNat - distance)]
  congr 1
  omega

/-- A copy from bytes the window holds, with room for its own, is defined. -/
theorem HistoryLaw.exists_copyFrom (h : HistoryLaw s) (hpos : 1 ≤ distance) (hwritten : distance ≤ s.outCount.toNat)
    (hheld : distance ≤ s.cfg.maxSize) (hroom : s.outCount.toNat + n ≤ Config.maxBuf) :
    ∃ t, copyFrom n ((s.outCount.toNat - distance) % s.cfg.maxSize) s = .ok t := by
  induction n generalizing s with
  | zero => exact ⟨s, rfl⟩
  | succ n ih =>
    obtain ⟨v, hv⟩ := h.exists_read (j := s.outCount.toNat - distance) (by omega) (by omega)
    have ho : s.outCount.toNat < Config.maxBuf := by omega
    have hcount := (afterEmit_counts v ho h.hcur_lt).1
    have hnext : ((s.outCount.toNat - distance) % s.cfg.maxSize + 1) % s.cfg.maxSize =
        ((Machine.afterEmit v s).outCount.toNat - distance) % s.cfg.maxSize := by
      rw [Nat.mod_add_mod, hcount]
      congr 1
      omega
    obtain ⟨t, ht⟩ := ih (h.afterEmit v ho) (by omega) hheld (by omega)
    refine ⟨t, ?_⟩
    simp only [copyFrom, hv, emitByte_of_room v ho h.hcur_lt]
    exact (congrArg (copyFrom n · (Machine.afterEmit v s)) hnext).trans ht

theorem declMax_lt_maxBuf : Config.declMax < Config.maxBuf := by decide

/-- Every copy is defined: it ends in one of the errors of R78, or its bytes are held and have room. -/
theorem HistoryLaw.exists_execCopy (h : HistoryLaw s) (hdecl : s.declSize.toNat ≤ Config.declMax) (r : Fin 6)
    (len extra : Nat) : ∃ t, execCopy r len extra s = .next t := by
  unfold execCopy
  split
  · exact ⟨_, rfl⟩
  next hruns =>
    obtain ⟨hwritten, hheld, hroom⟩ := copyRefusal_eq_none.mp hruns
    have hbuf := declMax_lt_maxBuf
    rw [copyExec, h.copySource_eq hwritten hheld]
    cases len with
    | zero => exact ⟨s, rfl⟩
    | succ len =>
      have hpos : 1 ≤ copyDistance r (len + 1) extra := by simp only [copyDistance]; omega
      obtain ⟨t, ht⟩ := h.exists_copyFrom (n := len + 1) hpos hwritten hheld (by omega)
      exact ⟨t, outcomeOf_eq_next.mpr ht⟩

theorem HistoryLaw.exists_execLit (h : HistoryLaw s) (hdecl : s.declSize.toNat ≤ Config.declMax) (b : Byte) :
    ∃ t, execLit b s = .next t := by
  unfold execLit
  split
  · exact ⟨_, rfl⟩
  next hroom =>
    have hbuf := declMax_lt_maxBuf
    exact ⟨_, outcomeOf_eq_next.mpr (emitByte_of_room b (by omega) h.hcur_lt)⟩

theorem exists_execTerm (s : State) : ∃ t, execTerm s = .next t := by
  unfold execTerm
  split
  · exact ⟨_, rfl⟩
  · exact ⟨_, rfl⟩

/-- Every item is defined under the law of the history, with a declared size START accepts. -/
theorem HistoryLaw.exists_exec (h : HistoryLaw s) (hdecl : s.declSize.toNat ≤ Config.declMax) (i : Instr) :
    ∃ t, exec i s = .next t := by
  cases i with
  | lit b => exact h.exists_execLit hdecl b
  | term => exact exists_execTerm s
  | copyR0 len extra => exact h.exists_execCopy hdecl 0 len extra.toNat
  | copyR1 len extra => exact h.exists_execCopy hdecl 1 len extra.toNat
  | copyR2 len extra => exact h.exists_execCopy hdecl 2 len extra.toNat
  | copyR3 len extra => exact h.exists_execCopy hdecl 3 len extra.toNat
  | copyR4 len extra => exact h.exists_execCopy hdecl 4 len extra.toNat
  | copyR5 len extra => exact h.exists_execCopy hdecl 5 len extra.toNat

end

end Sys2Proof.Machine
end

section
/-! SUPPORT. A running job with its input loaded never stops the model: the fetch reads written words and stays in the tree, and
the item it fetches is defined. -/

namespace Sys2Proof.Machine

/-- What holds of a running job between any two bits it reads. -/
structure Running (s : State) : Prop where
  shape : s.tree.Shape s.cfg
  reader : ReaderOk s
  loaded : InputLoaded s
  history : HistoryLaw s
  declared : s.declSize.toNat ≤ Config.declMax

/-- The part of a step does not stop the model: it ends with a value and a state of which `Q` holds, or raises an error. -/
def Flow.Runs {α : Type} (Q : α → State → Prop) (x : Flow α) : Prop :=
  (∃ a s, x = .ok a s ∧ Q a s) ∨ ∃ e s, x = .raised e s

section
variable {s t e : State} {n node : Nat}

theorem Running.of_sameButReader (h : Running s) (hframe : SameButReader s t) (hreader : ReaderOk t) : Running t where
  shape := by rw [hframe]; exact h.shape
  reader := hreader
  loaded := hframe.inputLoaded h.loaded
  history := by rw [hframe]; exact ⟨h.history.cursor, h.history.produced, h.history.window⟩
  declared := by rw [hframe]; exact h.declared

theorem Running.of_tree (h : Running s) {u : Tree} (hu : u.Shape s.cfg) : Running { s with tree := u } where
  shape := hu
  reader := ⟨h.reader.law, h.reader.loaded, h.reader.input⟩
  loaded := h.loaded
  history := ⟨h.history.cursor, h.history.produced, h.history.window⟩
  declared := h.declared

theorem Running.of_schedule (h : Running s) (turns : List Turn) : Running { s with schedule := turns } where
  shape := h.shape
  reader := ⟨h.reader.law, h.reader.loaded, h.reader.input⟩
  loaded := h.loaded
  history := ⟨h.history.cursor, h.history.produced, h.history.window⟩
  declared := h.declared

theorem State.Inv.running (h : s.Inv) (hbusy : s.fsm = .busy) (hloaded : InputLoaded s) : Running s where
  shape := (h.job hbusy).shape
  reader := (h.job hbusy).reader
  loaded := hloaded
  history := h.history
  declared := (h.job hbusy).declared

/-! ### The reader -/

/-- Every stream bit of a loaded input has a value. -/
theorem exists_streamBit (h : InputLoaded s) {k : Nat} (hk : k < 16 * s.inLen.toNat) : ∃ b, streamBit s k = some b := by
  obtain ⟨v, hv⟩ := h (k / 16) (by omega)
  exact ⟨_, by rw [streamBit, hv, Option.map_some]⟩

theorem readBit_of_no_bits (h : bitsLeft s = 0) : readBit s = .raised .inputExhausted s := by
  have hc : s.bitcount = 0 := BitVec.eq_of_toNat_eq (by simp only [bitsLeft] at h; simp; omega)
  have hw : s.inLen ≤ s.widx := BitVec.le_def.mpr (by simp only [bitsLeft] at h; omega)
  simp [readBit, hc, hw]

theorem Running.readBit_runs (h : Running s) : (readBit s).Runs fun _ t => Running t ∧ bitsLeft t + 1 = bitsLeft s := by
  have hleft := h.reader.bitpos_add_bitsLeft
  by_cases hzero : bitsLeft s = 0
  · exact .inr ⟨_, _, readBit_of_no_bits hzero⟩
  · obtain ⟨b, hb⟩ := exists_streamBit h.loaded (k := s.bitpos) (by omega)
    obtain ⟨t, ht, hpos, hframe, hreader⟩ := h.reader.exists_readBit (by omega) hb
    have hleft' := hreader.bitpos_add_bitsLeft
    have hlen : t.inLen = s.inLen := by rw [hframe]
    rw [hlen] at hleft'
    exact .inl ⟨b, t, ht, h.of_sameButReader hframe hreader, by omega⟩

theorem Running.readBits_runs (h : Running s) (n : Nat) : (readBits n s).Runs fun _ t => Running t := by
  induction n generalizing s with
  | zero => exact .inl ⟨0, s, rfl, h⟩
  | succ n ih =>
    simp only [readBits]
    rcases h.readBit_runs with ⟨bit, t, hb, hrun, _⟩ | ⟨cause, t, hb⟩
    · rw [hb]
      rcases ih hrun with ⟨v, u, hv, hrun'⟩ | ⟨cause, u, hv⟩
      · exact .inl ⟨bit.toNat + 2 * v, u, by simp only [hv], hrun'⟩
      · exact .inr ⟨cause, u, by simp only [hv]⟩
    · exact .inr ⟨cause, t, by rw [hb]⟩

/-! ### The fetch -/

/-- The descent from an internal node meets a node of the tree on either bit. -/
theorem Tree.Shape.exists_child {c : Preset} {u : Tree} (h : u.Shape c) (hnode : Tree.isInternal c node = true) (bit : Bool) :
    ∃ y, u.child c node bit = some y ∧ Tree.isNode c y = true := by
  have hrange := Tree.isInternal_iff.mp hnode
  obtain ⟨l, r, hl, hr, _, hdl, hdr⟩ := h.children node hrange.1 hrange.2
  cases bit with
  | false => exact ⟨l, hl, Tree.isNode_of_dadOf hdl⟩
  | true => exact ⟨r, hr, Tree.isNode_of_dadOf hdr⟩

/-- The descent ends within the bits there are, at a node of the tree. -/
theorem Running.descend_runs (h : Running s) (hnode : Tree.isInternal s.cfg node = true) (hn : bitsLeft s < n) :
    (descend n node s).Runs fun node t => Running t ∧ t.cfg = s.cfg ∧ t.tree = s.tree ∧ node ≤ s.cfg.twiceMax := by
  induction n generalizing s node with
  | zero => exact absurd hn (Nat.not_lt_zero _)
  | succ n ih =>
    simp only [descend]
    rcases h.readBit_runs with ⟨bit, t, hb, hrun, hless⟩ | ⟨cause, t, hb⟩
    · have hframe := readBit_frame hb
      have hcfg : t.cfg = s.cfg := by rw [hframe]
      have htree : t.tree = s.tree := by rw [hframe]
      obtain ⟨y, hy, hynode⟩ := h.shape.exists_child hnode bit
      have hrange := Tree.isNode_iff.mp hynode
      simp only [hb, hcfg, htree, hy]
      by_cases hin : y ≤ s.cfg.maxChar
      · have hrest := ih hrun (hcfg ▸ Tree.isInternal_iff.mpr ⟨hrange.1, hin⟩) (by omega)
        rw [if_pos hin]
        rwa [hcfg, htree] at hrest
      · exact .inl ⟨y, t, if_neg hin, hrun, hcfg, htree, hrange.2⟩
    · exact .inr ⟨cause, t, by rw [hb]⟩

theorem Running.decodeSymbol_runs (h : Running s) : (decodeSymbol s).Runs fun _ t => Running t := by
  have hroot : Tree.isInternal s.cfg Config.root = true := by cases s.cfg <;> rfl
  simp only [decodeSymbol]
  rcases h.descend_runs hroot (Nat.lt_succ_self _) with ⟨node, t, hd, hrun, hcfg, htree, hnode⟩ | ⟨cause, t, hd⟩
  · have hsym : node - t.cfg.succMax ≤ t.cfg.maxChar := by
      simp only [Preset.twiceMax, Preset.succMax, hcfg] at hnode ⊢
      omega
    obtain ⟨u, hu, hshape⟩ := hrun.shape.exists_update hsym
    exact .inl ⟨node - t.cfg.succMax, _, by simp only [hd, Nat.not_lt.mpr hsym, if_false, hu], hrun.of_tree hshape⟩
  · exact .inr ⟨cause, t, by rw [hd]⟩

theorem Running.fetchOperands_runs (h : Running s) (sym : Nat) : (fetchOperands sym s).Runs fun _ t => Running t := by
  unfold fetchOperands
  split
  · exact .inr ⟨_, _, rfl⟩
  next k _ =>
    rcases h.readBits_runs k.extraBits with ⟨v, t, hv, hrun⟩ | ⟨cause, t, hv⟩
    · exact .inl ⟨_, t, by rw [hv], hrun⟩
    · exact .inr ⟨cause, t, by rw [hv]⟩

theorem Running.fetchInstr_runs (h : Running s) : (fetchInstr s).Runs fun _ t => Running t := by
  unfold fetchInstr
  rcases h.decodeSymbol_runs with ⟨sym, t, hd, hrun⟩ | ⟨cause, t, hd⟩
  · rw [hd]
    exact hrun.fetchOperands_runs sym
  · exact .inr ⟨cause, t, by rw [hd]⟩

/-! ### The step -/

theorem Running.exists_engineStep (h : Running s) : ∃ t, engineStep s = .next t := by
  unfold engineStep
  rcases h.fetchInstr_runs with ⟨i, t, hf, hrun⟩ | ⟨cause, t, hf⟩
  · rw [hf]
    exact hrun.history.exists_exec hrun.declared i
  · exact ⟨_, by rw [hf]⟩

theorem Running.of_engineNext (h : Running s) (hnext : EngineNext s e) : Running e := by
  rw [hnext.eq]
  exact h.of_schedule _

end

end Sys2Proof.Machine
end

section
/-! SUPPORT. The memory windows of the host bus (20_memory.md R37 to R41): how bytes are packed into an access, and where a write
lands. -/

namespace Sys2Proof.Machine

section
variable {s : State} {off a b n w : Nat} {width : Width}

/-- Where the windows of R40 begin and end. -/
theorem window_bounds : inBase = 0x10000 ∧ inEnd = 0x25000 ∧ outBase = 0x40000 ∧ outEnd = 0x4A800 :=
  ⟨rfl, rfl, rfl, rfl⟩

/-! ### Bus errors -/

theorem busError_iff : busError off width = true ↔ off % width.bytes ≠ 0 ∨ (off < inBase ∧ width ≠ .w32) := by
  simp [busError]

/-- Above the register space only the alignment counts (R38). -/
theorem busError_of_aligned (hoff : inBase ≤ off) (ha : off % width.bytes = 0) : busError off width = false := by
  simp [busError, ha, Nat.not_lt.mpr hoff]

theorem hostRead_of_busError (s : State) (h : busError off width = true) :
    hostRead off width s = { data := 0, busError := true } := by
  simp [hostRead, h]

/-- A read's response is a bus error where the access has one (R38). -/
theorem hostRead_busError (off : Nat) (width : Width) (s : State) : (hostRead off width s).busError = busError off width := by
  unfold hostRead
  split
  next h => exact h.symm
  next h => split <;> exact (Bool.eq_false_of_not_eq_true h).symm

/-! ### Packing -/

/-- A byte put below an earlier value (R37). -/
theorem shiftLeft_or_byte {m : Nat} (x : BitVec m) (y : Byte) :
    (x.setWidth 32 <<< 8 ||| y.setWidth 32 : Word) = (x ++ y).setWidth 32 := by
  refine BitVec.eq_of_getLsbD_eq fun i hi => ?_
  simp only [BitVec.getLsbD_or, BitVec.getLsbD_shiftLeft, BitVec.getLsbD_setWidth, BitVec.getLsbD_append]
  by_cases hlow : i < 8
  · simp [hlow, hi]
  · have hy : y.getLsbD i = false := BitVec.getLsbD_of_ge y i (by omega)
    have hx : i - 8 < 32 := by omega
    simp [hlow, hi, hx, hy]

theorem readWindow_one (s : State) (off : Nat) : readWindow s 1 off = (readWindowByte s off).setWidth 32 := by
  simp [readWindow]

/-- A window read of one byte more has that byte lowest. -/
theorem readWindow_succ {m : Nat} {x : BitVec m} (h : readWindow s n (off + 1) = x.setWidth 32) :
    readWindow s (n + 1) off = (x ++ readWindowByte s off).setWidth 32 := by
  rw [readWindow, h, shiftLeft_or_byte]

theorem readWindow_two (s : State) (off : Nat) :
    readWindow s 2 off = (readWindowByte s (off + 1) ++ readWindowByte s off).setWidth 32 :=
  readWindow_succ (readWindow_one s (off + 1))

theorem readWindow_four (s : State) (off : Nat) : readWindow s 4 off =
    readWindowByte s (off + 3) ++ readWindowByte s (off + 2) ++ readWindowByte s (off + 1) ++ readWindowByte s off :=
  (readWindow_succ (readWindow_succ (readWindow_two s (off + 2)))).trans (BitVec.setWidth_eq _)

/-- Where every byte of a window read is 0, it is 0. -/
theorem readWindow_eq_zero (h : ∀ k, off ≤ k → k < off + n → readWindowByte s k = 0) : readWindow s n off = 0 := by
  induction n generalizing off with
  | zero => rfl
  | succ n ih =>
    rw [readWindow, ih fun k hk hlt => h k (by omega) (by omega), h off le_rfl (by omega)]
    rfl

/-! ### Reads -/

/-- An aligned read above the register space answers the window's bytes (R38). -/
theorem hostRead_window (s : State) (hoff : inBase ≤ off) (ha : off % width.bytes = 0) :
    hostRead off width s = { data := readWindow s width.bytes off, busError := false } := by
  simp [hostRead, busError_of_aligned hoff ha, Nat.not_lt.mpr hoff]

theorem Memory.readWord_eq_some {m : Memory} {x : Half} :
    m.readWord w = some x ↔ ∃ low high, m.read (2 * w) = some low ∧ m.read (2 * w + 1) = some high ∧ high ++ low = x := by
  simp [Memory.readWord, Option.bind_eq_some_iff]

theorem readWindowByte_inMem {v : Byte} (ha : a < 2 * Config.maxBuf) (hv : s.inMem.read a = some v) :
    readWindowByte s (inBase + a) = v := by
  have hlow : ¬ inBase + a < inBase := by omega
  have hhigh : inBase + a < inEnd := by simp only [inEnd]; omega
  rw [readWindowByte, if_neg hlow, if_pos hhigh, Nat.add_sub_cancel_left, hv, Option.getD_some]

theorem readWindowByte_outMem {v : Byte} (hmade : a < s.outCount.toNat) (ha : a < Config.maxBuf)
    (hv : s.outMem.read a = some v) : readWindowByte s (outBase + a) = v := by
  obtain ⟨hin, hinEnd, hout, _⟩ := window_bounds
  have hend : outBase + a < outEnd := by simp only [outEnd]; omega
  rw [readWindowByte, if_neg (by omega), if_neg (by omega), if_neg (by omega), if_pos hend, Nat.add_sub_cancel_left,
    if_pos hmade, hv, Option.getD_some]

/-- Nothing is mapped between the windows and after `OUT_MEM` (R40). -/
theorem readWindowByte_unmapped (s : State) (h : (inEnd ≤ off ∧ off < outBase) ∨ outEnd ≤ off) :
    readWindowByte s off = 0 := by
  obtain ⟨hin, hinEnd, hout, houtEnd⟩ := window_bounds
  unfold readWindowByte
  rw [if_neg (by omega), if_neg (by omega)]
  rcases h with ⟨_, hlt⟩ | hge
  · rw [if_pos hlt]
  · rw [if_neg (by omega), if_neg (by omega)]

/-- The start of a window is aligned for every width. -/
theorem mod_bytes_add (base : Nat) (hbase : base % 4 = 0) (width : Width) (a : Nat) (ha : a % width.bytes = 0) :
    (base + a) % width.bytes = 0 := by
  cases width <;> simp only [Width.bytes] at ha ⊢ <;> omega

/-- An aligned read of `IN_MEM` (R37). -/
theorem hostRead_inMem (s : State) (ha : a % width.bytes = 0) :
    hostRead (inBase + a) width s = { data := readWindow s width.bytes (inBase + a), busError := false } :=
  hostRead_window s (Nat.le_add_right _ _) (mod_bytes_add inBase rfl width a ha)

/-- An aligned read of `OUT_MEM` (R41). -/
theorem hostRead_outMem (s : State) (ha : a % width.bytes = 0) :
    hostRead (outBase + a) width s = { data := readWindow s width.bytes (outBase + a), busError := false } :=
  hostRead_window s ((by decide : inBase ≤ outBase).trans (Nat.le_add_right _ _)) (mod_bytes_add outBase rfl width a ha)

/-- The two window bytes of a word of `IN_MEM` (R35). -/
theorem readWindowByte_word {x : Half} (hw : w < Config.maxBuf) (hx : s.inMem.readWord w = some x) :
    readWindowByte s (inBase + (2 * w + 1)) ++ readWindowByte s (inBase + 2 * w) = x := by
  obtain ⟨low, high, hlow, hhigh, rfl⟩ := Memory.readWord_eq_some.mp hx
  rw [readWindowByte_inMem (by omega) hlow, readWindowByte_inMem (by omega) hhigh]

/-- Aligned reads of unmapped offsets give 0 (R40): no access reaches across the start of a window. -/
theorem readWindow_unmapped (s : State) (ha : off % width.bytes = 0) (h : (inEnd ≤ off ∧ off < outBase) ∨ outEnd ≤ off) :
    readWindow s width.bytes off = 0 := by
  refine readWindow_eq_zero fun k hk hlt => readWindowByte_unmapped s (h.imp (fun hmid => ⟨hmid.1.trans hk, ?_⟩) hk.trans')
  obtain ⟨_, _, hout, _⟩ := window_bounds
  have hbelow := hmid.2
  cases width <;> simp only [Width.bytes] at ha hlt <;> omega

/-- An aligned 32-bit window of `IN_MEM` is two words, the lower-numbered one low (R35, R37). -/
theorem readWindow_words {j : Nat} {x y : Half} (hj : 4 * j < 2 * Config.maxBuf) (hx : s.inMem.readWord (2 * j) = some x)
    (hy : s.inMem.readWord (2 * j + 1) = some y) : readWindow s 4 (inBase + 4 * j) = y ++ x := by
  have hmax : Config.maxBuf = 43008 := rfl
  have hlow := readWindowByte_word (w := 2 * j) (by omega) hx
  have hhigh := readWindowByte_word (w := 2 * j + 1) (by omega) hy
  rw [readWindow_four, BitVec.append_assoc, ← hlow, ← hhigh, show 4 * j = 2 * (2 * j) by omega]
  rfl

/-! ### Writes -/

/-- What `n` bytes of `v` written from `a` leave (R37). -/
theorem read_writeInMem (n a : Nat) (v : Word) (m : Memory) (k : Nat) (hk : k < n) :
    (writeInMem n a v m).read (a + k) = some (v.extractLsb' (8 * k) 8) := by
  induction n generalizing a v m k with
  | zero => exact absurd hk (Nat.not_lt_zero k)
  | succ n ih =>
    rw [writeInMem]
    cases k with
    | zero =>
      rw [Nat.add_zero a, read_writeInMem_other _ _ _ _ _ (.inl (Nat.lt_add_one a)), Memory.read_write_same,
        BitVec.setWidth_eq_extractLsb' (by decide)]
    | succ k =>
      rw [show a + (k + 1) = a + 1 + k by omega, ih _ _ _ _ (by omega)]
      congr 1
      refine BitVec.eq_of_getLsbD_eq fun i hi => ?_
      simp [hi, show 8 + (8 * k + i) = 8 * (k + 1) + i by omega]

/-- A write of two bytes or more holds a word of `v` at each even offset from its start. -/
theorem readWord_writeInMem (n a : Nat) (v : Word) (m : Memory) (k : Nat) (hk : k + 1 < n) (hw : 2 * w = a + k) :
    (writeInMem n a v m).readWord w = some (v.extractLsb' (8 * k) 16) := by
  refine Memory.readWord_eq_some.mpr ⟨_, _, hw ▸ read_writeInMem n a v m k (by omega), ?_,
    BitVec.extractLsb'_append_extractLsb'_eq_extractLsb' rfl⟩
  rw [hw, Nat.add_assoc, read_writeInMem n a v m (k + 1) hk]
  rfl

/-- An aligned write of `IN_MEM` while not BUSY (R37, R41). -/
theorem hostWrite_inMem (v : Word) (hfree : s.fsm ≠ .busy) (ha : a < 2 * Config.maxBuf) (halign : a % width.bytes = 0) :
    hostWrite (inBase + a) width v s = { s with inMem := writeInMem width.bytes a v s.inMem } := by
  have hoff : inBase ≤ inBase + a := Nat.le_add_right _ _
  have hend : inBase + a < inEnd := by simp only [inEnd]; omega
  have hoff' : (inBase + a) % width.bytes = 0 := mod_bytes_add inBase rfl width a halign
  simp [hostWrite, busError_of_aligned hoff hoff', writeWindow, hfree, hend]

/-- A write above the register space changes nothing but `IN_MEM`. -/
theorem hostWrite_window (v : Word) (hoff : inBase ≤ off) : ∃ m, hostWrite off width v s = { s with inMem := m } := by
  unfold hostWrite
  split
  · exact ⟨s.inMem, rfl⟩
  · rw [if_neg (Nat.not_lt.mpr hoff), writeWindow]
    split
    · exact ⟨_, rfl⟩
    · exact ⟨s.inMem, rfl⟩

/-- No write lands above `IN_MEM` (R37). -/
theorem hostWrite_above_inMem (v : Word) (s : State) (hoff : inEnd ≤ off) : hostWrite off width v s = s := by
  have hin : ¬ off < inBase := Nat.not_lt.mpr ((by decide : inBase ≤ inEnd).trans hoff)
  have hwindow : ¬ (inBase ≤ off ∧ off < inEnd ∧ s.fsm ≠ .busy) := fun h => absurd h.2.1 (Nat.not_lt.mpr hoff)
  simp only [hostWrite, if_neg hin, writeWindow, if_neg hwindow, ite_self]

end

end Sys2Proof.Machine
end

section
/-! CERTIFICATE. The statements about the memory (20_memory.md). -/

namespace Sys2Proof.Machine

/-- Settles O42: a running job stays one through every bit it fetches, and every item is defined in it. -/
theorem engineNeverStops : Obligations.EngineNeverStops := by
  intro s e hinv hbusy hnext hloaded
  have hbusy' : e.fsm = .busy := by rw [hnext.eq]; exact hbusy
  obtain ⟨t, ht⟩ := ((hinv.running hbusy hloaded).of_engineNext hnext).exists_engineStep
  exact ⟨t, by rw [step_of_engineNext hnext, engineTurn, if_pos hbusy', ht]⟩

/-- Settles O9: a bit comes from the word held or from the one loaded, and the law of R62 says which stream bit that is. -/
theorem readBitDeliversStreamBit : Obligations.ReadBitDeliversStreamBit :=
  fun _ _ h hleft hb => h.exists_readBit hleft hb

/-- Settles O56: a read packs the bytes it names, and a write of `n` bytes leaves at each the byte of `v` of the same number. -/
theorem inMemHostAccesses : Obligations.InMemHostAccesses := by
  refine ⟨fun s => ⟨fun a b ha hb => ?_, fun w x hw hx => ?_, fun j x y hj hx hy => ?_⟩, fun s v hfree =>
    ⟨fun j hj => ?_, fun w hw => ?_, fun b hb => ?_, fun off w hoff => hostWrite_window v hoff⟩⟩
  · exact (hostRead_inMem (width := .w8) s (Nat.mod_one a)).trans
      (by rw [Width.bytes, readWindow_one, readWindowByte_inMem ha hb])
  · exact (hostRead_inMem (width := .w16) s (Nat.mul_mod_right 2 w)).trans
      (by rw [Width.bytes, readWindow_two, Nat.add_assoc, readWindowByte_word hw hx])
  · exact (hostRead_inMem (width := .w32) s (Nat.mul_mod_right 4 j)).trans (by rw [Width.bytes, readWindow_words hj hx hy])
  · have hwrite := hostWrite_inMem (width := .w32) v hfree hj (Nat.mul_mod_right 4 j)
    rw [show 0x10000 = inBase from rfl, hwrite]
    exact ⟨readWord_writeInMem 4 _ v s.inMem 0 (by decide) (by omega),
      readWord_writeInMem 4 _ v s.inMem 2 (by decide) (by omega),
      fun a ha => read_writeInMem_other 4 _ a v s.inMem (by omega)⟩
  · have hwrite := hostWrite_inMem (width := .w16) (a := 2 * w) v hfree (by omega) (Nat.mul_mod_right 2 w)
    rw [show 0x10000 = inBase from rfl, hwrite]
    exact ⟨readWord_writeInMem 2 _ v s.inMem 0 (by decide) rfl,
      fun a ha => read_writeInMem_other 2 _ a v s.inMem (by omega)⟩
  · have hwrite := hostWrite_inMem (width := .w8) v hfree hb (Nat.mod_one b)
    rw [show 0x10000 = inBase from rfl, hwrite]
    exact ⟨read_writeInMem 1 b v s.inMem 0 (by decide),
      fun a ha => read_writeInMem_other 1 _ a v s.inMem (by omega)⟩

/-- Settles O52: an access is in the window or outside it, and `hostAccess` asks which. -/
theorem hostAccessesReachTheWindow : Obligations.HostAccessesReachTheWindow := by
  intro addr w v s
  refine ⟨rfl, ?_, fun hlow hhigh => ?_, fun hout => ?_, fun a rest hs => ?_⟩
  · simp only [hostAccess]
    split <;> exact ⟨_, rfl⟩
  · have hin : s.blockBase ≤ addr ∧ addr < s.blockBase + Config.windowBytes := ⟨hlow, hhigh⟩
    rw [hostRead_busError]
    exact ⟨if_pos hin, if_pos hin⟩
  · have hin : ¬ (s.blockBase ≤ addr ∧ addr < s.blockBase + Config.windowBytes) := fun h =>
      hout.elim (Nat.not_lt.mpr h.1) (Nat.not_le.mpr h.2)
    exact ⟨if_neg hin, if_neg hin⟩
  · simp only [step, hs]

/-- Settles O57: no byte of an aligned access of an unmapped offset is mapped, and `OUT_MEM` packs its bytes as `IN_MEM` does. -/
theorem otherWindows : Obligations.OtherWindows := by
  intro s
  refine ⟨fun off w ha hoff => ?_, fun n b hn hbuf hb => ?_, fun n b0 b1 ha hn hbuf h0 h1 => ?_,
    fun n b0 b1 b2 b3 ha hn hbuf h0 h1 h2 h3 => ?_, fun off w v hoff => hostWrite_above_inMem v s hoff⟩
  · rw [hostRead_window s (show 0x10000 ≤ off by omega) ha, readWindow_unmapped s ha hoff]
  · exact (hostRead_outMem (width := .w8) s (Nat.mod_one n)).trans
      (by rw [Width.bytes, readWindow_one, readWindowByte_outMem hn hbuf hb])
  · have hb0 := readWindowByte_outMem (by omega) (by omega) h0
    have hb1 := readWindowByte_outMem hn hbuf h1
    exact (hostRead_outMem (width := .w16) s ha).trans
      (by rw [Width.bytes, readWindow_two, Nat.add_assoc, hb0, hb1])
  · have hb0 := readWindowByte_outMem (by omega) (by omega) h0
    have hb1 := readWindowByte_outMem (by omega) (by omega) h1
    have hb2 := readWindowByte_outMem (by omega) (by omega) h2
    have hb3 := readWindowByte_outMem hn hbuf h3
    refine (hostRead_outMem (width := .w32) s ha).trans ?_
    rw [Width.bytes, readWindow_four]
    simp only [Nat.add_assoc, hb0, hb1, hb2, hb3]

/-- Settles O55: `busError` is the condition of R38, and both accesses ask it first. -/
theorem busErrors : Obligations.BusErrors := by
  intro off w v s
  refine ⟨fun h => ?_, fun ha hr => ?_⟩
  · have herr : busError off w = true := busError_iff.mpr h
    exact ⟨hostWrite_of_busError v s herr, hostRead_of_busError s herr⟩
  · rw [hostRead_busError]
    refine Bool.eq_false_of_not_eq_true fun herr => ?_
    rcases busError_iff.mp herr with h | ⟨hoff, hw⟩
    · exact h ha
    · exact hw (hr hoff)

end Sys2Proof.Machine
end

section
/-! SUPPORT. The items of the stream (30_encoding.md R51 to R54): which symbol, length and extra field an item has, and the
decoder of an extra field as the inverse of its encoder. -/

namespace Sys2Proof.Machine

open Laws.SymbolMap (classOf copySymbol_class)

section
variable {c : Preset} {s n v len extra : Nat} {r : Fin 6} {k : SymbolClass} {bits rest : List Bool}

/-! ### The extra field -/

theorem bitsOfExtra_succ (b : Bool) (n v : Nat) : bitsOfExtra (n + 1) (b.toNat + 2 * v) = b :: bitsOfExtra n v := by
  have hrest : (b.toNat + 2 * v) / 2 = v := by have := Bool.toNat_lt b; omega
  rw [bitsOfExtra, hrest]
  cases b <;> simp [Nat.add_mod]

/-- A value of `n` bits is its lowest bit and a value of the others. -/
theorem exists_bit_of_lt (h : v < 2 ^ (n + 1)) : ∃ (b : Bool) (u : Nat), v = b.toNat + 2 * u ∧ u < 2 ^ n := by
  refine ⟨decide (v % 2 = 1), v / 2, ?_, by omega⟩
  by_cases hodd : v % 2 = 1 <;> simp [hodd] <;> omega

theorem bit_lt_of_lt (b : Bool) (h : v < 2 ^ n) : b.toNat + 2 * v < 2 ^ (n + 1) := by
  have := Bool.toNat_le b
  omega

/-- The decoder of an extra field takes the bits its encoder gives, and no others (R51, R60). -/
theorem extraOfBits_eq_ok_iff :
    extraOfBits n bits = .ok (v, rest) ↔ v < 2 ^ n ∧ bits = bitsOfExtra n v ++ rest := by
  induction n generalizing bits v with
  | zero => simp [extraOfBits, bitsOfExtra, eq_comm]
  | succ n ih =>
    constructor
    · intro h
      cases bits with
      | nil => cases h
      | cons b bits =>
        simp only [extraOfBits] at h
        split at h
        · cases h
        next u tail hu =>
          cases h
          obtain ⟨hlt, rfl⟩ := ih.mp hu
          exact ⟨bit_lt_of_lt b hlt, by rw [bitsOfExtra_succ, List.cons_append]⟩
    · rintro ⟨hlt, rfl⟩
      obtain ⟨b, u, rfl, hu⟩ := exists_bit_of_lt hlt
      rw [bitsOfExtra_succ, List.cons_append, extraOfBits, ih.mpr ⟨hu, rfl⟩]

/-! ### The item of a copy -/

@[simp] theorem wellFormed_copyOf (c : Preset) (r : Fin 6) (len extra : Nat) :
    WellFormed c (Instr.copyOf r len extra) = lengthOk c len := by
  match r with
  | 0 | 1 | 2 | 3 | 4 | 5 => rfl

@[simp] theorem symbol_copyOf (c : Preset) (r : Fin 6) (len extra : Nat) :
    (Instr.copyOf r len extra).symbol c = copySymbol c r len := by
  match r with
  | 0 | 1 | 2 | 3 | 4 | 5 => rfl

theorem extraField_copyOf (len : Nat) (h : extra < 2 ^ Config.copyBits r) :
    (Instr.copyOf r len extra).extraField = bitsOfExtra (Config.copyBits r) extra := by
  match r with
  | 0 | 1 | 2 | 3 | 4 | 5 => exact congrArg (bitsOfExtra _) (Nat.mod_eq_of_lt h)

/-! ### The symbol map -/

theorem lengthOk_iff : lengthOk c len = true ↔ Config.minCopy ≤ len ∧ len ≤ c.maxCopy := by
  simp [lengthOk]

/-- Symbol `s` is a copy exactly where it is the symbol of that copy's range and length (R53, R54). -/
theorem classify_eq_copy_iff : classify c s = some (.copy r len) ↔ lengthOk c len = true ∧ s = copySymbol c r len := by
  constructor
  · intro h
    simp only [classify] at h
    split at h
    · cases h
    · split at h
      · cases h
      · split at h
        next hlit hterm hindex =>
          injection h with h
          injection h with hr hlen
          have hcodes : c.codesPerRange = c.maxCopy - 3 + 1 := rfl
          have hmax : 3 ≤ c.maxCopy := by cases c <;> decide
          have hsplit := Nat.div_add_mod (s - Config.firstCode) c.codesPerRange
          have hmod := Nat.mod_lt (s - Config.firstCode) (show 0 < c.codesPerRange by omega)
          rw [Nat.mul_comm] at hsplit
          subst hr hlen
          simp only [lengthOk_iff, copySymbol, Config.minCopy, Config.firstCode, Config.terminate] at *
          omega
        · cases h
  · rintro ⟨hlen, rfl⟩
    exact (copySymbol_class c r len hlen).2

/-- What the item of a symbol's class is (R54): a well-formed item with that symbol. -/
theorem toInstr_of_classify (h : classify c s = some k) (v : Nat) :
    WellFormed c (k.toInstr v) = true ∧ (k.toInstr v).symbol c = s := by
  cases k with
  | copy r len =>
    obtain ⟨hlen, rfl⟩ := classify_eq_copy_iff.mp h
    exact ⟨(wellFormed_copyOf c r len v).trans hlen, symbol_copyOf c r len v⟩
  | lit b =>
    simp only [classify] at h
    split at h
    next hlt =>
      cases h
      exact ⟨rfl, Nat.mod_eq_of_lt hlt⟩
    · split at h
      · cases h
      · split at h <;> cases h
  | term =>
    simp only [classify] at h
    split at h
    · cases h
    · split at h
      next hterm => exact ⟨rfl, hterm.symm⟩
      · split at h <;> cases h

theorem extraField_toInstr (h : v < 2 ^ k.extraBits) : (k.toInstr v).extraField = bitsOfExtra k.extraBits v := by
  cases k with
  | lit b => rfl
  | term => rfl
  | copy r len => exact extraField_copyOf len h

/-- Every item is its class with the value of its extra field. -/
theorem exists_toInstr (i : Instr) : ∃ v, v < 2 ^ (classOf i).extraBits ∧ (classOf i).toInstr v = i := by
  cases i with
  | lit b => exact ⟨0, Nat.one_pos, rfl⟩
  | term => exact ⟨0, Nat.one_pos, rfl⟩
  | copyR0 len e | copyR1 len e | copyR2 len e | copyR3 len e | copyR4 len e | copyR5 len e =>
    exact ⟨e.toNat, e.isLt, by simp [classOf, SymbolClass.toInstr, Instr.copyOf]⟩

/-- The symbol map of every item (R51, R54). -/
theorem symbolMap (i : Instr) : Laws.SymbolMap.Statement i := by
  cases i with
  | lit b => exact Laws.SymbolMap.lit b
  | term => exact Laws.SymbolMap.term
  | copyR0 len e => exact Laws.SymbolMap.copyR0 len e
  | copyR1 len e => exact Laws.SymbolMap.copyR1 len e
  | copyR2 len e => exact Laws.SymbolMap.copyR2 len e
  | copyR3 len e => exact Laws.SymbolMap.copyR3 len e
  | copyR4 len e => exact Laws.SymbolMap.copyR4 len e
  | copyR5 len e => exact Laws.SymbolMap.copyR5 len e

end

end Sys2Proof.Machine
end

section
/-! SUPPORT. The code of a symbol (30_encoding.md R49, R55, R56): a path is a code exactly where the descent along it ends, and so
the decoder and the encoder of an item are inverse in a tree of the shape of R69. -/

namespace Sys2Proof.Machine

/-- The node to which the bits of `path` lead from `node` (R49). -/
def Tree.walk (c : Preset) (t : Tree) : Nat → List Bool → Option Nat
  | node, [] => some node
  | node, bit :: path => (t.child c node bit).bind (Tree.walk c t · path)

section
variable {c : Preset} {t : Tree} {x p d n s node leaf : Nat} {b : Bool} {path code below bits rest : List Bool} {i : Instr}
  {k : SymbolClass}

theorem Preset.root_le_maxChar (c : Preset) : Config.root ≤ c.maxChar := by cases c <;> decide

theorem Preset.twiceMax_eq (c : Preset) : c.twiceMax = 2 * c.maxChar + 1 := by
  simp only [Preset.twiceMax, Preset.succMax]
  omega

/-- The leaf of a symbol is a node below the root (R6). -/
theorem leaf_bounds (hs : s ≤ c.maxChar) : 2 ≤ s + c.succMax ∧ s + c.succMax ≤ c.twiceMax := by
  have : 1 ≤ c.maxChar := Preset.root_le_maxChar c
  have := Preset.twiceMax_eq c
  simp only [Preset.succMax]
  omega

/-! ### Walks down -/

theorem Tree.walk_append (c : Preset) (t : Tree) (node : Nat) (path rest : List Bool) :
    t.walk c node (path ++ rest) = (t.walk c node path).bind (t.walk c · rest) := by
  induction path generalizing node with
  | nil => rfl
  | cons b path ih => simp only [List.cons_append, Tree.walk, ih, Option.bind_assoc]

theorem Tree.walk_concat (c : Preset) (t : Tree) (node : Nat) (path : List Bool) (b : Bool) :
    t.walk c node (path ++ [b]) = (t.walk c node path).bind (t.child c · b) := by
  simp [Tree.walk_append, Tree.walk]

theorem Tree.isInternal_of_child (h : t.child c p b = some x) : Tree.isInternal c p = true := by
  cases b with
  | false => exact Tree.isInternal_of_leftOf h
  | true => exact Tree.isInternal_of_rightOf h

/-- `x` is the child of its parent on the bit that says whether it is the right one (R49). -/
theorem Tree.Shape.child_eq_some_iff (h : t.Shape c) : t.child c p b = some x ↔
    t.dadOf c x = some p ∧ ∃ r, t.rightOf c p = some r ∧ b = decide (r = x) := by
  constructor
  · intro hx
    have hp := Tree.isInternal_iff.mp (Tree.isInternal_of_child hx)
    obtain ⟨l, r, hl, hr, hne, hdl, hdr⟩ := h.children p hp.1 hp.2
    cases b with
    | false =>
      obtain rfl := Option.some.inj (hl.symm.trans hx)
      exact ⟨hdl, r, hr, (decide_eq_false hne.symm).symm⟩
    | true =>
      obtain rfl := Option.some.inj (hr.symm.trans hx)
      exact ⟨hdr, r, hr, (decide_eq_true rfl).symm⟩
  · rintro ⟨hdad, r, hr, rfl⟩
    obtain ⟨y, ⟨hl, hr'⟩ | ⟨hl, hr'⟩, hne, _⟩ := h.exists_childPair hdad
    · obtain rfl := Option.some.inj (hr'.symm.trans hr)
      simpa [Tree.child, hne.symm] using hl
    · obtain rfl := Option.some.inj (hr'.symm.trans hr)
      simpa [Tree.child] using hr

/-- A walk of `n` bits down from the root is a climb of `n` levels up to it. -/
theorem Tree.Shape.exists_walk_iff (h : t.Shape c) :
    (∃ path, path.length = n ∧ t.walk c Config.root path = some x) ↔ t.ancestor c n x = some Config.root := by
  induction n generalizing x with
  | zero => simp [Tree.walk, Tree.ancestor, eq_comm]
  | succ n ih =>
    rw [Tree.ancestor_succ, Option.bind_eq_some_iff]
    constructor
    · rintro ⟨path, hlen, hwalk⟩
      obtain rfl | ⟨path, b, rfl⟩ := path.eq_nil_or_concat'
      · cases hlen
      · rw [Tree.walk_concat] at hwalk
        obtain ⟨p, hp, hchild⟩ := Option.bind_eq_some_iff.mp hwalk
        exact ⟨p, (h.child_eq_some_iff.mp hchild).1, ih.mp ⟨path, by simpa using hlen, hp⟩⟩
    · rintro ⟨p, hdad, hdepth⟩
      obtain ⟨path, rfl, hwalk⟩ := ih.mpr hdepth
      have hp := Tree.isInternal_iff.mp (h.isInternal_of_dadOf hdad)
      obtain ⟨_, r, _, hr, _⟩ := h.children p hp.1 hp.2
      refine ⟨path ++ [decide (r = x)], by simp, ?_⟩
      rw [Tree.walk_concat, hwalk]
      exact h.child_eq_some_iff.mpr ⟨hdad, r, hr, rfl⟩

theorem Tree.Shape.ancestor_of_walk (h : t.Shape c) (hwalk : t.walk c Config.root path = some x) :
    t.ancestor c path.length x = some Config.root := h.exists_walk_iff.mp ⟨path, rfl, hwalk⟩

/-- Only the empty walk leads from the root to the root. -/
theorem Tree.Shape.walk_root_iff (h : t.Shape c) : t.walk c Config.root path = some Config.root ↔ path = [] := by
  constructor
  · intro hwalk
    exact List.eq_nil_of_length_eq_zero (Tree.depth_unique (h.ancestor_of_walk hwalk) rfl)
  · rintro rfl
    rfl

/-! ### Codes -/

/-- The climb of the encoder puts before `below` the bits that lead down from the root (R49). -/
theorem Tree.Shape.pathBits_eq_some_iff (h : t.Shape c) : pathBits c t n x below = some bits ↔
    ∃ path, path.length ≤ n ∧ t.walk c Config.root path = some x ∧ bits = path ++ below := by
  have atRoot (m : Nat) (bits below : List Bool) : some below = some bits ↔
      ∃ path, path.length ≤ m ∧ t.walk c Config.root path = some Config.root ∧ bits = path ++ below := by
    simp [h.walk_root_iff, eq_comm]
  induction n generalizing x below with
  | zero =>
    by_cases hx : x = Config.root
    · subst hx
      rw [pathBits, if_pos rfl, ← atRoot]
    · simp [pathBits, hx, Tree.walk, eq_comm]
  | succ n ih =>
    by_cases hx : x = Config.root
    · subst hx
      rw [pathBits, if_pos rfl, ← atRoot]
    · simp only [pathBits, if_neg hx, Option.bind_eq_bind, Option.bind_eq_some_iff, ih]
      constructor
      · rintro ⟨p, hdad, r, hr, path, hlen, hwalk, rfl⟩
        refine ⟨path ++ [decide (r = x)], by simpa using hlen, ?_, by simp⟩
        rw [Tree.walk_concat, hwalk]
        exact h.child_eq_some_iff.mpr ⟨hdad, r, hr, rfl⟩
      · rintro ⟨path, hlen, hwalk, rfl⟩
        obtain rfl | ⟨path, b, rfl⟩ := path.eq_nil_or_concat'
        · exact absurd (Option.some.inj hwalk).symm hx
        · rw [Tree.walk_concat] at hwalk
          obtain ⟨p, hp, hchild⟩ := Option.bind_eq_some_iff.mp hwalk
          obtain ⟨hdad, r, hr, rfl⟩ := h.child_eq_some_iff.mp hchild
          exact ⟨p, hdad, r, hr, path, by simpa using hlen, hp, by simp⟩

/-- The code of a symbol is the path from the root to its leaf (R49). -/
theorem Tree.Shape.codeOf_eq_some_iff (h : t.Shape c) :
    codeOf c t s = some code ↔ t.walk c Config.root code = some (s + c.succMax) := by
  rw [codeOf, h.pathBits_eq_some_iff]
  constructor
  · rintro ⟨path, _, hwalk, rfl⟩
    rwa [List.append_nil]
  · intro hwalk
    exact ⟨code, h.depth_le (h.ancestor_of_walk hwalk), hwalk, (List.append_nil code).symm⟩

/-- Every symbol has a code, of 1 to MAXCHAR bits (R55). -/
theorem Tree.Shape.exists_codeOf (h : t.Shape c) (hs : s ≤ c.maxChar) :
    ∃ code, codeOf c t s = some code ∧ 1 ≤ code.length ∧ code.length ≤ c.maxChar := by
  obtain ⟨hlow, hhigh⟩ := leaf_bounds hs
  obtain ⟨p, hdad, _⟩ := h.parents _ hlow hhigh
  obtain ⟨d, hdepth, _⟩ := h.exists_depth_succ hdad
  obtain ⟨code, hlen, hwalk⟩ := h.exists_walk_iff.mpr hdepth
  exact ⟨code, h.codeOf_eq_some_iff.mpr hwalk, by omega, hlen.trans_le (h.depth_le hdepth)⟩

/-! ### The descent -/

/-- No step leads down from a leaf. -/
theorem Tree.walk_of_leaf (hnode : c.maxChar < node) : t.walk c node path = some leaf ↔ path = [] ∧ node = leaf := by
  cases path with
  | nil => simp [Tree.walk]
  | cons b path =>
    have hnone : t.child c node b = none := by
      refine Option.eq_none_iff_forall_ne_some.mpr fun x hx => ?_
      have := Tree.isInternal_iff.mp (Tree.isInternal_of_child hx)
      omega
    simp [Tree.walk, hnone]

/-- A walk that leaves `node` takes the first of the bits it begins. -/
theorem Tree.exists_walk_cons_iff (hne : node ≠ leaf) :
    (∃ path, t.walk c node path = some leaf ∧ b :: bits = path ++ rest) ↔
      ∃ next, t.child c node b = some next ∧ ∃ path, t.walk c next path = some leaf ∧ bits = path ++ rest := by
  constructor
  · rintro ⟨path, hwalk, hbits⟩
    cases path with
    | nil => exact absurd (Option.some.inj hwalk) hne
    | cons b' path =>
      obtain ⟨rfl, rfl⟩ := List.cons.inj hbits
      obtain ⟨next, hchild, hwalk⟩ := Option.bind_eq_some_iff.mp hwalk
      exact ⟨next, hchild, path, hwalk, rfl⟩
  · rintro ⟨next, hchild, path, hwalk, rfl⟩
    exact ⟨b :: path, by rw [Tree.walk, hchild, Option.bind_some, hwalk], rfl⟩

/-- From an internal node, the descent ends at `leaf` exactly where a walk to it begins the bits (R49, R65). -/
theorem descendBits_eq_ok_iff (hnode : node ≤ c.maxChar) : descendBits c t node bits = .ok (leaf, rest) ↔
    c.maxChar < leaf ∧ ∃ path, t.walk c node path = some leaf ∧ bits = path ++ rest := by
  induction bits generalizing node with
  | nil =>
    refine ⟨fun h => by simp [descendBits] at h, fun ⟨hleaf, path, hwalk, hbits⟩ => ?_⟩
    obtain ⟨rfl, -⟩ := List.append_eq_nil_iff.mp hbits.symm
    exact absurd (Option.some.inj hwalk) (by omega)
  | cons b bits ih =>
    rw [and_congr_right fun hleaf => Tree.exists_walk_cons_iff (by omega)]
    cases hchild : t.child c node b with
    | none => simp [descendBits, hchild]
    | some next =>
      simp only [descendBits, hchild, Option.some.injEq, exists_eq_left']
      by_cases hnext : next ≤ c.maxChar
      · rw [if_pos hnext, ih hnext]
      · simp only [if_neg hnext, Tree.walk_of_leaf (Nat.not_le.mp hnext), Except.ok.injEq, Prod.mk.injEq]
        constructor
        · rintro ⟨rfl, rfl⟩
          exact ⟨Nat.not_le.mp hnext, [], ⟨rfl, rfl⟩, rfl⟩
        · rintro ⟨_, _, ⟨rfl, rfl⟩, rfl⟩
          exact ⟨rfl, rfl⟩

/-- The descent from a node at depth `d` ends at a leaf where bits for MAXCHAR levels are left (R55, R56). -/
theorem Tree.Shape.exists_descendBits (h : t.Shape c) (hnode : Tree.isInternal c node = true)
    (hdepth : t.ancestor c d node = some Config.root) (hlong : c.maxChar ≤ d + bits.length) :
    ∃ leaf rest, descendBits c t node bits = .ok (leaf, rest) ∧ c.succMax ≤ leaf ∧ leaf ≤ c.twiceMax := by
  induction bits generalizing node d with
  | nil =>
    obtain ⟨x, hx, _⟩ := h.exists_child hnode false
    have hdad := (h.child_eq_some_iff.mp hx).1
    have := h.depth_le ((Tree.ancestor_succ_of_dadOf hdad d).trans hdepth)
    simp only [List.length_nil] at hlong
    omega
  | cons b bits ih =>
    obtain ⟨x, hx, hxnode⟩ := h.exists_child hnode b
    have hdad := (h.child_eq_some_iff.mp hx).1
    have hrange := Tree.isNode_iff.mp hxnode
    simp only [descendBits, hx]
    by_cases hin : x ≤ c.maxChar
    · rw [if_pos hin]
      refine ih (d := d + 1) (Tree.isInternal_iff.mpr ⟨hrange.1, hin⟩) ((Tree.ancestor_succ_of_dadOf hdad d).trans hdepth) ?_
      simp only [List.length_cons] at hlong
      omega
    · exact ⟨x, bits, if_neg hin, Nat.not_le.mp hin, hrange.2⟩

/-! ### Items -/

theorem encodeItem_eq_some_iff : encodeItem c t i = some bits ↔
    WellFormed c i = true ∧ ∃ code, codeOf c t (i.symbol c) = some code ∧ code ++ i.extraField = bits := by
  simp [encodeItem]

theorem decodeItem_eq_ok_iff : decodeItem c t bits = .ok (i, rest) ↔ ∃ leaf tail k v,
    descendBits c t Config.root bits = .ok (leaf, tail) ∧ classify c (leaf - c.succMax) = some k ∧
      extraOfBits k.extraBits tail = .ok (v, rest) ∧ k.toInstr v = i := by
  constructor
  · intro h
    simp only [decodeItem] at h
    split at h
    · cases h
    next leaf tail hdesc =>
      split at h
      · cases h
      next k hk =>
        split at h
        · cases h
        next v tail' hv =>
          cases h
          exact ⟨leaf, tail, k, v, hdesc, hk, hv, rfl⟩
  · rintro ⟨leaf, tail, k, v, hdesc, hk, hv, rfl⟩
    simp only [decodeItem, hdesc, hk, hv]

/-- The bits that decode to an item are those that begin with its encoding (R48, R49, R51, R56). -/
theorem Tree.Shape.decodeItem_iff_encodeItem (h : t.Shape c) : decodeItem c t bits = .ok (i, rest) ↔
    ∃ taken, encodeItem c t i = some taken ∧ bits = taken ++ rest := by
  simp only [decodeItem_eq_ok_iff, descendBits_eq_ok_iff (Preset.root_le_maxChar c), extraOfBits_eq_ok_iff,
    encodeItem_eq_some_iff, h.codeOf_eq_some_iff]
  constructor
  · rintro ⟨leaf, _, k, v, ⟨hleaf, code, hwalk, rfl⟩, hk, ⟨hv, rfl⟩, rfl⟩
    obtain ⟨hwf, hsym⟩ := toInstr_of_classify hk v
    have hback : leaf - c.succMax + c.succMax = leaf := Nat.sub_add_cancel hleaf
    refine ⟨_, ⟨hwf, code, by rw [hsym, hback, hwalk], rfl⟩, ?_⟩
    rw [extraField_toInstr hv, List.append_assoc]
  · rintro ⟨_, ⟨hwf, code, hwalk, rfl⟩, rfl⟩
    obtain ⟨v, hv, hi⟩ := exists_toInstr i
    obtain ⟨_, hk, _⟩ := symbolMap i c hwf
    have hleaf : c.maxChar < i.symbol c + c.succMax := by simp only [Preset.succMax]; omega
    refine ⟨_, _, _, v, ⟨hleaf, code, hwalk, List.append_assoc ..⟩, by rwa [Nat.add_sub_cancel], ⟨hv, ?_⟩, hi⟩
    rw [← extraField_toInstr hv, hi]

/-! ### The codes after START -/

theorem dropLast_bits_bit (b : Bool) {y : Nat} (hy : y ≠ 0) :
    (Nat.bit b y).bits.dropLast = b :: y.bits.dropLast := by
  have hne : y.bits ≠ [] := fun h => hy (Nat.size_eq_zero.mp (by rw [← Nat.size_eq_bits_len, h, List.length_nil]))
  rw [Nat.bits_append_bit y b fun h => absurd h hy, List.dropLast_cons_of_ne_nil hne]

/-- In the tree of `init_tree` the climb from a node gives its binary digits without the leading 1 (R50). -/
theorem pathBits_init (ht : t.Sized c) (h1 : 1 ≤ x) (hx : x ≤ c.twiceMax) (hn : x ≤ 2 * n + 1) :
    pathBits c (t.init c) n x below = some (x.bits.dropLast.reverse ++ below) := by
  have atRoot (below : List Bool) : some below = some (Config.root.bits.dropLast.reverse ++ below) := by
    rw [show Config.root = 1 from rfl, Nat.one_bits]
    rfl
  induction n generalizing x below with
  | zero =>
    obtain rfl : x = Config.root := Nat.le_antisymm hn h1
    rw [pathBits, if_pos rfl, atRoot]
  | succ n ih =>
    by_cases hroot : x = Config.root
    · subst hroot
      rw [pathBits, if_pos rfl, atRoot]
    · obtain ⟨b, y, rfl⟩ : ∃ b y, x = Nat.bit b y := ⟨x.bodd, x.div2, (Nat.bit_bodd_div2 x).symm⟩
      have hval := Nat.bit_val b y
      have hb := Bool.toNat_le b
      have h2 : 2 ≤ Nat.bit b y := Nat.lt_of_le_of_ne h1 (Ne.symm hroot)
      have hmax := Preset.twiceMax_eq c
      have hbit : decide (2 * y + 1 = Nat.bit b y) = b := by cases b <;> simp [Nat.bit_val]
      simp only [pathBits, if_neg hroot, Option.bind_eq_bind, Tree.dadOf_init ht h2 hx, Nat.bit_div_two, Option.bind_some,
        Tree.rightOf_init ht (show 1 ≤ y by omega) (by omega), hbit]
      rw [ih (by omega) (by omega) (by omega), dropLast_bits_bit b (by omega), List.reverse_cons, List.append_assoc]
      rfl

/-! ### The words of the opcode table -/

theorem startTree_shape (c : Preset) : (startTree c).Shape c := Tree.shape_init (Tree.reset_sized c)

theorem tableSymbol_of_lt (hsym : s < 2048) : tableSymbol (s % 2 ^ 16) = s := by
  simp only [tableSymbol]
  omega

/-- A word of the opcode table that is a symbol, with an extra field of 0, stands for that symbol's item (R54). -/
theorem decodeTableWord_of_classify (hsym : s < 2048) (hk : classify .a2m s = some k) :
    decodeTableWord 16 s = some (k.toInstr 0) := by
  have hpos := Nat.two_pow_pos k.extraBits
  obtain ⟨hwf, hself⟩ := toInstr_of_classify hk 0
  have hbound := (symbolMap _ _ hwf).1
  rw [hself] at hbound
  obtain ⟨code, hcode, -⟩ := (startTree_shape .a2m).exists_codeOf hbound
  have hencode : encodeItem .a2m (startTree .a2m) (k.toInstr 0) = some (code ++ bitsOfExtra k.extraBits 0) :=
    encodeItem_eq_some_iff.mpr ⟨hwf, code, by rw [hself, hcode], by rw [extraField_toInstr hpos]⟩
  have hdecode := (startTree_shape .a2m).decodeItem_iff_encodeItem.mpr ⟨_, hencode, (List.append_nil _).symm⟩
  have hbits : tableBits .a2m (startTree .a2m) 16 s = some (code ++ bitsOfExtra k.extraBits 0) := by
    have hnoExtra : s % 2 ^ 16 / 2048 = 0 := by omega
    simp only [tableBits, tableSymbol_of_lt hsym, hk, hcode, hnoExtra, Option.bind_eq_bind, Option.bind_some, if_pos hpos,
      Option.map_some]
  simp [decodeTableWord, hbits, hdecode]

/-- A word whose symbol has no class stands for no instruction (R54). -/
theorem decodeTableWord_of_no_class (hsym : s < 2048) (hk : classify .a2m s = none) :
    decodeTableWord 16 s = none := by
  have hbits : tableBits .a2m (startTree .a2m) 16 s = none := by
    simp only [tableBits, tableSymbol_of_lt hsym, hk, Option.bind_eq_bind, Option.bind_none]
  simp [decodeTableWord, hbits]

end

end Sys2Proof.Machine
end

section
/-! SUPPORT. `COPY len, dist` of R57 (30_encoding.md): the six ranges divide the distances, so a length and a distance have at most one
copy. -/

namespace Sys2Proof.Machine

section
variable {c : Preset} {len extra extra' dist : Nat} {r r' : Fin 6} {i : Instr}

/-- Each range ends where a later one may begin (R7). -/
theorem copyMin_add_le (h : r < r') : Config.copyMin r + 2 ^ Config.copyBits r ≤ Config.copyMin r' := by
  revert r r'
  decide

/-- The last offset of the ranges is 21839 (R57). -/
theorem copyMin_add_le_last (r : Fin 6) : Config.copyMin r + 2 ^ Config.copyBits r ≤ 21840 := by
  revert r
  decide

/-- The ranges leave no offset out (R7, R57). -/
theorem exists_range {offset : Nat} (h : offset ≤ 21839) :
    ∃ r, Config.copyMin r ≤ offset ∧ offset < Config.copyMin r + 2 ^ Config.copyBits r := by
  have cover : offset < 16 ∨ (16 ≤ offset ∧ offset < 80) ∨ (80 ≤ offset ∧ offset < 336) ∨
      (336 ≤ offset ∧ offset < 1360) ∨ (1360 ≤ offset ∧ offset < 5456) ∨ (5456 ≤ offset ∧ offset < 21840) := by omega
  rcases cover with hr | hr | hr | hr | hr | hr
  · exact ⟨0, Nat.zero_le _, hr⟩
  · exact ⟨1, hr⟩
  · exact ⟨2, hr⟩
  · exact ⟨3, hr⟩
  · exact ⟨4, hr⟩
  · exact ⟨5, hr⟩

/-- A length and a distance determine the range and the extra field (R57). -/
theorem copyDistance_inj (he : extra < 2 ^ Config.copyBits r) (he' : extra' < 2 ^ Config.copyBits r')
    (h : copyDistance r' len extra' = copyDistance r len extra) : r' = r ∧ extra' = extra := by
  simp only [copyDistance] at h
  rcases lt_trichotomy r' r with hlt | rfl | hlt
  · have := copyMin_add_le hlt
    omega
  · exact ⟨rfl, by omega⟩
  · have := copyMin_add_le hlt
    omega

/-- The distances a length has are the offsets 0 to 21839 beyond it (R57). -/
theorem exists_copyDistance_iff : (∃ r extra, extra < 2 ^ Config.copyBits r ∧ copyDistance r len extra = dist) ↔
    len ≤ dist ∧ dist - len ≤ 21839 := by
  simp only [copyDistance]
  constructor
  · rintro ⟨r, extra, he, rfl⟩
    have := copyMin_add_le_last r
    omega
  · rintro ⟨hle, hlast⟩
    obtain ⟨r, hlow, hhigh⟩ := exists_range hlast
    exact ⟨r, dist - len - Config.copyMin r, by omega, by omega⟩

/-- The test by which `COPY len, dist` finds its range (R57). -/
def holdsOffset (offset : Nat) (r : Fin 6) : Bool :=
  Config.copyMin r ≤ offset && offset ≤ Config.copyMin r + 2 ^ Config.copyBits r - 1

theorem copyPseudo_of_le (hle : len ≤ dist) : copyPseudo c len dist =
    ((List.finRange 6).find? (holdsOffset (dist - len))).bind fun r => copyx c r len (dist - len - Config.copyMin r) :=
  if_neg (Nat.not_lt.mpr hle)

/-- The range that holds the offset of a distance, and its extra field. -/
theorem copyDistance_eq_iff (hle : len ≤ dist) : (extra < 2 ^ Config.copyBits r ∧ copyDistance r len extra = dist) ↔
    holdsOffset (dist - len) r = true ∧ extra = dist - len - Config.copyMin r := by
  have hpos := Nat.two_pow_pos (Config.copyBits r)
  simp only [copyDistance, holdsOffset, Bool.and_eq_true, decide_eq_true_eq]
  omega

theorem copyx_eq_some_iff (hlen : lengthOk c len = true) : copyx c r len extra = some i ↔
    extra < 2 ^ Config.copyBits r ∧ Instr.copyOf r len extra = i := by
  simp [copyx, hlen]

/-- `COPY len, dist` is the copy of that length whose range and extra field give that distance (R57). -/
theorem copyPseudo_eq_some_iff (hlen : lengthOk c len = true) : copyPseudo c len dist = some i ↔
    ∃ r extra, extra < 2 ^ Config.copyBits r ∧ copyDistance r len extra = dist ∧ Instr.copyOf r len extra = i := by
  constructor
  · intro h
    by_cases hlt : dist < len
    · simp [copyPseudo, hlt] at h
    · rw [copyPseudo_of_le (Nat.not_lt.mp hlt)] at h
      obtain ⟨r, hfind, h⟩ := Option.bind_eq_some_iff.mp h
      obtain ⟨he, hi⟩ := (copyx_eq_some_iff hlen).mp h
      have hdist := (copyDistance_eq_iff (Nat.not_lt.mp hlt)).mpr ⟨List.find?_some hfind, rfl⟩
      exact ⟨r, _, he, hdist.2, hi⟩
  · rintro ⟨r, extra, he, hdist, hi⟩
    have hle : len ≤ dist := (exists_copyDistance_iff.mp ⟨r, extra, he, hdist⟩).1
    obtain ⟨hholds, hextra⟩ := (copyDistance_eq_iff hle).mp ⟨he, hdist⟩
    rw [copyPseudo_of_le hle]
    cases hfind : (List.finRange 6).find? (holdsOffset (dist - len)) with
    | none => exact absurd hholds (List.find?_eq_none.mp hfind r (List.mem_finRange r))
    | some r' =>
      obtain ⟨he', hdist'⟩ := (copyDistance_eq_iff hle).mpr ⟨List.find?_some hfind, rfl⟩
      obtain ⟨rfl, -⟩ := copyDistance_inj he he' (hdist'.trans hdist.symm)
      exact (copyx_eq_some_iff hlen).mpr (hextra ▸ ⟨he, hi⟩)

end

end Sys2Proof.Machine
end

section
/-! SUPPORT. The bits `read_bits` delivers (40_bitstream_reader.md R60), and what an item the machine fetches is made of
(42_lz_copy.md R75). -/

namespace Sys2Proof.Machine

section
variable {s t : State} {n v sym : Nat} {b : Bool} {i : Instr}

theorem SameButReader.streamBit (h : SameButReader s t) (k : Nat) : streamBit t k = streamBit s k := by
  rw [h]
  rfl

/-- Every bit `read_bit` answers is the stream bit at the cursor, which moves by one (R36, R58, R61). -/
theorem ReaderOk.of_readBit (h : ReaderOk s) (hb : readBit s = .ok b t) :
    streamBit s s.bitpos = some b ∧ t.bitpos = s.bitpos + 1 ∧ ReaderOk t := by
  rcases readBit_ok hb with ⟨hc, rfl, rfl⟩ | ⟨hc, hw, v, hv, rfl, rfl⟩
  · exact ⟨streamBit_held h.law hc, bitpos_afterShift h.law hc, h.afterShift hc⟩
  · have hword := (loadWord_eq_ok.mp hv).2
    have hpos : s.bitpos = 16 * s.widx.toNat := by simp [State.bitpos, hc]
    refine ⟨?_, bitpos_afterLoad v hc hw, h.afterLoad hw hword⟩
    rw [hpos, streamBit, Nat.mul_div_cancel_left _ (by decide), Nat.mul_mod_right, hword, BitVec.msb_eq_getLsbD_last]
    rfl

theorem readBits_succ_ok (h : readBits (n + 1) s = .ok v t) :
    ∃ b u w, readBit s = .ok b u ∧ readBits n u = .ok w t ∧ v = b.toNat + 2 * w := by
  simp only [readBits] at h
  split at h
  · cases h
  · cases h
  next b u hb =>
    split at h
    · cases h
    · cases h
    next w _ hw =>
      cases h
      exact ⟨b, u, w, hb, hw, rfl⟩

theorem testBit_bit_add (b : Bool) (w : Nat) :
    (b.toNat + 2 * w).testBit 0 = b ∧ ∀ i, (b.toNat + 2 * w).testBit (i + 1) = w.testBit i := by
  rw [Nat.add_comm, ← Nat.bit_val]
  exact ⟨Nat.testBit_bit_zero b w, fun i => Nat.testBit_bit_succ i b w⟩

/-- Bit `i` of the value `read_bits` answers is the stream bit `i` after the cursor, which moves by `n` (R60, R61). -/
theorem ReaderOk.of_readBits (h : ReaderOk s) (hv : readBits n s = .ok v t) :
    t.bitpos = s.bitpos + n ∧ ∀ i, i < n → streamBit s (s.bitpos + i) = some (v.testBit i) := by
  induction n generalizing s v with
  | zero =>
    cases hv
    exact ⟨rfl, fun i hi => absurd hi (Nat.not_lt_zero i)⟩
  | succ n ih =>
    obtain ⟨b, u, w, hb, hw, rfl⟩ := readBits_succ_ok hv
    obtain ⟨hbit, hpos, hu⟩ := h.of_readBit hb
    obtain ⟨hend, hbits⟩ := ih hu hw
    obtain ⟨hzero, hsucc⟩ := testBit_bit_add b w
    refine ⟨by omega, fun i hi => ?_⟩
    cases i with
    | zero => rw [Nat.add_zero, hbit, hzero]
    | succ i =>
      rw [hsucc, ← hbits i (by omega), (readBit_frame hb).streamBit, hpos]
      congr 1
      omega

/-- The item `fetchOperands` answers is made of the symbol's class and the bits read. -/
theorem fetchOperands_ok (h : fetchOperands sym s = .ok i t) :
    ∃ k v, classify s.cfg sym = some k ∧ readBits k.extraBits s = .ok v t ∧ k.toInstr v = i := by
  simp only [fetchOperands] at h
  split at h
  · cases h
  next k hk =>
    split at h
    · cases h
    · cases h
    next v _ hv =>
      cases h
      exact ⟨k, v, hk, hv, rfl⟩

theorem fetchInstr_ok (h : fetchInstr s = .ok i t) :
    ∃ sym u, decodeSymbol s = .ok sym u ∧ fetchOperands sym u = .ok i t := by
  simp only [fetchInstr] at h
  split at h
  · cases h
  · cases h
  next sym u hsym => exact ⟨sym, u, hsym, h⟩

/-- `decode_symbol` keeps the preset. -/
theorem decodeSymbol_cfg (h : decodeSymbol s = .ok sym t) : t.cfg = s.cfg := by
  obtain ⟨_, _, u, _, hdesc, _, _, rfl⟩ := decodeSymbol_ok h
  have hkept : u.cfg = s.cfg := by rw [descend_frame hdesc]
  exact hkept

end

end Sys2Proof.Machine
end

section
/-! CERTIFICATE. The statements about the encoding (30_encoding.md). -/

namespace Sys2Proof.Machine

/-- Settles O2: an item's encoding followed by any bits is a list of bits that begins with its encoding. -/
theorem encodedItemDecodes : Obligations.EncodedItemDecodes :=
  fun _ _ _ bits _ hshape hbits => hshape.decodeItem_iff_encodeItem.mpr ⟨bits, hbits, rfl⟩

/-- Settles O3: the other direction of the same equivalence, and only a well-formed item has an encoding. -/
theorem decodedItemEncodes : Obligations.DecodedItemEncodes := by
  intro c t bits rest i hshape hdecode
  obtain ⟨taken, hencode, hbits⟩ := hshape.decodeItem_iff_encodeItem.mp hdecode
  exact ⟨(encodeItem_eq_some_iff.mp hencode).1, taken, hencode, hbits⟩

/-- Settles O4: a leaf is below the root and no deeper than there are internal nodes. -/
theorem everyItemHasACode : Obligations.EveryItemHasACode := by
  intro c t i hshape hwf
  obtain ⟨code, hcode, hpos, hmax⟩ := hshape.exists_codeOf (symbolMap i c hwf).1
  exact ⟨code, hcode, hpos, hmax, encodeItem_eq_some_iff.mpr ⟨hwf, code, hcode, rfl⟩⟩

/-- Settles O5: the descent from the root, at depth 0. -/
theorem longEnoughBitsHoldASymbol : Obligations.LongEnoughBitsHoldASymbol := by
  intro c t bits hshape hlong
  have hroot : Tree.isInternal c Config.root = true := Tree.isInternal_iff.mpr ⟨le_rfl, Preset.root_le_maxChar c⟩
  exact hshape.exists_descendBits (d := 0) hroot rfl (by omega)

/-- Settles O6: the climb from the symbol's leaf in the tree of `init_tree`, with nothing below it. -/
theorem initialCodesAreBinary : Obligations.InitialCodesAreBinary := by
  intro c t s hsized hs
  obtain ⟨hlow, hhigh⟩ := leaf_bounds hs
  have hmax := Preset.twiceMax_eq c
  exact (pathBits_init hsized (by omega) hhigh (by omega)).trans (by rw [List.append_nil])

/-- Settles O7: a copy symbol is the symbol of a length its range has, and the distance adds the extra field to it. -/
theorem copyOperandRanges : Obligations.CopyOperandRanges := by
  intro c s r len extra hclass hextra
  obtain ⟨hmin, hmax⟩ := lengthOk_iff.mp (classify_eq_copy_iff.mp hclass).1
  refine ⟨hmin, hmax, ?_⟩
  simp only [copyDistance]
  omega

/-- Settles O8: the ranges cover the offsets 0 to 21839, each once. -/
theorem pseudoCopyIsUnique : Obligations.PseudoCopyIsUnique := by
  intro c len dist hlen
  simp only [copyPseudo_eq_some_iff hlen]
  refine ⟨?_, ?_⟩
  · rw [← exists_copyDistance_iff]
    constructor
    · rintro ⟨_, r, extra, he, hdist, _⟩
      exact ⟨r, extra, he, hdist⟩
    · rintro ⟨r, extra, he, hdist⟩
      exact ⟨_, r, extra, he, hdist, rfl⟩
  · rintro i ⟨r, extra, he, rfl, rfl⟩
    exact ⟨r, extra, he, rfl, rfl, fun r' extra' he' hdist => copyDistance_inj he he' hdist⟩

/-- Settles O10: the value's bound, and its bits one by one. -/
theorem readBitsWeighsFirstBitLeast : Obligations.ReadBitsWeighsFirstBitLeast :=
  fun _ _ _ _ hreader hread => ⟨readBits_lt hread, hreader.of_readBits hread⟩

/-- Settles O13: the item is one of a symbol's class, and that class holds only lengths the preset encodes. -/
theorem fetchedItemIsWellFormed : Obligations.FetchedItemIsWellFormed := by
  intro s t i hfetch
  obtain ⟨sym, u, hsym, hoperands⟩ := fetchInstr_ok hfetch
  obtain ⟨k, v, hclass, _, rfl⟩ := fetchOperands_ok hoperands
  rw [decodeSymbol_cfg hsym] at hclass
  exact (toInstr_of_classify hclass v).1

/-- Settles O1: each word is a symbol with an extra field of 0, and the symbol map gives its class. -/
theorem tableWordsDecode : Obligations.TableWordsDecode := by
  have item (sym : Nat) (k : SymbolClass) (hsym : sym < 2048) (hk : classify .a2m sym = some k) :
      decodeTableWord 16 sym = some (k.toInstr 0) := decodeTableWord_of_classify hsym hk
  exact ⟨item 0x000 (.lit 0) (by decide) (by decide), item 0x0FF (.lit 255) (by decide) (by decide),
    item 0x100 .term (by decide) (by decide),
    item 0x101 (.copy 0 3) (by decide) (by decide), item 0x1FD (.copy 0 255) (by decide) (by decide),
    item 0x1FE (.copy 1 3) (by decide) (by decide), item 0x2FA (.copy 1 255) (by decide) (by decide),
    item 0x2FB (.copy 2 3) (by decide) (by decide), item 0x3F7 (.copy 2 255) (by decide) (by decide),
    item 0x3F8 (.copy 3 3) (by decide) (by decide), item 0x4F4 (.copy 3 255) (by decide) (by decide),
    item 0x4F5 (.copy 4 3) (by decide) (by decide), item 0x5F1 (.copy 4 255) (by decide) (by decide),
    item 0x5F2 (.copy 5 3) (by decide) (by decide), item 0x6EE (.copy 5 255) (by decide) (by decide),
    decodeTableWord_of_no_class (by decide) (by decide)⟩

end Sys2Proof.Machine
end

section
/-! SUPPORT. The bit reader as a reader of the list of stream bits ahead (40_bitstream_reader.md R58 to R61): a part of the fetch
and the same part of the list decoder end alike. -/

namespace Sys2Proof.Machine

section
variable {α : Type} {s t u e : State} {n v sym node : Nat} {b : Bool} {i : Instr} {cause : ErrCause}

theorem SameButReader.sameButFetch (h : SameButReader s t) : SameButFetch s t := by
  unfold SameButFetch
  rw [h]

theorem SameButFetch.trans (h : SameButFetch s t) (k : SameButFetch t u) : SameButFetch s u := by
  unfold SameButFetch at *
  rw [k, h]

/-- From `s` the reader came to `u`, which has no bit left (R59). -/
structure RanOut (s u : State) : Prop where
  frame : SameButFetch s u
  reader : ReaderOk u
  left : bitsLeft u = 0

theorem RanOut.of_frame (h : SameButFetch s t) (hout : RanOut t u) : RanOut s u :=
  { hout with frame := h.trans hout.frame }

/-- Where no bit is left, the cursor has passed the whole input (R61). -/
theorem RanOut.bitpos_eq (h : RanOut s u) : u.bitpos = 16 * s.inLen.toNat := by
  have hsum := h.reader.bitpos_add_bitsLeft
  have hlen : u.inLen = s.inLen := by rw [h.frame]
  rwa [h.left, hlen] at hsum

/-! ### One bit -/

/-- A bit the reader delivers is the first of the bits ahead (R36, R58). -/
theorem ReaderOk.bitsAhead_of_readBit (h : ReaderOk s) (hb : readBit s = .ok b t) : bitsAhead s = b :: bitsAhead t := by
  obtain ⟨hbit, hpos, ht⟩ := h.of_readBit hb
  have hframe := readBit_frame hb
  have hlen : t.inLen = s.inLen := by rw [hframe]
  have hsum := ht.bitpos_add_bitsLeft
  have hcount : 16 * s.inLen.toNat - s.bitpos = 16 * s.inLen.toNat - (s.bitpos + 1) + 1 := by rw [hlen] at hsum; omega
  simp only [bitsAhead, hframe.streamBit, hlen, hpos, hcount, List.range_succ_eq_map, List.map_cons, List.map_map,
    Nat.add_zero, hbit, Option.getD_some]
  simp only [Function.comp_def, Nat.succ_eq_add_one, Nat.add_assoc, Nat.add_comm 1]

theorem bitsLeft_of_exhausted (hcount : s.bitcount = 0) (hwords : s.inLen ≤ s.widx) : bitsLeft s = 0 := by
  simp [bitsLeft, hcount, Nat.sub_eq_zero_of_le (BitVec.le_def.mp hwords)]

/-- The reader raises where no bit is ahead, and stays there (R59). -/
theorem ReaderOk.of_readBit_raised (h : ReaderOk s) (hb : readBit s = .raised cause t) :
    cause = .inputExhausted ∧ bitsAhead s = [] ∧ RanOut s t := by
  obtain ⟨rfl, rfl, hcount, hwords⟩ := readBit_raised hb
  have hleft : bitsLeft t = 0 := bitsLeft_of_exhausted hcount hwords
  have hsum := h.bitpos_add_bitsLeft
  refine ⟨rfl, ?_, rfl, h, hleft⟩
  rw [bitsAhead, ← hsum, hleft, Nat.add_zero, Nat.sub_self]
  rfl

/-! ### Parts of the fetch -/

/-- A part of the fetch, run from `s`, ends as the list decoder does, whose outcome on the bits ahead is `list`: it answers the same
value with the same bits left ahead, or raises INPUT_EXHAUSTED where the list runs out. A stop is left open. -/
def Flow.Reads (s : State) (list : Except DecodeError (α × List Bool)) : Flow α → Prop
  | .ok a t => list = .ok (a, bitsAhead t) ∧ ReaderOk t
  | .raised cause t => cause = .inputExhausted ∧ list = .error .outOfBits ∧ RanOut s t
  | .stop _ => True

theorem Flow.Reads.of_frame {list : Except DecodeError (α × List Bool)} {x : Flow α} (hframe : SameButFetch s t)
    (h : x.Reads t list) : x.Reads s list := by
  cases x with
  | ok a u => exact h
  | raised cause u =>
    obtain ⟨hcause, hlist, hout⟩ := h
    exact ⟨hcause, hlist, hout.of_frame hframe⟩
  | stop f => trivial

/-- `read_bits` is the list decoder's extra field (R51, R60). -/
theorem ReaderOk.readBits_reads (h : ReaderOk s) (n : Nat) : (readBits n s).Reads s (extraOfBits n (bitsAhead s)) := by
  induction n generalizing s with
  | zero => exact ⟨rfl, h⟩
  | succ n ih =>
    rw [readBits]
    cases hb : readBit s with
    | stop f => trivial
    | raised cause t =>
      obtain ⟨hcause, hnil, hout⟩ := h.of_readBit_raised hb
      exact ⟨hcause, by rw [hnil]; rfl, hout⟩
    | ok b t =>
      have hrest := (ih (h.of_readBit hb).2.2).of_frame (readBit_frame hb).sameButFetch
      simp only [h.bitsAhead_of_readBit hb, extraOfBits]
      cases hw : readBits n t with
      | stop f => trivial
      | raised cause u =>
        obtain ⟨hcause, hlist, hout⟩ := hw ▸ hrest
        exact ⟨hcause, by rw [hlist], hout⟩
      | ok v u =>
        obtain ⟨hlist, hu⟩ := hw ▸ hrest
        exact ⟨by rw [hlist], hu⟩

/-- The descent through the registers is the descent along the list (R49, R65). -/
theorem ReaderOk.descend_reads (h : ReaderOk s) (n node : Nat) :
    (descend n node s).Reads s (descendBits s.cfg s.tree node (bitsAhead s)) := by
  induction n generalizing s node with
  | zero => trivial
  | succ n ih =>
    rw [descend]
    cases hb : readBit s with
    | stop f => trivial
    | raised cause t =>
      obtain ⟨hcause, hnil, hout⟩ := h.of_readBit_raised hb
      exact ⟨hcause, by rw [hnil, descendBits], hout⟩
    | ok b t =>
      have hframe := readBit_frame hb
      have hcfg : t.cfg = s.cfg := by rw [hframe]
      have htree : t.tree = s.tree := by rw [hframe]
      have ht := (h.of_readBit hb).2.2
      simp only [h.bitsAhead_of_readBit hb, descendBits, hcfg, htree]
      cases hchild : s.tree.child s.cfg node b with
      | none => trivial
      | some next =>
        by_cases hin : next ≤ s.cfg.maxChar
        · have hrest := (ih ht next).of_frame hframe.sameButFetch
          rw [hcfg, htree] at hrest
          simpa only [if_pos hin] using hrest
        · simp only [if_neg hin]
          exact ⟨rfl, ht⟩

/-! ### A whole item -/

theorem decodeSymbol_raised (h : decodeSymbol s = .raised cause u) :
    cause = .symbolRange ∨ descend (bitsLeft s + 1) Config.root s = .raised cause u := by
  simp only [decodeSymbol] at h
  split at h
  next hd =>
    cases h
    exact .inr hd
  · cases h
  · split at h
    · cases h
      exact .inl rfl
    · split at h <;> cases h

theorem fetchOperands_raised (h : fetchOperands sym s = .raised cause u) :
    cause = .symbolRange ∨ ∃ k, readBits (SymbolClass.extraBits k) s = .raised cause u := by
  simp only [fetchOperands] at h
  split at h
  · cases h
    exact .inl rfl
  next k _ =>
    split at h
    next hv =>
      cases h
      exact .inr ⟨k, hv⟩
    · cases h
    · cases h

theorem fetchInstr_raised (h : fetchInstr s = .raised cause u) :
    decodeSymbol s = .raised cause u ∨ ∃ sym t, decodeSymbol s = .ok sym t ∧ fetchOperands sym t = .raised cause u := by
  simp only [fetchInstr] at h
  split at h
  next hd =>
    cases h
    exact .inl hd
  · cases h
  next sym t hd => exact .inr ⟨sym, t, hd, h⟩

/-- `decode_symbol` descends along the bits ahead to its symbol's leaf, and updates the tree for that symbol (R65). -/
theorem ReaderOk.of_decodeSymbol (h : ReaderOk s) (hd : decodeSymbol s = .ok sym t) :
    ∃ leaf, descendBits s.cfg s.tree Config.root (bitsAhead s) = .ok (leaf, bitsAhead t) ∧ sym = leaf - s.cfg.succMax ∧
      s.tree.update s.cfg sym = some t.tree ∧ SameButFetch s t ∧ ReaderOk t := by
  obtain ⟨_, leaf, u, tree, hdesc, hsym, hupdate, rfl⟩ := decodeSymbol_ok hd
  obtain ⟨hlist, hu⟩ := hdesc ▸ h.descend_reads (bitsLeft s + 1) Config.root
  have hframe := (descend_frame hdesc).sameButFetch
  exact ⟨leaf, hlist, hsym, hupdate, hframe.trans rfl, hu.law, hu.loaded, hu.input⟩

/-- The fetch of an item is the list decoder on the bits ahead, with the tree updated for the item's symbol (R61, R65, R75). -/
theorem ReaderOk.of_fetchInstr (h : ReaderOk s) (hf : fetchInstr s = .ok i u) :
    decodeItem s.cfg s.tree (bitsAhead s) = .ok (i, bitsAhead u) ∧ s.tree.update s.cfg (i.symbol s.cfg) = some u.tree ∧
      ReaderOk u := by
  obtain ⟨sym, t, hsym, hoperands⟩ := fetchInstr_ok hf
  obtain ⟨k, v, hclass, hv, rfl⟩ := fetchOperands_ok hoperands
  obtain ⟨leaf, hdesc, rfl, hupdate, hframe, ht⟩ := h.of_decodeSymbol hsym
  obtain ⟨hextra, hu⟩ := hv ▸ ht.readBits_reads k.extraBits
  have htree : u.tree = t.tree := by rw [readBits_frame hv]
  rw [decodeSymbol_cfg hsym] at hclass
  exact ⟨decodeItem_eq_ok_iff.mpr ⟨leaf, _, k, v, hdesc, hclass, hextra, rfl⟩,
    by rw [(toInstr_of_classify hclass v).2, htree, hupdate], hu⟩

/-- A fetch raises INPUT_EXHAUSTED, in the code or in the extra field, only with every bit consumed (R59, R101). -/
theorem ReaderOk.ranOut_of_fetchInstr (h : ReaderOk s) (hf : fetchInstr s = .raised .inputExhausted u) : RanOut s u := by
  rcases fetchInstr_raised hf with hsym | ⟨sym, t, hsym, hoperands⟩
  · have hdesc := (decodeSymbol_raised hsym).resolve_left ErrCause.noConfusion
    obtain ⟨-, -, hout⟩ := hdesc ▸ h.descend_reads (bitsLeft s + 1) Config.root
    exact hout
  · obtain ⟨k, hv⟩ := (fetchOperands_raised hoperands).resolve_left ErrCause.noConfusion
    obtain ⟨leaf, _, _, _, hframe, ht⟩ := h.of_decodeSymbol hsym
    obtain ⟨-, -, hout⟩ := hv ▸ ht.readBits_reads k.extraBits
    exact hout.of_frame hframe

/-- Where no bit is left, the fetch raises INPUT_EXHAUSTED and changes nothing (R59). -/
theorem fetchInstr_of_no_bits (h : bitsLeft s = 0) : fetchInstr s = .raised .inputExhausted s := by
  simp only [fetchInstr, decodeSymbol, descend, readBit_of_no_bits h]

/-- The engine's turn enters the error its fetch raises (R98). -/
theorem step_of_fetch_raised (hbusy : s.fsm = .busy) (hnext : EngineNext s e) (hf : fetchInstr e = .raised cause u) :
    step s = .next (enterError cause u) := by
  have hbusy' : e.fsm = .busy := by rw [hnext.eq]; exact hbusy
  rw [step_of_engineNext hnext, engineTurn, if_pos hbusy', engineStep, hf]

theorem ReaderOk.of_engineNext (h : ReaderOk s) (hnext : EngineNext s e) : ReaderOk e := by
  rw [hnext.eq]
  exact ⟨h.law, h.loaded, h.input⟩

end

end Sys2Proof.Machine
end

section
/-! CERTIFICATE. The statements about the bit reader (40_bitstream_reader.md). -/

namespace Sys2Proof.Machine

/-- Settles O12: the descent and the extra field each read the list of bits ahead, and `decodeItem` puts them together. -/
theorem fetchIsDecode : Obligations.FetchIsDecode := by
  intro s u i hreader hfetch
  obtain ⟨hdecode, hupdate, hu⟩ := hreader.of_fetchInstr hfetch
  exact ⟨hdecode, hupdate, fetchInstr_frame hfetch, hu⟩

/-- Settles O11: the fetch raises with every bit consumed, it writes only the reader and the tree, and `enter_error` only
`ERR_INFO` and `fsm`. -/
theorem exhaustedInputEndsTheJob : Obligations.ExhaustedInputEndsTheJob := by
  refine ⟨fun s e u hbusy hnext hreader hraised => ?_, fun s e hbusy hnext hcount hwords => ?_⟩
  · have hout := (hreader.of_engineNext hnext).ranOut_of_fetchInstr hraised
    have hpos : u.bitpos = 16 * s.inLen.toNat := by rw [hout.bitpos_eq, hnext.eq]
    have hframe := hout.frame
    rw [hnext.eq] at hframe
    refine ⟨_, step_of_fetch_raised hbusy hnext hraised, rfl, rfl, hpos, ?_⟩
    rw [hframe]
    exact ⟨rfl, rfl, rfl, rfl, rfl⟩
  · have hleft : bitsLeft s = 0 := bitsLeft_of_exhausted hcount hwords
    exact step_of_fetch_raised hbusy hnext (fetchInstr_of_no_bits (by rw [hnext.eq]; exact hleft))

end Sys2Proof.Machine
end

section
/-! SUPPORT. What single operations of the tree (41_huffman_tree.md R63 to R68) do: the fresh tree, the rescale, one iteration of
the loop of `update_model`, and the climb of `propagate_frequency`. -/

namespace Sys2Proof.Machine

section
variable {c : Preset} {t u t1 : Tree} {a b x p q code1 code2 sym i k n : Nat} {f fa fb : Half} {file : RegFile}

/-! ### The fresh tree and the rescale -/

/-- An entry that the map leaves alone holds what it held. -/
theorem RegFile.get_mapIdx_of_fixed {g : Nat → Half → Half} (h : file.hasSize n = true) (hi : i < n)
    (hfix : ∀ v, g i v = v) : (file.mapIdx g).get i = file.get i :=
  (RegFile.get_mapIdx file g h hi).trans (hfix _)

theorem Tree.freqOf_init (ht : t.Sized c) (h2 : 2 ≤ x) (hx : x ≤ c.twiceMax) : (t.init c).freqOf c x = some 1 := by
  obtain ⟨_, hfreq, _, _⟩ := ht
  have hnode : Tree.isNode c x = true := Tree.isNode_iff.mpr ⟨by omega, hx⟩
  have hdad : Tree.hasDad c x = true := Tree.hasDad_iff.mpr ⟨h2, hx⟩
  simp only [Tree.freqOf, Tree.init, if_pos hnode]
  rw [RegFile.get_mapIdx _ _ hfreq (by omega), if_pos hdad]

theorem Tree.freqOf_rescale (ht : t.Sized c) (x : Nat) :
    (t.rescale c).freqOf c x = (t.freqOf c x).map fun f : Half => f >>> (1 : Nat) := by
  obtain ⟨_, hfreq, _, _⟩ := ht
  by_cases hx : Tree.isNode c x = true
  · have hle := (Tree.isNode_iff.mp hx).2
    simp only [Tree.freqOf, Tree.rescale, if_pos hx, Option.map_some]
    rw [RegFile.get_mapIdx _ _ hfreq (by omega), if_pos hx]
  · simp only [Tree.freqOf, if_neg hx, Option.map_none]

theorem toNat_half (f : Half) : (f >>> 1).toNat = f.toNat / 2 := by
  rw [BitVec.toNat_ushiftRight, Nat.shiftRight_one]

/-! ### The tests of R66 and R68 -/

theorem Tree.rescaleIfFull_of_freqOf (hf : t.freqOf c Config.root = some f) :
    t.rescaleIfFull c = some (if f.toNat = 2000 then t.rescale c else t) := by
  simp only [Tree.rescaleIfFull, Option.bind_eq_bind, hf, Option.bind_some]
  exact (apply_ite some _ _ _).symm

/-- `propagate_frequency` is the climb and then the test (R66). -/
theorem Tree.propagate_of_sumUp (h : Tree.sumUp c c.maxChar t a b = some u) : t.propagate c a b = u.rescaleIfFull c := by
  simp only [Tree.propagate, Option.bind_eq_bind, h, Option.bind_some]

/-- An iteration of R68's loop, once its reads are known. -/
theorem Tree.promoteOnce_eq (h1 : t.dadOf c code1 = some code2) (hb : t.otherChild c code2 code1 = some b)
    (hfa : t.freqOf c a = some fa) (hfb : t.freqOf c b = some fb) :
    t.promoteOnce c a code1 = if fb < fa then
      (t.exchange c a b code1 code2).bind fun r => (r.1.propagate c b r.2).bind fun v => some (v, b)
      else some (t, a) := by
  simp only [Tree.promoteOnce, Option.bind_eq_bind, h1, hb, hfa, hfb, Option.bind_some]

/-! ### Siblings -/

theorem Tree.sibling_of_dadOf (hx : t.dadOf c x = some p) : t.sibling c x = t.otherChild c p x := by
  simp only [Tree.sibling, Option.bind_eq_bind, hx, Option.bind_some]

theorem Tree.SameLinks.otherChild (h : t.SameLinks u) (c : Preset) (p x : Nat) : u.otherChild c p x = t.otherChild c p x := by
  simp only [Tree.otherChild, h.leftOf, h.rightOf]

/-- The other child of a node's parent is what R64 answers, and only that. -/
theorem Tree.Shape.childPair_of_otherChild (h : t.Shape c) (hx : t.dadOf c x = some p) (hq : t.otherChild c p x = some q) :
    t.ChildPair c p x q ∧ x ≠ q ∧ t.dadOf c q = some p := by
  obtain ⟨y, hpair, hne, hy⟩ := h.exists_childPair hx
  obtain rfl := Option.some.inj ((hpair.otherChild hne).symm.trans hq)
  exact ⟨hpair, hne, hy⟩

/-! ### The leaf of `update_model` -/

/-- Raising a node's frequency by one is defined, and writes that frequency alone. -/
theorem Tree.exists_count (ht : t.Sized c) (hx : Tree.isNode c x = true) :
    ∃ f u, t.freqOf c x = some f ∧ t.setFreq c x (f + 1) = some u ∧ t.SameLinks u ∧
      ∀ y, u.freqOf c y = if y = x then some (f + 1) else t.freqOf c y := by
  obtain ⟨f, hf⟩ := Tree.exists_freqOf (t := t) hx
  obtain ⟨u, hu⟩ := Tree.exists_setFreq t (f + 1) hx
  exact ⟨f, u, hf, hu, Tree.setFreq_sameLinks hu, Tree.freqOf_setFreq hu ht⟩

/-- `update_model`, once its leaf is counted and the leaf's parent known (R68, R71). -/
theorem Tree.update_eq (hf : t.freqOf c (sym + c.succMax) = some f) (hcount : t.setFreq c (sym + c.succMax) (f + 1) = some t1)
    (hdad : t.dadOf c (sym + c.succMax) = some code1) :
    t.update c sym = if code1 = Config.root then some t1 else
      (t.sibling c (sym + c.succMax)).bind fun b => (t1.propagate c (sym + c.succMax) b).bind fun t2 =>
        Tree.promote c c.maxChar t2 (sym + c.succMax) code1 := by
  have hlinks := Tree.setFreq_sameLinks hcount
  simp only [Tree.update, Option.bind_eq_bind, hf, hcount, Option.bind_some, hlinks.dadOf, hdad, hlinks.otherChild,
    Tree.sibling_of_dadOf hdad]

/-- A symbol that `update_model` answers a tree for is in the alphabet. -/
theorem Tree.le_maxChar_of_update (h : t.update c sym = some u) : sym ≤ c.maxChar := by
  obtain ⟨f, hf, _⟩ := Option.bind_eq_some_iff.mp h
  unfold Tree.freqOf at hf
  split at hf
  next hnode =>
    have hle := (Tree.isNode_iff.mp hnode).2
    simp only [Preset.twiceMax, Preset.succMax] at hle
    omega
  · cases hf

theorem Tree.Shape.of_update (h : t.Shape c) (hu : t.update c sym = some u) : u.Shape c := by
  obtain ⟨v, hv, hshape⟩ := h.exists_update (Tree.le_maxChar_of_update hu)
  exact Option.some.inj (hv.symm.trans hu) ▸ hshape

/-! ### The climb -/

/-- No node is its parent, nor above it. -/
theorem Tree.Shape.ancestor_ne (h : t.Shape c) (hx : t.dadOf c x = some p) (k : Nat) : t.ancestor c k p ≠ some x := by
  intro hk
  obtain ⟨d, hdx, hdp⟩ := h.exists_depth_succ hx
  have hround : t.ancestor c (k + (d + 1)) p = some Config.root := by rw [Tree.ancestor_add, hk, Option.bind_some, hdx]
  have := Tree.depth_unique hdp hround
  omega

/-- One level of the climb: the parent gets the sum, and the climb goes on from it and its sibling unless it is the root (R66). -/
theorem Tree.sumUp_succ (h : Tree.sumUp c (n + 1) t a b = some u) :
    ∃ p fa fb t1, t.dadOf c a = some p ∧ t.freqOf c a = some fa ∧ t.freqOf c b = some fb ∧
      t.setFreq c p (fa + fb) = some t1 ∧
      (p = Config.root ∧ t1 = u ∨ ∃ q, t.sibling c p = some q ∧ Tree.sumUp c n t1 p q = some u) := by
  simp only [Tree.sumUp, Option.bind_eq_bind, Option.bind_eq_some_iff] at h
  obtain ⟨p, hp, fa, hfa, fb, hfb, t1, ht1, h⟩ := h
  refine ⟨p, fa, fb, t1, hp, hfa, hfb, ht1, ?_⟩
  split at h
  · exact .inl ⟨‹_›, Option.some.inj h⟩
  · obtain ⟨q, hq, h⟩ := Option.bind_eq_some_iff.mp h
    exact .inr ⟨q, (Tree.setFreq_sameLinks ht1).sibling c p ▸ hq, h⟩

/-- The climb writes no frequency but those of the nodes above its start. -/
theorem Tree.sumUp_freqOf_of_not_above (ht : t.Sized c) (h : Tree.sumUp c n t a b = some u)
    (hx : ∀ k, t.ancestor c (k + 1) a ≠ some x) : u.freqOf c x = t.freqOf c x := by
  induction n generalizing t a b with
  | zero => cases h
  | succ n ih =>
    obtain ⟨p, fa, fb, t1, hp, -, -, ht1, hrest⟩ := Tree.sumUp_succ h
    have hstart : x ≠ p := fun hxp => hx 0 ((Tree.ancestor_succ_of_dadOf hp 0).trans (congrArg some hxp.symm))
    have hkept : t1.freqOf c x = t.freqOf c x := by rw [Tree.freqOf_setFreq ht1 ht, if_neg hstart]
    rcases hrest with ⟨-, rfl⟩ | ⟨q, -, hrest⟩
    · exact hkept
    · refine (ih (Tree.setFreq_sized ht1 ht) hrest fun k => ?_).trans hkept
      rw [(Tree.setFreq_sameLinks ht1).ancestor, ← Tree.ancestor_succ_of_dadOf hp]
      exact hx (k + 1)

/-- In `u` node `p` holds the sum, modulo 2^16, of the frequencies of its two children in `t`. -/
def Tree.HoldsSum (c : Preset) (t u : Tree) (p : Nat) : Prop :=
  ∀ l r, t.leftOf c p = some l → t.rightOf c p = some r →
    ∃ fl fr, u.freqOf c l = some fl ∧ u.freqOf c r = some fr ∧ u.freqOf c p = some (fl + fr)

theorem Tree.ChildPair.holdsSum (h : t.ChildPair c p a b) (ha : u.freqOf c a = some fa) (hb : u.freqOf c b = some fb)
    (hp : u.freqOf c p = some (fa + fb)) : t.HoldsSum c u p := by
  intro l r hl hr
  rcases h with ⟨hl', hr'⟩ | ⟨hl', hr'⟩ <;> rw [hl'] at hl <;> rw [hr'] at hr <;> cases hl <;> cases hr
  · exact ⟨fa, fb, ha, hb, hp⟩
  · exact ⟨fb, fa, hb, ha, hp.trans (by rw [BitVec.add_comm])⟩

/-- After the climb every node above its start holds its children's sum (R70). -/
theorem Tree.Shape.sumUp_holdsSum (h : t.Shape c) (hb : t.sibling c a = some b) (hu : Tree.sumUp c n t a b = some u)
    (hp : t.ancestor c (k + 1) a = some p) : t.HoldsSum c u p := by
  induction n generalizing t a b k with
  | zero => cases hu
  | succ n ih =>
    obtain ⟨q, fa, fb, t1, hq, hfa, hfb, ht1, hrest⟩ := Tree.sumUp_succ hu
    have hlinks := Tree.setFreq_sameLinks ht1
    have hshape := h.of_sameLinks hlinks (Tree.setFreq_sized ht1 h.sized)
    obtain ⟨hpair, -, hbq⟩ := h.childPair_of_otherChild hq (Tree.sibling_of_dadOf hq ▸ hb)
    have hfreq := Tree.freqOf_setFreq ht1 h.sized
    rw [Tree.ancestor_succ_of_dadOf hq] at hp
    have kept {x : Nat} (hx : ∀ k, t.ancestor c (k + 1) q ≠ some x) : u.freqOf c x = t1.freqOf c x := by
      rcases hrest with ⟨-, rfl⟩ | ⟨_, -, hrest⟩
      · rfl
      · exact Tree.sumUp_freqOf_of_not_above hshape.sized hrest fun k => hlinks.ancestor c _ _ ▸ hx k
    cases k with
    | zero =>
      obtain rfl := Option.some.inj hp
      have child {x : Nat} (hx : t.dadOf c x = some q) : u.freqOf c x = t.freqOf c x := by
        rw [kept fun k => h.ancestor_ne hx (k + 1), hfreq, if_neg (h.dadOf_ne hx).symm]
      refine hpair.holdsSum ((child hq).trans hfa) ((child hbq).trans hfb) ?_
      rw [kept fun k hk => ?_, hfreq, if_pos rfl]
      rw [Tree.ancestor_succ] at hk
      obtain ⟨_, hdad, hk⟩ := Option.bind_eq_some_iff.mp hk
      exact h.ancestor_ne hdad k hk
    | succ k =>
      rcases hrest with ⟨rfl, -⟩ | ⟨b', hb', hrest⟩
      · cases (Tree.ancestor_root_succ c t k).symm.trans hp
      · have hsum := ih hshape (hlinks.sibling c q ▸ hb') hrest ((hlinks.ancestor c _ _).trans hp)
        simpa only [Tree.HoldsSum, hlinks.leftOf, hlinks.rightOf] using hsum

/-! ### The exchange -/

/-- A link after `a` and `b` are renamed into each other, by cases. -/
theorem map_swap (link : Option Nat) (a b : Nat) : link.map (Equiv.swap a b) =
    if link = some a then some b else if link = some b then some a else link := by
  cases link with
  | none => simp
  | some y => simp only [Option.map_some, Equiv.swap_apply_def, Option.some.injEq, apply_ite some]

end

end Sys2Proof.Machine
end

section
/-! SUPPORT. What keeps the machine's invariant: each part of an engine step, each access of the host, and START. -/

namespace Sys2Proof.Machine

/-- The invariant but for what it says of `fsm`. -/
structure StoreOk (s : State) : Prop where
  memories : MemoriesOk s
  history : HistoryLaw s
  sized : s.tree.Sized s.cfg
  words : s.widx.toNat ≤ Config.maxBuf

/-- `t` is `s` but for registers that `StoreOk` does not speak of. -/
def SameStore (s t : State) : Prop :=
  t = { s with
    irqEn := t.irqEn, fsm := t.fsm, inLen := t.inLen, declSize := t.declSize, errInfo := t.errInfo,
    bitbuffer := t.bitbuffer, bitcount := t.bitcount, draw := t.draw, schedule := t.schedule, resp := t.resp }

/-- `t` is `s` with `n` bytes appended under the laws of the memories and of the history. -/
structure Appended (n : Nat) (s t : State) : Prop where
  frame : SameButOutput s t
  memories : MemoriesOk t
  history : HistoryLaw t
  count : t.outCount.toNat = s.outCount.toNat + n

section
variable {s t u : State} {a n k m off size distance len extra sym : Nat} {e : ErrCause} {i : Instr} {b : Byte} {r : Fin 6}

theorem StoreOk.inv (h : StoreOk s) (herr : ErrInfoLegal s) (hjob : s.fsm = .busy → JobOk s) : s.Inv :=
  ⟨h.memories, h.history, h.sized, herr, h.words, hjob⟩

theorem State.Inv.storeOk (h : s.Inv) : StoreOk s := ⟨h.memories, h.history, h.sized, h.words⟩

theorem MemoriesOk.of_eq (h : MemoriesOk s) (hcfg : t.cfg = s.cfg) (hin : t.inMem = s.inMem) (hout : t.outMem = s.outMem)
    (hhist : t.hist = s.hist) : MemoriesOk t where
  inForm := hin ▸ h.inForm
  outForm := hout ▸ h.outForm
  histForm := hhist ▸ h.histForm
  inCells := hin ▸ h.inCells
  outCells := hout ▸ h.outCells
  histCells := by rw [hhist, hcfg]; exact h.histCells

theorem HistoryLaw.of_eq (h : HistoryLaw s) (hcfg : t.cfg = s.cfg) (hcount : t.outCount = s.outCount) (hcur : t.hcur = s.hcur)
    (hout : t.outMem = s.outMem) (hhist : t.hist = s.hist) : HistoryLaw t where
  cursor := by rw [hcur, hcount, hcfg]; exact h.cursor
  produced := by rw [hcount, hout]; exact h.produced
  window := by rw [hcount, hcfg, hhist, hout]; exact h.window

theorem StoreOk.inv_of_sameStore (h : StoreOk s) (hsame : SameStore s t) (herr : ErrInfoLegal t)
    (hjob : t.fsm = .busy → JobOk t) : t.Inv := by
  have hstore : StoreOk t := by
    rw [hsame]
    exact ⟨h.memories.of_eq rfl rfl rfl rfl, h.history.of_eq rfl rfl rfl rfl rfl, h.sized, h.words⟩
  exact hstore.inv herr hjob

/-! ### `ERR_INFO` -/

theorem ErrInfoLegal.of_busy (h : ErrInfoLegal s) (hbusy : s.fsm = .busy) : s.errInfo = 0 := by
  simpa only [ErrInfoLegal, hbusy] using h

/-- Whatever `ERR_INFO` holds, it may hold in IDLE (R26). -/
theorem ErrInfoLegal.zero_or_listed (h : ErrInfoLegal s) : s.errInfo = 0 ∨ s.errInfo ∈ errorInfos := by
  unfold ErrInfoLegal at h
  split at h
  · exact h
  · exact .inl h
  · exact .inl h
  · exact .inr h

/-- An error R99 lists keeps the invariant, whatever the state of control was. -/
theorem StoreOk.inv_enterError (h : StoreOk s) (he : e.info ∈ errorInfos) : (enterError e s).Inv :=
  h.inv_of_sameStore rfl he fun hbusy => Fsm.noConfusion hbusy

/-! ### Running jobs -/

theorem ReaderOk.of_eq (h : ReaderOk s) (hlen : t.inLen = s.inLen) (hwidx : t.widx = s.widx)
    (hcount : t.bitcount = s.bitcount) (hbuf : t.bitbuffer = s.bitbuffer) (hin : t.inMem = s.inMem) : ReaderOk t where
  law := by unfold ReaderLaw; rw [hwidx, hcount, hbuf, hin]; exact h.law
  loaded := by rw [hwidx, hlen]; exact h.loaded
  input := by rw [hlen]; exact h.input

/-- The host's own fields and the turns to come are no part of the invariant. -/
theorem State.Inv.of_sameJob (h : s.Inv) (hsame : SameJob s t) : t.Inv := by
  rw [hsame]
  refine h.storeOk.inv_of_sameStore rfl h.errInfo fun hbusy => ?_
  have hjob := h.job hbusy
  exact ⟨hjob.shape, hjob.reader.of_eq rfl rfl rfl rfl rfl, hjob.declared, hjob.output⟩

/-- A fetch that keeps the reader's law and the shape keeps the invariant. -/
theorem State.Inv.of_fetch (h : s.Inv) (hframe : SameButFetch s t) (hreader : ReaderOk t) (hshape : t.tree.Shape s.cfg) :
    t.Inv := by
  have hcfg : t.cfg = s.cfg := by rw [hframe]
  have hfsm : t.fsm = s.fsm := by rw [hframe]
  have hstore : StoreOk t := by
    refine ⟨?_, ?_, hcfg ▸ hshape.sized, hreader.loaded.trans hreader.input⟩
    · rw [hframe]; exact h.memories.of_eq rfl rfl rfl rfl
    · rw [hframe]; exact h.history.of_eq rfl rfl rfl rfl rfl
  refine hstore.inv (by rw [hframe]; exact h.errInfo) fun hbusy => ⟨hcfg ▸ hshape, hreader, ?_, ?_⟩
  · rw [hframe]; exact (h.job (hfsm ▸ hbusy)).declared
  · rw [hframe]; exact (h.job (hfsm ▸ hbusy)).output

/-! ### The fetch -/

/-- Every symbol of the alphabet has a class (R54). -/
theorem exists_classify {c : Preset} (h : sym ≤ c.maxChar) : ∃ k, classify c sym = some k := by
  unfold classify
  split
  · exact ⟨_, rfl⟩
  · split
    · exact ⟨_, rfl⟩
    next hlit hterm =>
      have hcodes : 0 < c.codesPerRange := Nat.succ_pos _
      have hindex : (sym - Config.firstCode) / c.codesPerRange < 6 := by
        refine (Nat.div_lt_iff_lt_mul hcodes).mpr ?_
        simp only [Preset.maxChar, Config.firstCode, Config.copyRanges] at h ⊢
        omega
      exact ⟨_, dif_pos hindex⟩

/-- The descent ends at a node of the tree. -/
theorem Tree.Shape.le_twiceMax_of_descendBits {c : Preset} {t : Tree} {bits rest : List Bool} {leaf : Nat} (h : t.Shape c)
    (hdesc : descendBits c t Config.root bits = .ok (leaf, rest)) : leaf ≤ c.twiceMax := by
  obtain ⟨_, path, hwalk, _⟩ := (descendBits_eq_ok_iff (Preset.root_le_maxChar c)).mp hdesc
  have hdepth := h.ancestor_of_walk hwalk
  generalize path.length = d at hdepth
  cases d with
  | zero =>
    obtain rfl := Option.some.inj hdepth
    exact (Preset.root_le_maxChar c).trans (Preset.maxChar_lt_twiceMax c).le
  | succ d =>
    obtain ⟨p, hdad, _⟩ := Option.bind_eq_some_iff.mp hdepth
    exact (Tree.isNode_iff.mp (Tree.isNode_of_dadOf hdad)).2

/-- In a tree of the shape of R69 `decode_symbol` raises only what its descent raises (R106). -/
theorem ReaderOk.descend_of_decodeSymbol_raised (h : ReaderOk s) (hshape : s.tree.Shape s.cfg)
    (hd : decodeSymbol s = .raised e u) : descend (bitsLeft s + 1) Config.root s = .raised e u := by
  have hreads := h.descend_reads (bitsLeft s + 1) Config.root
  simp only [decodeSymbol] at hd
  split at hd
  next hdesc => cases hd; exact hdesc
  · cases hd
  next leaf v hdesc =>
    have hcfg : v.cfg = s.cfg := by rw [descend_frame hdesc]
    obtain ⟨hlist, -⟩ := hdesc ▸ hreads
    have hleaf := hshape.le_twiceMax_of_descendBits hlist
    have hsym : ¬ v.cfg.maxChar < leaf - v.cfg.succMax := by
      simp only [hcfg, Preset.twiceMax, Preset.succMax] at hleaf ⊢
      omega
    rw [if_neg hsym] at hd
    split at hd <;> cases hd

theorem readBits_frame_of_raised (h : readBits n s = .raised e u) : SameButReader s u := by
  induction n generalizing s with
  | zero => cases h
  | succ n ih =>
    simp only [readBits] at h
    split at h
    next hb =>
      cases h
      rw [(readBit_raised hb).2.1]
      exact .refl s
    · cases h
    next hb =>
      split at h
      next hrest =>
        cases h
        exact (readBit_frame hb).trans (ih hrest)
      · cases h
      · cases h

theorem descend_frame_of_raised {node : Nat} (h : descend n node s = .raised e u) : SameButReader s u := by
  induction n generalizing node s with
  | zero => cases h
  | succ n ih =>
    simp only [descend] at h
    split at h
    next hb =>
      cases h
      rw [(readBit_raised hb).2.1]
      exact .refl s
    · cases h
    next hb =>
      split at h
      · cases h
      · split at h
        · exact (readBit_frame hb).trans (ih h)
        · cases h

/-- What a fetch under a job's laws raises, and the tree it leaves: the old one, or the updated one (R101, R107). -/
theorem ReaderOk.of_fetchInstr_raised (h : ReaderOk s) (hshape : s.tree.Shape s.cfg) (hf : fetchInstr s = .raised e u) :
    e = .inputExhausted ∧ u.tree.Shape s.cfg := by
  rcases fetchInstr_raised hf with hsym | ⟨sym, t, hsym, hoperands⟩
  · have hdesc := h.descend_of_decodeSymbol_raised hshape hsym
    have htree : u.tree = s.tree := by rw [descend_frame_of_raised hdesc]
    obtain ⟨hcause, -⟩ := hdesc ▸ h.descend_reads (bitsLeft s + 1) Config.root
    exact ⟨hcause, htree ▸ hshape⟩
  · obtain ⟨_, _, _, hupdate, _, ht⟩ := h.of_decodeSymbol hsym
    obtain ⟨k, hk⟩ := exists_classify (decodeSymbol_cfg hsym ▸ (decodeSymbol_ok hsym).1)
    have hread : readBits k.extraBits t = .raised e u := by
      simp only [fetchOperands, hk] at hoperands
      split at hoperands
      next hread => cases hoperands; exact hread
      · cases hoperands
      · cases hoperands
    have htree : u.tree = t.tree := by rw [readBits_frame_of_raised hread]
    obtain ⟨hcause, -⟩ := hread ▸ ht.readBits_reads k.extraBits
    exact ⟨hcause, htree ▸ hshape.of_update hupdate⟩

theorem State.Inv.of_fetchInstr_ok (h : s.Inv) (hbusy : s.fsm = .busy) (hf : fetchInstr s = .ok i u) :
    u.Inv ∧ u.fsm = .busy := by
  have hframe := fetchInstr_frame hf
  obtain ⟨-, hupdate, hreader⟩ := (h.job hbusy).reader.of_fetchInstr hf
  exact ⟨h.of_fetch hframe hreader ((h.job hbusy).shape.of_update hupdate), by rw [hframe]; exact hbusy⟩

theorem State.Inv.of_fetchInstr_raised (h : s.Inv) (hbusy : s.fsm = .busy) (hf : fetchInstr s = .raised e u) :
    (enterError e u).Inv := by
  obtain ⟨rfl, hshape⟩ := (h.job hbusy).reader.of_fetchInstr_raised (h.job hbusy).shape hf
  have hout := (h.job hbusy).reader.ranOut_of_fetchInstr hf
  exact (h.of_fetch hout.frame hout.reader hshape).storeOk.inv_enterError (by decide)

/-! ### Output -/

theorem Memory.within_write {mem : Memory} (h : mem.within size) (ha : a < size) (b : Byte) :
    (mem.write a b).within size := by
  intro cell hcell
  rcases Memory.mem_write mem a b cell hcell with rfl | hold
  · exact ha
  · exact h cell hold

theorem within_writeInMem {mem : Memory} (h : mem.within size) (ha : a + n ≤ size) (v : Word) :
    (writeInMem n a v mem).within size := by
  induction n generalizing a v mem with
  | zero => exact h
  | succ n ih => exact ih (Memory.within_write h (by omega) _) (by omega) _

theorem MemoriesOk.afterEmit (h : MemoriesOk s) (b : Byte) (ho : s.outCount.toNat < Config.maxBuf)
    (hh : s.hcur.toNat < s.cfg.maxSize) : MemoriesOk (afterEmit b s) where
  inForm := h.inForm
  outForm := Memory.wf_write _ _ _ h.outForm
  histForm := Memory.wf_write _ _ _ h.histForm
  inCells := h.inCells
  outCells := Memory.within_write h.outCells ho b
  histCells := Memory.within_write h.histCells hh b

theorem Appended.refl (hmem : MemoriesOk s) (hhist : HistoryLaw s) : Appended 0 s s := ⟨.refl s, hmem, hhist, rfl⟩

theorem Appended.trans (h : Appended n s t) (k : Appended m t u) : Appended (n + m) s u where
  frame := h.frame.trans k.frame
  memories := k.memories
  history := k.history
  count := by rw [k.count, h.count, Nat.add_assoc]

theorem appended_of_emitByte (hmem : MemoriesOk s) (hhist : HistoryLaw s) (h : emitByte b s = .ok t) : Appended 1 s t := by
  obtain ⟨ho, hh, rfl⟩ := emitByte_ok h
  exact ⟨afterEmit_frame b s, hmem.afterEmit b ho hh, hhist.afterEmit b ho, (afterEmit_counts b ho hh).1⟩

theorem appended_of_copyFrom (hmem : MemoriesOk s) (hhist : HistoryLaw s) (h : copyFrom n k s = .ok t) : Appended n s t := by
  induction n generalizing s k with
  | zero =>
    cases h
    exact .refl hmem hhist
  | succ n ih =>
    simp only [copyFrom] at h
    split at h
    · cases h
    · split at h
      · cases h
      next u hu =>
        have hfirst := appended_of_emitByte hmem hhist hu
        exact Nat.add_comm 1 n ▸ hfirst.trans (ih hfirst.memories hfirst.history h)

/-- Bytes appended within the declared size keep the invariant. -/
theorem State.Inv.of_appended (h : s.Inv) (hbytes : Appended n s t) (hroom : s.outCount.toNat + n ≤ s.declSize.toNat) :
    t.Inv := by
  have hframe := hbytes.frame
  have hfsm : t.fsm = s.fsm := by rw [hframe]
  have hdecl : t.declSize = s.declSize := by rw [hframe]
  have hstore : StoreOk t :=
    ⟨hbytes.memories, hbytes.history, by rw [hframe]; exact h.sized, by rw [hframe]; exact h.words⟩
  refine hstore.inv (by rw [hframe]; exact h.errInfo) fun hbusy => ?_
  have hjob := h.job (hfsm ▸ hbusy)
  refine ⟨by rw [hframe]; exact hjob.shape, ?_, hdecl ▸ hjob.declared, ?_⟩
  · rw [hframe]; exact hjob.reader.of_eq rfl rfl rfl rfl rfl
  · rw [hbytes.count, hdecl]; exact hroom

/-! ### The item -/

theorem copyRefusal_listed (h : copyRefusal distance len s = some e) : e.info ∈ errorInfos := by
  unfold copyRefusal at h
  split at h
  · cases h; decide
  · split at h
    · cases h; decide
    · split at h
      · cases h; decide
      · cases h

theorem State.Inv.of_execLit (h : s.Inv) (hexec : execLit b s = .next t) : t.Inv := by
  unfold execLit at hexec
  split at hexec
  · cases hexec
    exact h.storeOk.inv_enterError (by decide)
  next hroom =>
    exact h.of_appended (appended_of_emitByte h.memories h.history (outcomeOf_eq_next.mp hexec)) (by omega)

theorem State.Inv.of_execTerm (h : s.Inv) (hbusy : s.fsm = .busy) (hexec : execTerm s = .next t) : t.Inv := by
  unfold execTerm at hexec
  split at hexec
  · cases hexec
    exact h.storeOk.inv_enterError (by decide)
  · cases hexec
    exact h.storeOk.inv_of_sameStore rfl (h.errInfo.of_busy hbusy) fun hdone => Fsm.noConfusion hdone

theorem State.Inv.of_execCopy (h : s.Inv) (hexec : execCopy r len extra s = .next t) : t.Inv := by
  unfold execCopy at hexec
  split at hexec
  next hrefused =>
    cases hexec
    exact h.storeOk.inv_enterError (copyRefusal_listed hrefused)
  next hruns =>
    obtain ⟨-, -, hroom⟩ := copyRefusal_eq_none.mp hruns
    exact h.of_appended (appended_of_copyFrom h.memories h.history (outcomeOf_eq_next.mp hexec)) hroom

theorem State.Inv.of_exec (h : s.Inv) (hbusy : s.fsm = .busy) (hexec : exec i s = .next t) : t.Inv := by
  cases i with
  | lit b => exact h.of_execLit hexec
  | term => exact h.of_execTerm hbusy hexec
  | copyR0 len extra => exact h.of_execCopy (r := 0) hexec
  | copyR1 len extra => exact h.of_execCopy (r := 1) hexec
  | copyR2 len extra => exact h.of_execCopy (r := 2) hexec
  | copyR3 len extra => exact h.of_execCopy (r := 3) hexec
  | copyR4 len extra => exact h.of_execCopy (r := 4) hexec
  | copyR5 len extra => exact h.of_execCopy (r := 5) hexec

/-- The engine's turn keeps the invariant. -/
theorem State.Inv.of_engineTurn (h : s.Inv) (hturn : engineTurn s = .next t) : t.Inv := by
  rcases engineTurn_cases hturn with ⟨hbusy, hstep⟩ | ⟨_, rfl⟩
  · rcases engineStep_cases hstep with ⟨i, u, hf, hexec⟩ | ⟨e, u, hf, rfl⟩
    · obtain ⟨hu, hbusy'⟩ := h.of_fetchInstr_ok hbusy hf
      exact hu.of_exec hbusy' hexec
    · exact h.of_fetchInstr_raised hbusy hf
  · exact h

/-! ### The host and reset -/

theorem capacityRefusal_listed (h : capacityRefusal s = some e) : e.info ∈ errorInfos := by
  unfold capacityRefusal at h
  split at h
  · cases h; decide
  · split at h
    · cases h; decide
    · cases h

theorem capacityRefusal_eq_none : capacityRefusal s = none ↔
    s.declSize.toNat ≤ Config.declMax ∧ s.inLen.toNat ≤ Config.maxBuf := by
  have hmax : Config.declMax + Config.capMargin = Config.maxBuf := rfl
  unfold capacityRefusal
  split
  · simp; omega
  · split
    · simp; omega
    · simp; omega

theorem StoreOk.clearJob (h : StoreOk s) : StoreOk (clearJob s) where
  memories := h.memories.of_eq rfl rfl rfl rfl
  history := .of_no_output rfl rfl
  sized := h.sized
  words := Nat.zero_le _

/-- The state START enters satisfies the laws of a running job (R89, R97). -/
theorem StoreOk.jobOk_enterBusy (h : StoreOk s) (hcap : capacityRefusal s = none) : JobOk (enterBusy (Machine.clearJob s)) := by
  obtain ⟨hdecl, hlen⟩ := capacityRefusal_eq_none.mp hcap
  exact ⟨Tree.shape_init h.sized, ⟨⟨rfl, rfl⟩, Nat.zero_le _, hlen⟩, hdecl, Nat.zero_le _⟩

/-- START keeps the invariant, whatever ran before (R89, R100). -/
theorem StoreOk.inv_startAction (h : StoreOk s) : (startAction s).Inv := by
  unfold startAction
  split
  next hrefused => exact h.clearJob.inv_enterError (capacityRefusal_listed hrefused)
  next hcap =>
    have hbusy : StoreOk (enterBusy (Machine.clearJob s)) :=
      ⟨h.memories.of_eq rfl rfl rfl rfl, .of_no_output rfl rfl, Tree.init_sized h.sized, Nat.zero_le _⟩
    exact hbusy.inv rfl fun _ => h.jobOk_enterBusy hcap

theorem State.Inv.clearAction (h : s.Inv) : (clearAction s).Inv :=
  h.storeOk.inv_of_sameStore rfl h.errInfo.zero_or_listed fun hidle => Fsm.noConfusion hidle

theorem State.Inv.writeCtrl (h : s.Inv) (v : Word) : (writeCtrl v s).Inv := by
  have hirq : State.Inv { s with irqEn := v.getLsbD 2 } := h.of_sameJob rfl
  simp only [Machine.writeCtrl]
  split
  · split
    · exact hirq
    · exact hirq.storeOk.inv_startAction
  · split
    · split
      · exact hirq.clearAction
      · exact hirq
    · exact hirq

/-- Outside BUSY the registers the invariant ties to a job may hold anything. -/
theorem State.Inv.of_not_busy (h : s.Inv) (hfree : s.fsm ≠ .busy) (hsame : SameStore s t) (hfsm : t.fsm = s.fsm)
    (herr : t.errInfo = s.errInfo) : t.Inv :=
  h.storeOk.inv_of_sameStore hsame (by unfold ErrInfoLegal; rw [hfsm, herr]; exact h.errInfo)
    fun hbusy => absurd (hfsm ▸ hbusy) hfree

theorem State.Inv.writeRegister (h : s.Inv) (off : Nat) (v : Word) : (writeRegister off v s).Inv := by
  unfold Machine.writeRegister
  split
  · exact h.writeCtrl v
  · split
    · exact h
    next hfree => exact h.of_not_busy hfree rfl rfl rfl
  · split
    · exact h
    next hfree => exact h.of_not_busy hfree rfl rfl rfl
  · exact h

/-- An aligned access that begins in `IN_MEM` ends in it (R37). -/
theorem access_within_inMem {w : Width} (ha : off % w.bytes = 0) (hlow : inBase ≤ off) (hhigh : off < inEnd) :
    off - inBase + w.bytes ≤ 2 * Config.maxBuf := by
  obtain ⟨hin, hend, -, -⟩ := window_bounds
  have hmax : Config.maxBuf = 43008 := rfl
  cases w <;> simp only [Width.bytes] at ha ⊢ <;> omega

theorem State.Inv.writeWindow {w : Width} (h : s.Inv) (ha : off % w.bytes = 0) (v : Word) : (writeWindow off w v s).Inv := by
  unfold Machine.writeWindow
  split
  next hin =>
    obtain ⟨hlow, hhigh, hfree⟩ := hin
    have hcells := access_within_inMem ha hlow hhigh
    refine StoreOk.inv ⟨?_, h.history.of_eq rfl rfl rfl rfl rfl, h.sized, h.words⟩ h.errInfo fun hbusy => absurd hbusy hfree
    exact { h.memories with
      inForm := wf_writeInMem _ _ _ _ h.memories.inForm
      inCells := within_writeInMem h.memories.inCells hcells v }
  · exact h

theorem State.Inv.hostWrite (h : s.Inv) (off : Nat) (w : Width) (v : Word) : (hostWrite off w v s).Inv := by
  unfold Machine.hostWrite
  split
  · exact h
  next herr =>
    split
    · exact h.writeRegister off v
    · exact h.writeWindow (by_contra fun ha => herr (busError_iff.mpr (.inl ha))) v

theorem State.Inv.hostAccess (h : s.Inv) (a : HostAccess) : (hostAccess a s).Inv := by
  cases a with
  | read addr w =>
    simp only [Machine.hostAccess]
    split
    · exact h.of_sameJob rfl
    · exact h.of_sameJob rfl
  | write addr w v =>
    simp only [Machine.hostAccess]
    split
    · exact (h.hostWrite _ w v).of_sameJob rfl
    · exact h.of_sameJob rfl

/-- The reset input gives the state after reset, but for the draw and the turns to come (R119). -/
theorem inv_resetInput (s : State) : (resetInput s).Inv :=
  (invariantAtReset s.cfg s.blockIndex).storeOk.inv_of_sameStore rfl (.inl rfl) fun hbusy => Fsm.noConfusion hbusy

end

end Sys2Proof.Machine
end

section
/-! CERTIFICATE. The statements about the tree (41_huffman_tree.md), and that every step keeps its shape with the rest of the
invariant. -/

namespace Sys2Proof.Machine

/-- Settles O21: a symbol with an update is in the alphabet, where `Tree.Shape.exists_update` gives a tree of the shape. -/
theorem updateKeepsShape : Obligations.UpdateKeepsShape := fun _ _ _ _ hshape hu => hshape.of_update hu

/-- Settles O22: every read of the update meets a node, and each walk is no longer than the tree is deep. -/
theorem updateIsDefined : Obligations.UpdateIsDefined :=
  fun _ _ _ hshape hsym => (hshape.exists_update hsym).imp fun _ hu => hu.1

/-- Settles O47: the turn taken off the list leaves the invariant alone, and each of the three kinds of turn keeps it. -/
theorem everyStepKeepsTheInvariant : Obligations.EveryStepKeepsTheInvariant := by
  intro s t h hstep
  have hturn (rest : List Turn) : State.Inv { s with schedule := rest } := h.of_sameJob rfl
  rcases step_cases hstep with ⟨_, hengine⟩ | ⟨rest, _, hengine⟩ | ⟨a, rest, _, rfl⟩ | ⟨rest, _, rfl⟩
  · exact h.of_engineTurn hengine
  · exact (hturn rest).of_engineTurn hengine
  · exact (hturn rest).hostAccess a
  · exact inv_resetInput _

/-- Settles O14, entry by entry. -/
theorem initTreeEntries : Obligations.InitTreeEntries := by
  intro c t ht
  have ⟨hdad, hfreq, hleft, hright⟩ := ht
  have unused : ¬ false = true := Bool.false_ne_true
  have hmax : 1 < c.twiceMax + 1 := by simp only [Preset.twiceMax, Preset.succMax]; omega
  exact ⟨fun i h2 hi => ⟨Tree.dadOf_init ht h2 hi, Tree.freqOf_init ht h2 hi⟩,
    fun i h1 hi => ⟨Tree.leftOf_init ht h1 hi, Tree.rightOf_init ht h1 hi⟩,
    RegFile.get_mapIdx_of_fixed hdad (Nat.succ_pos _) fun _ => if_neg unused,
    RegFile.get_mapIdx_of_fixed hdad hmax fun _ => if_neg unused,
    RegFile.get_mapIdx_of_fixed hfreq (Nat.succ_pos _) fun _ => if_neg unused,
    RegFile.get_mapIdx_of_fixed hfreq hmax fun _ => if_neg unused,
    RegFile.get_mapIdx_of_fixed hleft (Nat.succ_pos _) fun _ => if_neg unused,
    RegFile.get_mapIdx_of_fixed hright (Nat.succ_pos _) fun _ => if_neg unused⟩

/-- Settles O15: a shift by one bit is a half, and entry 0 is no node. -/
theorem rescaleHalvesEveryFrequency : Obligations.RescaleHalvesEveryFrequency := by
  intro c t ht
  have ⟨_, hfreq, _, _⟩ := ht
  refine ⟨fun i f hf => ⟨f >>> 1, ?_, toNat_half f⟩, ?_, Tree.rescale_sameLinks c t⟩
  · rw [Tree.freqOf_rescale ht, hf, Option.map_some]
  · exact RegFile.get_mapIdx_of_fixed hfreq (Nat.succ_pos _) fun _ => if_neg Bool.false_ne_true

/-- Settles O16: a node above the start is written once, after its children, which no later level writes. -/
theorem propagationLeavesSumsOnThePath : Obligations.PropagationLeavesSumsOnThePath := fun _ _ _ _ _ _ hshape hb hu =>
  ⟨Tree.sumUp_sameLinks hu, fun _ _ l r hp => hshape.sumUp_holdsSum hb hu hp l r,
    fun _ hx => Tree.sumUp_freqOf_of_not_above hshape.sized hu hx⟩

/-- Settles O19: the exchange swaps the two nodes, and a link that is one of them then is the other. -/
theorem exchangeSwapsNodeAndUncle : Obligations.ExchangeSwapsNodeAndUncle := by
  intro c t a b code1 code2 x h ha h1 hother hx
  obtain ⟨hlow, hlow', _⟩ := h.childPair_of_otherChild ha (Tree.sibling_of_dadOf ha ▸ hx)
  obtain ⟨hup, hup', hb⟩ := h.childPair_of_otherChild h1 hother
  obtain ⟨u, hu, hswap⟩ := h.exists_exchange hlow hlow' hup hup' ha hb h1
  refine ⟨u, hu, fun y => ?_, fun y => (hswap.left y).trans (map_swap ..), fun y => (hswap.right y).trans (map_swap ..),
    hswap.freq⟩
  rw [hswap.dad, Equiv.swap_apply_def]
  split
  · exact hb
  · split
    · exact ha
    · rfl

/-- Settles O60: the update counts its leaf, propagates, and enters the bounded loop, which answers what the loop of R68 ends
with. -/
theorem updateCountsThenPromotes : Obligations.UpdateCountsThenPromotes := by
  intro c t u sym code1 ht hdad hroot hu
  obtain ⟨f, t1, hf, hcount, hlinks, hfreq⟩ := Tree.exists_count ht (Tree.isNode_of_dadOf hdad)
  rw [Tree.update_eq hf hcount hdad, if_neg hroot] at hu
  obtain ⟨b, hb, hu⟩ := Option.bind_eq_some_iff.mp hu
  obtain ⟨t2, ht2, hu⟩ := Option.bind_eq_some_iff.mp hu
  exact ⟨f, b, t1, t2, hf, hcount, hlinks, hfreq, hb, ht2, Tree.promote_promotes hu⟩

/-- Settles O17: the test of R66 is an equality. -/
theorem rescaleOnlyAtMaxFreq : Obligations.RescaleOnlyAtMaxFreq := by
  refine ⟨fun c t f hf => ⟨fun hfull => ?_, fun hfree => ?_⟩, fun c t u a b f hu hf => ?_⟩
  · rw [Tree.rescaleIfFull_of_freqOf hf, if_pos hfull]
  · rw [Tree.rescaleIfFull_of_freqOf hf, if_neg hfree]
  · rw [Tree.propagate_of_sumUp hu, Tree.rescaleIfFull_of_freqOf hf]

/-- Settles O18: the test of R68 is strict. -/
theorem onlyAGreaterNodeSwaps : Obligations.OnlyAGreaterNodeSwaps := by
  intro c t a b code1 code2 fa fb h1 hb hfa hfb
  rw [Tree.promoteOnce_eq h1 hb hfa hfb]
  refine ⟨fun hle => if_neg (BitVec.not_lt.mpr hle), fun hlt u x v hexchange hv => ?_⟩
  rw [if_pos hlt, hexchange, Option.bind_some, hv, Option.bind_some]

/-- Settles O20: under the root the update ends with the count. -/
theorem leafUnderRootOnlyCounts : Obligations.LeafUnderRootOnlyCounts := by
  intro c t sym ht _ hdad
  obtain ⟨f, u, hf, hcount, hlinks, hfreq⟩ := Tree.exists_count ht (Tree.isNode_of_dadOf hdad)
  exact ⟨u, f, hf, (Tree.update_eq hf hcount hdad).trans (if_pos rfl), hlinks, hfreq⟩

/-- Settles O23: node 2 and its children 4 and 5 hold 1 each, and 1 is not 1 + 1. -/
theorem sumPropertyFails : Obligations.SumPropertyFails := by
  intro c t ht
  have hmax : 5 ≤ c.maxChar := by cases c <;> decide
  have hnodes := Preset.maxChar_lt_twiceMax c
  exact ⟨1, 4, 5, 1, 1, Tree.freqOf_init ht (by omega) (by omega), Tree.leftOf_init ht (by omega) (by omega),
    Tree.rightOf_init ht (by omega) (by omega), Tree.freqOf_init ht (by omega) (by omega),
    Tree.freqOf_init ht (by omega) (by omega), by decide⟩

end Sys2Proof.Machine
end

section
/-! SUPPORT. What a symbol appends (42_lz_copy.md R72 to R78): each byte of a copy is the byte `distance` before it, also where the
copy itself wrote that one, and no symbol writes a byte elsewhere. -/

namespace Sys2Proof.Machine

section
variable {s t : State} {distance n k : Nat}

/-! ### The copy -/

/-- One round of the loop of R73: the byte read is emitted, and the rest runs from the next source cell. -/
theorem copyFrom_succ_ok (h : copyFrom (n + 1) k s = .ok t) :
    ∃ v, s.hist.read k = some v ∧ s.outCount.toNat < Config.maxBuf ∧ s.hcur.toNat < s.cfg.maxSize ∧
      copyFrom n ((k + 1) % s.cfg.maxSize) (afterEmit v s) = .ok t := by
  simp only [copyFrom] at h
  split at h
  · cases h
  next v hv =>
    split at h
    · cases h
    next u hu =>
      obtain ⟨ho, hh, rfl⟩ := emitByte_ok hu
      exact ⟨v, hv, ho, hh, h⟩

/-- A copy that ends has appended its length in bytes, under the law of the history (R74). -/
theorem HistoryLaw.of_copyFrom (h : HistoryLaw s) (hcopy : copyFrom n k s = .ok t) :
    HistoryLaw t ∧ t.outCount.toNat = s.outCount.toNat + n := by
  induction n generalizing s k with
  | zero =>
    cases hcopy
    exact ⟨h, rfl⟩
  | succ n ih =>
    obtain ⟨v, -, ho, hh, hrest⟩ := copyFrom_succ_ok hcopy
    obtain ⟨hlaw, hcount⟩ := ih (h.afterEmit v ho) hrest
    have hfirst := (afterEmit_counts v ho hh).1
    exact ⟨hlaw, by omega⟩

/-- The source cursor stays `distance` behind the byte it is copied to (R73). -/
theorem copySource_after_emit {v : Byte} (hwritten : distance ≤ s.outCount.toNat)
    (ho : s.outCount.toNat < Config.maxBuf) (hh : s.hcur.toNat < s.cfg.maxSize) :
    ((s.outCount.toNat - distance) % s.cfg.maxSize + 1) % s.cfg.maxSize =
      ((afterEmit v s).outCount.toNat - distance) % (afterEmit v s).cfg.maxSize := by
  rw [Nat.mod_add_mod, (afterEmit_counts v ho hh).1, Nat.sub_add_comm hwritten]
  rfl

/-- The copy law of R74. The first byte is the one the window holds `distance` back; the bytes after it are a copy from the state
it leaves, so they may read it. -/
theorem HistoryLaw.copyFrom_bytes (h : HistoryLaw s) (hpos : 1 ≤ distance) (hwritten : distance ≤ s.outCount.toNat)
    (hheld : distance ≤ s.cfg.maxSize)
    (hcopy : copyFrom n ((s.outCount.toNat - distance) % s.cfg.maxSize) s = .ok t) (i : Nat) (hi : i < n) :
    t.outMem.read (s.outCount.toNat + i) = t.outMem.read (s.outCount.toNat + i - distance) := by
  induction n generalizing s i with
  | zero => omega
  | succ n ih =>
    obtain ⟨v, hv, ho, hh, hrest⟩ := copyFrom_succ_ok hcopy
    have hcount := (afterEmit_counts v ho hh).1
    cases i with
    | zero =>
      have hkept := (copyFrom_appended hrest).keptOut
      calc t.outMem.read s.outCount.toNat
          = (Machine.afterEmit v s).outMem.read s.outCount.toNat := hkept _ (by omega)
        _ = some v := Memory.read_write_same ..
        _ = s.outMem.read (s.outCount.toNat - distance) := hv ▸ h.window _ (by omega) (by omega)
        _ = (Machine.afterEmit v s).outMem.read (s.outCount.toNat - distance) :=
            (Memory.read_write_other _ _ (by omega)).symm
        _ = t.outMem.read (s.outCount.toNat - distance) := (hkept _ (by omega)).symm
    | succ i =>
      have hnext := ih (h.afterEmit v ho) (by omega) hheld (copySource_after_emit hwritten ho hh ▸ hrest) i (by omega)
      rwa [hcount, Nat.add_assoc, Nat.add_comm 1 i] at hnext

/-- What a copy that ends has done, all of it: the new bytes of `HIST` follow from the law of the history it keeps. -/
theorem CopyRuns.copiedFrom (h : CopyRuns distance n s) (hpos : 0 < n → 1 ≤ distance)
    (hcopy : copyFrom n ((s.outCount.toNat - distance) % s.cfg.maxSize) s = .ok t) :
    CopiedFrom distance n s t ∧ HistoryLaw t := by
  obtain ⟨hlaw, hcount⟩ := h.history.of_copyFrom hcopy
  have happ := copyFrom_appended hcopy
  have hframe := copyFrom_frame hcopy
  have hcfg : t.cfg = s.cfg := by rw [hframe]
  have hnew : t.outCount.toNat - s.outCount.toNat = n := by omega
  refine ⟨⟨hframe, hcount, ?_, fun i hi => ?_, ?_, fun i hi hwin => ?_, ?_⟩, hlaw⟩
  · rw [happ.cursor h.history.hcur_lt, hnew]
  · exact h.history.copyFrom_bytes (hpos (by omega)) h.written h.held hcopy i hi
  · exact hcount ▸ happ.keptOut
  · rw [h.history.cursor, Nat.mod_add_mod, ← hcfg]
    rw [← hcfg] at hwin
    exact hlaw.window _ (by omega) (by omega)
  · exact hnew ▸ happ.keptHist

/-- `copy_exec` where it may run (R73). Only a copy of no bytes may have distance 0. -/
theorem CopyRuns.exists_copyExec (h : CopyRuns distance n s) (hpos : 0 < n → 1 ≤ distance) :
    ∃ t, copyExec distance n s = .ok t ∧ CopiedFrom distance n s t ∧ HistoryLaw t := by
  have hdefined : ∃ t, copyFrom n ((s.outCount.toNat - distance) % s.cfg.maxSize) s = .ok t := by
    cases n with
    | zero => exact ⟨s, rfl⟩
    | succ n =>
      have hroom := h.room
      have hdecl := h.declared
      have hbuf := declMax_lt_maxBuf
      exact h.history.exists_copyFrom (hpos (by omega)) h.written h.held (by omega)
  obtain ⟨t, ht⟩ := hdefined
  refine ⟨t, ?_, h.copiedFrom hpos ht⟩
  rw [copyExec, h.history.copySource_eq h.written h.held, ht]

/-- The copy of any range runs where the checks of R78 pass; its distance is at least its length. -/
theorem CopyRuns.exists_execCopy {r : Fin 6} {len extra : Nat} (hdist : copyDistance r len extra = distance)
    (h : CopyRuns distance len s) :
    ∃ t, execCopy r len extra s = .next t ∧ CopiedFrom distance len s t ∧ HistoryLaw t := by
  have hlen : len ≤ distance := by
    simp only [copyDistance] at hdist
    omega
  obtain ⟨t, ht, hcopied⟩ := h.exists_copyExec (by omega)
  have hpass : copyRefusal distance len s = none := copyRefusal_eq_none.mpr ⟨h.written, h.held, h.room⟩
  refine ⟨t, ?_, hcopied⟩
  rw [execCopy, hdist, hpass, ht, outcomeOf]

/-! ### What a symbol appends -/

/-- Entering an error appends nothing (R108). -/
theorem OutputAppended.enterError (e : ErrCause) (s : State) : OutputAppended s (enterError e s) :=
  { OutputAppended.refl s with }

theorem execLit_appended {b : Byte} (h : execLit b s = .next t) : OutputAppended s t := by
  unfold execLit at h
  split at h
  · cases h
    exact .enterError _ s
  · exact emitByte_appended (outcomeOf_eq_next.mp h)

theorem execTerm_appended (h : execTerm s = .next t) : OutputAppended s t := by
  unfold execTerm at h
  split at h
  · cases h
    exact .enterError _ s
  · cases h
    exact { OutputAppended.refl s with }

theorem execCopy_appended {r : Fin 6} {len extra : Nat} (h : execCopy r len extra s = .next t) : OutputAppended s t := by
  unfold execCopy at h
  split at h
  · cases h
    exact .enterError _ s
  · exact copyFrom_appended (outcomeOf_eq_next.mp h)

theorem exec_appended {i : Instr} (h : exec i s = .next t) : OutputAppended s t := by
  cases i with
  | lit b => exact execLit_appended h
  | term => exact execTerm_appended h
  | copyR0 len extra => exact execCopy_appended (r := 0) h
  | copyR1 len extra => exact execCopy_appended (r := 1) h
  | copyR2 len extra => exact execCopy_appended (r := 2) h
  | copyR3 len extra => exact execCopy_appended (r := 3) h
  | copyR4 len extra => exact execCopy_appended (r := 4) h
  | copyR5 len extra => exact execCopy_appended (r := 5) h

/-! ### The literal -/

/-- A literal with room emits its byte (R76). -/
theorem execLit_of_room (b : Byte) (hroom : s.outCount.toNat + 1 ≤ s.declSize.toNat)
    (hdecl : s.declSize.toNat ≤ Config.declMax) (hh : s.hcur.toNat < s.cfg.maxSize) :
    execLit b s = .next (afterEmit b s) := by
  have hbuf := declMax_lt_maxBuf
  rw [execLit, if_neg (by omega), emitByte_of_room b (by omega) hh, outcomeOf]

end

end Sys2Proof.Machine
end

section
/-! CERTIFICATE. The statements about the symbols (42_lz_copy.md) where they run: literal, end marker, copies, and the frame of
all. -/

namespace Sys2Proof.Machine

/-- Settles O26: the first byte is read from the window, and the rest is a copy from the state it leaves. -/
theorem copyPrimitiveIsByteSerial : Obligations.CopyPrimitiveIsByteSerial :=
  fun _ _ _ hpos hruns => hruns.exists_copyExec fun _ => hpos

/-- Settles O27: range 0 of the shared execution. -/
theorem copyR0Copies : Obligations.CopyR0Copies := fun _ _ _ => CopyRuns.exists_execCopy (r := 0) rfl

/-- Settles O28: range 1 of the shared execution. -/
theorem copyR1Copies : Obligations.CopyR1Copies := fun _ _ _ => CopyRuns.exists_execCopy (r := 1) rfl

/-- Settles O29: range 2 of the shared execution. -/
theorem copyR2Copies : Obligations.CopyR2Copies := fun _ _ _ => CopyRuns.exists_execCopy (r := 2) rfl

/-- Settles O30: range 3 of the shared execution. -/
theorem copyR3Copies : Obligations.CopyR3Copies := fun _ _ _ => CopyRuns.exists_execCopy (r := 3) rfl

/-- Settles O31: range 4 of the shared execution. -/
theorem copyR4Copies : Obligations.CopyR4Copies := fun _ _ _ => CopyRuns.exists_execCopy (r := 4) rfl

/-- Settles O32: range 5 of the shared execution. -/
theorem copyR5Copies : Obligations.CopyR5Copies := fun _ _ _ => CopyRuns.exists_execCopy (r := 5) rfl

/-- Settles O36: how an item ends, and what it appends. -/
theorem symbolFrame : Obligations.SymbolFrame := fun _ _ _ hexec => ⟨exec_ends hexec, exec_appended hexec⟩

/-- Settles O24: a literal with room is `emit_byte`, one write to each memory. -/
theorem litAppendsByte : Obligations.LitAppendsByte := by
  intro b s hroom hdecl hh
  have hbuf := declMax_lt_maxBuf
  obtain ⟨hcount, hcur, -⟩ := afterEmit_counts b (by omega) hh
  exact ⟨afterEmit b s, execLit_of_room b hroom hdecl hh, afterEmit_frame b s, hcount, hcur,
    fun a => Memory.read_write s.outMem _ a b, fun a => Memory.read_write s.hist _ a b⟩

/-- Settles O25: the test of R77 is an equality, and EARLY_TERMINATE is the code 0x202. -/
theorem termEndsTheJob : Obligations.TermEndsTheJob :=
  fun _ => ⟨fun hfull => if_neg (not_not_intro hfull), fun hshort => if_pos hshort⟩

end Sys2Proof.Machine
end

section
/-! SUPPORT. A step from the list of stream bits ahead (43_engine_control.md R92): where the list decoder answers an item, the fetch
answers it too, and the step executes it. -/

namespace Sys2Proof.Machine

section
variable {s u e : State} {n v node leaf : Nat} {b : Bool} {i : Instr} {rest : List Bool} {tr : Tree}

/-- The bits ahead are as many as the reader can still deliver (R59, R61). -/
theorem ReaderOk.length_bitsAhead (h : ReaderOk s) : (bitsAhead s).length = bitsLeft s := by
  have hsum := h.bitpos_add_bitsLeft
  simp only [bitsAhead, List.length_map, List.length_range]
  omega

/-- With the input loaded, the reader delivers the first of the bits ahead (R36, R58). -/
theorem ReaderOk.exists_readBit_ahead (h : ReaderOk s) (hloaded : InputLoaded s) (hahead : bitsAhead s = b :: rest) :
    ∃ t, readBit s = .ok b t ∧ bitsAhead t = rest ∧ ReaderOk t ∧ InputLoaded t := by
  have hleft : s.bitpos < 16 * s.inLen.toNat := by
    have hsum := h.bitpos_add_bitsLeft
    rw [← h.length_bitsAhead, hahead, List.length_cons] at hsum
    omega
  obtain ⟨b', hb'⟩ := exists_streamBit hloaded hleft
  obtain ⟨t, ht, -, hframe, hreader⟩ := h.exists_readBit hleft hb'
  obtain ⟨rfl, rfl⟩ := List.cons.inj ((h.bitsAhead_of_readBit ht).symm.trans hahead)
  exact ⟨t, ht, rfl, hreader, hframe.inputLoaded hloaded⟩

theorem ReaderOk.exists_readBits_ahead (h : ReaderOk s) (hloaded : InputLoaded s)
    (hlist : extraOfBits n (bitsAhead s) = .ok (v, rest)) : ∃ t, readBits n s = .ok v t ∧ bitsAhead t = rest := by
  induction n generalizing s v with
  | zero =>
    cases hlist
    exact ⟨s, rfl, rfl⟩
  | succ n ih =>
    cases hahead : bitsAhead s with
    | nil => simp [hahead, extraOfBits] at hlist
    | cons b tail =>
      obtain ⟨t, ht, rfl, hreader, hloaded'⟩ := h.exists_readBit_ahead hloaded hahead
      rw [hahead, extraOfBits] at hlist
      split at hlist
      · cases hlist
      next w _ hw =>
        cases hlist
        obtain ⟨u, hu, hrest⟩ := ih hreader hloaded' hw
        exact ⟨u, by simp only [readBits, ht, hu], hrest⟩

theorem ReaderOk.exists_descend_ahead (h : ReaderOk s) (hloaded : InputLoaded s) (hn : bitsLeft s < n)
    (hlist : descendBits s.cfg s.tree node (bitsAhead s) = .ok (leaf, rest)) :
    ∃ t, descend n node s = .ok leaf t ∧ bitsAhead t = rest ∧ ReaderOk t ∧ InputLoaded t := by
  induction n generalizing s node with
  | zero => exact absurd hn (Nat.not_lt_zero _)
  | succ n ih =>
    cases hahead : bitsAhead s with
    | nil => simp [hahead, descendBits] at hlist
    | cons b tail =>
      obtain ⟨t, ht, rfl, hreader, hloaded'⟩ := h.exists_readBit_ahead hloaded hahead
      have hframe := readBit_frame ht
      have hcfg : t.cfg = s.cfg := by rw [hframe]
      have htree : t.tree = s.tree := by rw [hframe]
      have hless : bitsLeft t + 1 = bitsLeft s := by
        rw [← h.length_bitsAhead, hahead, List.length_cons, hreader.length_bitsAhead]
      simp only [hahead, descendBits, ← hcfg, ← htree] at hlist
      simp only [descend, ht]
      cases hchild : t.tree.child t.cfg node b with
      | none => simp [hchild] at hlist
      | some next =>
        simp only [hchild] at hlist ⊢
        split at hlist
        next hin =>
          rw [if_pos hin]
          exact ih hreader hloaded' (by omega) hlist
        next hout =>
          cases hlist
          exact ⟨t, if_neg hout, rfl, hreader, hloaded'⟩

/-- Where the list decoder answers an item with an update of the tree, the fetch answers it (R65, R75). -/
theorem ReaderOk.exists_fetchInstr_ahead (h : ReaderOk s) (hloaded : InputLoaded s)
    (hdecode : decodeItem s.cfg s.tree (bitsAhead s) = .ok (i, rest))
    (hupdate : s.tree.update s.cfg (i.symbol s.cfg) = some tr) : ∃ u, fetchInstr s = .ok i u ∧ bitsAhead u = rest := by
  obtain ⟨leaf, _, k, v, hdesc, hclass, hextra, rfl⟩ := decodeItem_eq_ok_iff.mp hdecode
  rw [(toInstr_of_classify hclass v).2] at hupdate
  obtain ⟨t, ht, rfl, hreader, hloaded'⟩ := h.exists_descend_ahead hloaded (Nat.lt_succ_self _) hdesc
  have hcfg : t.cfg = s.cfg := by rw [descend_frame ht]
  have htree : t.tree = s.tree := by rw [descend_frame ht]
  have hsymbol : decodeSymbol s = .ok (leaf - s.cfg.succMax) { t with tree := tr } := by
    simp only [decodeSymbol, ht, hcfg, htree, Nat.not_lt.mpr (Tree.le_maxChar_of_update hupdate), if_false, hupdate]
  have hreader' : ReaderOk { t with tree := tr } := hreader.of_eq rfl rfl rfl rfl rfl
  obtain ⟨u, hu, hrest⟩ := hreader'.exists_readBits_ahead (n := k.extraBits) hloaded' hextra
  have hclass' : classify t.cfg (leaf - s.cfg.succMax) = some k := by rw [hcfg, hclass]
  exact ⟨u, by simp only [fetchInstr, hsymbol, fetchOperands, hclass', hu], hrest⟩

/-- The engine's turn executes the item its fetch answers (R92). -/
theorem step_of_fetch_ok (hbusy : s.fsm = .busy) (hnext : EngineNext s e) (hf : fetchInstr e = .ok i u) :
    step s = exec i u := by
  have hbusy' : e.fsm = .busy := by rw [hnext.eq]; exact hbusy
  rw [step_of_engineNext hnext, engineTurn, if_pos hbusy', engineStep, hf]

end

end Sys2Proof.Machine
end

section
/-! SUPPORT. The host's commands and accesses (43_engine_control.md R88 to R91): what a write of CTRL does by the commands its bits give,
the state START enters, and what is left of a host access while BUSY. -/

namespace Sys2Proof.Machine

section
variable {s : State} {v : Word} {off : Nat}

/-! ### CTRL and START -/

theorem hostWrite_ctrl (v : Word) (s : State) : hostWrite 0 .w32 v s = writeCtrl v s :=
  hostWrite_register v s (by decide) rfl

theorem writeCtrl_start (hstart : v.getLsbD 0 = true) (hfree : s.fsm ≠ .busy) :
    writeCtrl v s = startAction { s with irqEn := v.getLsbD 2 } := by
  simp [writeCtrl, hstart, hfree]

theorem writeCtrl_clear (hstart : v.getLsbD 0 = false) (hclear : v.getLsbD 1 = true)
    (hended : s.fsm = .done ∨ s.fsm = .error) :
    writeCtrl v s = { s with irqEn := v.getLsbD 2, fsm := .idle } := by
  simp only [writeCtrl]
  rw [if_neg (Bool.eq_false_iff.mp hstart), if_pos hclear, if_pos hended]
  rfl

/-- Where START and CLEAR are not set or not taken, a write of CTRL sets IRQ_EN alone (R88). -/
theorem writeCtrl_of_no_command (hstart : v.getLsbD 0 = false ∨ s.fsm = .busy)
    (hclear : v.getLsbD 1 = false ∨ s.fsm = .idle ∨ s.fsm = .busy) :
    writeCtrl v s = { s with irqEn := v.getLsbD 2 } := by
  simp only [writeCtrl]
  split
  next h0 => exact if_pos (hstart.resolve_left (by rw [h0]; exact Bool.noConfusion))
  · split
    next h1 =>
      have hlive := hclear.resolve_left (by rw [h1]; exact Bool.noConfusion)
      rcases hlive with h | h <;> simp [h]
    · rfl

theorem ctrl_eq (s : State) : s.ctrl = if s.irqEn then 4 else 0 := by
  unfold State.ctrl
  cases s.irqEn <;> rfl

theorem startAction_of_capacity (hcap : capacityRefusal s = none) : startAction s = enterBusy (clearJob s) := by
  unfold startAction
  rw [hcap]

/-- START builds a tree of the shape of R69 whatever the files held, and clears what a job reads (R89, R97). -/
theorem jobOk_enterBusy_clearJob (hsized : s.tree.Sized s.cfg) (hcap : capacityRefusal s = none) :
    JobOk (enterBusy (clearJob s)) where
  shape := Tree.shape_init hsized
  reader := ⟨⟨rfl, rfl⟩, Nat.zero_le _, (capacityRefusal_eq_none.mp hcap).2⟩
  declared := (capacityRefusal_eq_none.mp hcap).1
  output := Nat.zero_le _

/-! ### While BUSY -/

theorem writeCtrl_of_busy (v : Word) (hbusy : s.fsm = .busy) : writeCtrl v s = { s with irqEn := v.getLsbD 2 } :=
  writeCtrl_of_no_command (.inr hbusy) (.inr (.inr hbusy))

theorem writeRegister_of_busy (v : Word) (hbusy : s.fsm = .busy) (hoff : off ≠ 0) : writeRegister off v s = s := by
  unfold writeRegister
  split
  · contradiction
  · exact if_pos hbusy
  · exact if_pos hbusy
  · rfl

theorem writeWindow_of_busy (off : Nat) (w : Width) (v : Word) (hbusy : s.fsm = .busy) : writeWindow off w v s = s :=
  if_neg fun h => h.2.2 hbusy

theorem hostWrite_of_busy (w : Width) (v : Word) (hbusy : s.fsm = .busy) (hoff : off ≠ 0) : hostWrite off w v s = s := by
  unfold hostWrite
  split
  · rfl
  · split
    · exact writeRegister_of_busy v hbusy hoff
    · exact writeWindow_of_busy off w v hbusy

/-- A write while BUSY changes at most IRQ_EN, whatever its offset, width and alignment (R91). -/
theorem hostWrite_sameButIrqEn (off : Nat) (w : Width) (v : Word) (hbusy : s.fsm = .busy) :
    SameButIrqEn s (hostWrite off w v s) := by
  by_cases hoff : off = 0
  · subst hoff
    rcases hostWrite_register_cases (off := 0) w v s (by decide) with h | h
    · rw [h, show writeRegister 0 v s = writeCtrl v s from rfl, writeCtrl_of_busy v hbusy]
      rfl
    · rw [h]
      rfl
  · rw [hostWrite_of_busy w v hbusy hoff]
    rfl

/-- A host access while BUSY changes at most IRQ_EN and the record of the response (R91). -/
theorem hostAccess_sameButIrqEn (a : HostAccess) (hbusy : s.fsm = .busy) : SameButIrqEn s (hostAccess a s) := by
  cases a with
  | read addr w =>
    simp only [hostAccess]
    split <;> rfl
  | write addr w v =>
    simp only [hostAccess]
    split
    · rw [hostWrite_sameButIrqEn _ w v hbusy]
      rfl
    · rfl

end

end Sys2Proof.Machine
end

section
/-! SUPPORT. How a running job goes on and ends (43_engine_control.md R92 to R94): what an engine step can be while BUSY, and how many
transitions a job has left. -/

namespace Sys2Proof.Machine

section
variable {s t u : State} {i : Instr} {c : Preset} {tr : Tree} {bits rest : List Bool} {n : Nat}

/-! ### One engine step -/

/-- TERM ends a job in DONE only with `DECL_SIZE` bytes produced (R77). -/
theorem execTerm_done (h : execTerm s = .next t) (hdone : t.fsm = .done) : s.outCount = s.declSize := by
  unfold execTerm at h
  split at h
  · cases h
    cases hdone
  next hfull => exact not_not.mp hfull

/-- An item enters an error, ends the job as TERM with `DECL_SIZE` bytes produced, or writes only output and history. -/
theorem exec_cases (h : exec i s = .next t) :
    t.fsm = .error ∨ (s.outCount = s.declSize ∧ t = { s with fsm := .done }) ∨ SameButOutput s t := by
  rcases exec_ends h with ⟨e, rfl⟩ | ⟨rfl, rfl⟩ | hframe
  · exact .inl rfl
  · exact .inr (.inl ⟨execTerm_done h rfl, rfl⟩)
  · exact .inr (.inr hframe)

/-- An engine step that does not enter an error has fetched an item and executed it. -/
theorem engineStep_ends (h : engineStep s = .next t) : t.fsm = .error ∨ ∃ i u, fetchInstr s = .ok i u ∧
    ((u.outCount = u.declSize ∧ t = { u with fsm := .done }) ∨ SameButOutput u t) := by
  rcases engineStep_cases h with ⟨i, u, hf, hexec⟩ | ⟨e, u, _, rfl⟩
  · exact (exec_cases hexec).imp_right fun hends => ⟨i, u, hf, hends⟩
  · exact .inl rfl

/-- An engine step from BUSY to DONE had all the bytes before it, and wrote none (R94). -/
theorem engineStep_done (h : engineStep s = .next t) (hbusy : s.fsm = .busy) (hdone : t.fsm = .done) :
    t.outCount = t.declSize ∧ t.outMem = s.outMem := by
  rcases engineStep_ends h with herror | ⟨i, u, hf, ⟨hfull, rfl⟩ | hframe⟩
  · rw [herror] at hdone
    cases hdone
  · exact ⟨hfull, by rw [fetchInstr_frame hf]⟩
  · have hkept : t.fsm = .busy := by rw [hframe, fetchInstr_frame hf]; exact hbusy
    rw [hkept] at hdone
    cases hdone

/-! ### The bits of an item -/

/-- An item takes at least the one bit its code has (R55). -/
theorem length_lt_of_decodeItem (h : decodeItem c tr bits = .ok (i, rest)) : rest.length < bits.length := by
  obtain ⟨leaf, tail, k, v, hdesc, -, hextra, -⟩ := decodeItem_eq_ok_iff.mp h
  obtain ⟨hleaf, path, hwalk, rfl⟩ := (descendBits_eq_ok_iff (Preset.root_le_maxChar c)).mp hdesc
  obtain ⟨-, rfl⟩ := extraOfBits_eq_ok_iff.mp hextra
  have hpath : path ≠ [] := by
    rintro rfl
    obtain rfl := Option.some.inj hwalk
    exact absurd (Preset.root_le_maxChar c) (Nat.not_le.mpr hleaf)
  have hpos := List.length_pos_iff.mpr hpath
  simp only [List.length_append]
  omega

theorem ReaderOk.bitsLeft_lt_of_fetchInstr (h : ReaderOk s) (hf : fetchInstr s = .ok i u) : bitsLeft u < bitsLeft s := by
  obtain ⟨hdecode, -, hu⟩ := h.of_fetchInstr hf
  rw [← hu.length_bitsAhead, ← h.length_bitsAhead]
  exact length_lt_of_decodeItem hdecode

/-! ### The transitions a job has left -/

/-- A job that runs with its input loaded and no reset to come. -/
structure UnderWay (s : State) : Prop where
  inv : s.Inv
  busy : s.fsm = .busy
  noReset : .reset ∉ s.schedule
  loaded : InputLoaded s

/-- The bits the job has left, and the host's turns to come between them. -/
def transitionsLeft (s : State) : Nat := bitsLeft s + s.schedule.countP fun turn => decide (turn ≠ .engine)

theorem UnderWay.of_sameJob (h : UnderWay s) (hsame : SameJob s t) (hturns : t.schedule ⊆ s.schedule) : UnderWay t where
  inv := h.inv.of_sameJob hsame
  busy := by rw [hsame]; exact h.busy
  noReset hmem := h.noReset (hturns hmem)
  loaded := by rw [hsame]; exact h.loaded

theorem SameJob.bitsLeft (h : SameJob s t) : bitsLeft t = bitsLeft s := by rw [h]; rfl

/-- The job has ended in DONE or ERROR, or it is still under way with fewer than `n` transitions left. -/
def EndedOrNearer (n : Nat) (t : State) : Prop := (t.fsm = .done ∨ t.fsm = .error) ∨ (UnderWay t ∧ transitionsLeft t < n)

/-- An engine step ends the job or takes one of the bits it has left. -/
theorem UnderWay.exists_engineTurn (h : UnderWay s) : ∃ t, engineTurn s = .next t ∧ EndedOrNearer (transitionsLeft s) t := by
  obtain ⟨t, ht⟩ := (h.inv.running h.busy h.loaded).exists_engineStep
  have hturn : engineTurn s = .next t := (if_pos h.busy).trans ht
  refine ⟨t, hturn, ?_⟩
  rcases engineStep_ends ht with herror | ⟨i, u, hf, ⟨_, rfl⟩ | hframe⟩
  · exact .inl (.inr herror)
  · exact .inl (.inl rfl)
  · have hless := (h.inv.job h.busy).reader.bitsLeft_lt_of_fetchInstr hf
    have hfetch := fetchInstr_frame hf
    have hturns : t.schedule = s.schedule := by rw [hframe, hfetch]
    have hbits : bitsLeft t = bitsLeft u := by rw [hframe]; rfl
    refine .inr ⟨⟨h.inv.of_engineTurn hturn, ?_, hturns ▸ h.noReset, ?_⟩, ?_⟩
    · rw [hframe, hfetch]; exact h.busy
    · rw [hframe, hfetch]; exact h.loaded
    · simp only [transitionsLeft, hturns, hbits]
      omega

/-- Every transition of a job under way ends it or brings its end nearer (R93). -/
theorem UnderWay.exists_step (h : UnderWay s) : ∃ t, step s = .next t ∧ EndedOrNearer (transitionsLeft s) t := by
  cases hs : s.schedule with
  | nil =>
    rw [step_of_engineNext (.inl ⟨hs, rfl⟩)]
    exact h.exists_engineTurn
  | cons turn rest =>
    have hsub : rest ⊆ s.schedule := hs ▸ List.subset_cons_self turn rest
    have hrest : UnderWay { s with schedule := rest } := h.of_sameJob rfl hsub
    cases turn with
    | engine =>
      have hcount : transitionsLeft { s with schedule := rest } = transitionsLeft s := by
        simp [transitionsLeft, hs, bitsLeft]
      rw [step_of_engineNext (.inr ⟨rest, hs, rfl⟩), ← hcount]
      exact hrest.exists_engineTurn
    | host a =>
      have hframe := hostAccess_sameButIrqEn a hrest.busy
      have hsame : SameJob { s with schedule := rest } (hostAccess a { s with schedule := rest }) := by
        rw [hframe]
        rfl
      have hturns : (hostAccess a { s with schedule := rest }).schedule = rest := by rw [hframe]
      refine ⟨_, by simp only [step, hs], .inr ⟨hrest.of_sameJob hsame (by rw [hturns]; exact List.Subset.refl rest), ?_⟩⟩
      simp only [transitionsLeft, hsame.bitsLeft, hturns, hs]
      simp [bitsLeft]
    | reset => exact absurd (hs ▸ List.mem_cons_self) h.noReset

theorem run_succ_of_step (h : step s = .next t) (n : Nat) : core.run (n + 1) s = core.run n t := by
  simp only [Host.Core.run, core, h]

/-- A job under way with fewer than `n` transitions left has ended after at most `n` (R93). -/
theorem UnderWay.exists_run (h : UnderWay s) (hn : transitionsLeft s < n) :
    ∃ k t, k ≤ n ∧ core.run k s = .next t ∧ (t.fsm = .done ∨ t.fsm = .error) := by
  induction n generalizing s with
  | zero => exact absurd hn (Nat.not_lt_zero _)
  | succ n ih =>
    obtain ⟨t, ht, hended | ⟨hway, hless⟩⟩ := h.exists_step
    · exact ⟨1, t, Nat.succ_pos n, run_succ_of_step ht 0, hended⟩
    · obtain ⟨k, u, hk, hrun, hended⟩ := ih hway (by omega)
      exact ⟨k + 1, u, Nat.succ_le_succ hk, (run_succ_of_step ht k).trans hrun, hended⟩

end

end Sys2Proof.Machine
end

section
/-! SUPPORT. What a job does not read (43_engine_control.md R91, R95): an engine step gives the same with the host's fields and the turns
to come changed, and leaves those as they are. -/

namespace Sys2Proof.Machine

/-- `s` with the fields of `u` that no job reads: `IRQ_EN`, the last response and the turns to come. -/
def State.withHostOf (u s : State) : State := { s with irqEn := u.irqEn, resp := u.resp, schedule := u.schedule }

/-- The same end of a part of an engine step, in the state `f` makes of the one it left. -/
def Flow.mapState {α : Type} (f : State → State) : Flow α → Flow α
  | .ok a s => .ok a (f s)
  | .raised e s => .raised e (f s)
  | .stop r => .stop r

/-- The same outcome of a step, in the state `f` makes of the next one. -/
def mapNext (f : State → State) : Host.Outcome State Fault Refusal → Host.Outcome State Fault Refusal
  | .next s => .next (f s)
  | .fault r => .fault r
  | .refused r => .refused r

section
variable (u s : State)

@[simp] theorem withHostOf_cfg : (u.withHostOf s).cfg = s.cfg := rfl
@[simp] theorem withHostOf_inLen : (u.withHostOf s).inLen = s.inLen := rfl
@[simp] theorem withHostOf_outCount : (u.withHostOf s).outCount = s.outCount := rfl
@[simp] theorem withHostOf_bitcount : (u.withHostOf s).bitcount = s.bitcount := rfl
@[simp] theorem withHostOf_widx : (u.withHostOf s).widx = s.widx := rfl
@[simp] theorem withHostOf_hcur : (u.withHostOf s).hcur = s.hcur := rfl
@[simp] theorem withHostOf_tree : (u.withHostOf s).tree = s.tree := rfl
@[simp] theorem withHostOf_declSize : (u.withHostOf s).declSize = s.declSize := rfl
@[simp] theorem withHostOf_hist : (u.withHostOf s).hist = s.hist := rfl

@[simp] theorem Flow.mapState_ok {α : Type} (f : State → State) (a : α) :
    (Flow.ok a s).mapState f = .ok a (f s) := rfl
@[simp] theorem Flow.mapState_raised {α : Type} (f : State → State) (e : ErrCause) :
    (Flow.raised e s : Flow α).mapState f = .raised e (f s) := rfl
@[simp] theorem Flow.mapState_stop {α : Type} (f : State → State) (r : Fault) :
    (Flow.stop r : Flow α).mapState f = .stop r := rfl

end

section
variable {s t v : State}

theorem sameJob_iff : SameJob s t ↔ t = t.withHostOf s := Iff.rfl

theorem sameJob_withHostOf (u s : State) : SameJob s (u.withHostOf s) := rfl

theorem SameButIrqEn.sameJob (h : SameButIrqEn s t) : SameJob s t := by
  rw [h]
  rfl

theorem SameJob.trans (h : SameJob s t) (k : SameJob t v) : SameJob s v := by
  unfold SameJob at *
  rw [k, h]

/-- Any list of host accesses while BUSY leaves the job as it is (R91). -/
theorem foldl_hostAccess_sameJob (accesses : List HostAccess) (hbusy : s.fsm = .busy) :
    SameJob s (accesses.foldl (fun u a => hostAccess a u) s) := by
  induction accesses generalizing s with
  | nil => rfl
  | cons a rest ih =>
    have hfirst := hostAccess_sameButIrqEn a hbusy
    have hbusy' : (hostAccess a s).fsm = .busy := by rw [hfirst]; exact hbusy
    exact hfirst.sameJob.trans (ih hbusy')

end

section
variable (u s : State)

/-! ### The fetch -/

theorem readBit_withHostOf : readBit (u.withHostOf s) = (readBit s).mapState u.withHostOf := by
  by_cases hc : s.bitcount = 0
  · by_cases hw : s.inLen ≤ s.widx
    · simp [readBit, hc, hw]
    · have hload : loadWord (u.withHostOf s) s.widx.toNat = loadWord s s.widx.toNat := rfl
      simp only [readBit, withHostOf_bitcount, withHostOf_inLen, withHostOf_widx, if_pos hc, if_neg hw, hload]
      cases loadWord s s.widx.toNat <;> rfl
  · rw [readBit_of_bitcount hc, readBit_of_bitcount (s := u.withHostOf s) hc]
    rfl

theorem readBits_withHostOf (n : Nat) : readBits n (u.withHostOf s) = (readBits n s).mapState u.withHostOf := by
  induction n generalizing s with
  | zero => rfl
  | succ n ih =>
    simp only [readBits, readBit_withHostOf]
    cases readBit s with
    | raised e t => rfl
    | stop f => rfl
    | ok b t =>
      simp only [Flow.mapState_ok, ih]
      cases readBits n t <;> rfl

theorem descend_withHostOf (n node : Nat) : descend n node (u.withHostOf s) = (descend n node s).mapState u.withHostOf := by
  induction n generalizing s node with
  | zero => rfl
  | succ n ih =>
    simp only [descend, readBit_withHostOf]
    cases readBit s with
    | raised e t => rfl
    | stop f => rfl
    | ok b t =>
      simp only [Flow.mapState_ok, ih, withHostOf_cfg, withHostOf_tree]
      cases t.tree.child t.cfg node b with
      | none => rfl
      | some next => by_cases hin : next ≤ t.cfg.maxChar <;> simp [hin]

theorem decodeSymbol_withHostOf : decodeSymbol (u.withHostOf s) = (decodeSymbol s).mapState u.withHostOf := by
  have hleft : bitsLeft (u.withHostOf s) = bitsLeft s := rfl
  simp only [decodeSymbol, hleft, descend_withHostOf]
  cases descend (bitsLeft s + 1) Config.root s with
  | raised e t => rfl
  | stop f => rfl
  | ok node t =>
    simp only [Flow.mapState_ok, withHostOf_cfg, withHostOf_tree]
    by_cases hsym : t.cfg.maxChar < node - t.cfg.succMax
    · simp [hsym]
    · simp only [hsym, if_false]
      cases t.tree.update t.cfg (node - t.cfg.succMax) <;> rfl

theorem fetchOperands_withHostOf (sym : Nat) :
    fetchOperands sym (u.withHostOf s) = (fetchOperands sym s).mapState u.withHostOf := by
  simp only [fetchOperands, withHostOf_cfg, readBits_withHostOf]
  cases classify s.cfg sym with
  | none => rfl
  | some k => cases hread : readBits k.extraBits s <;> simp [hread]

theorem fetchInstr_withHostOf : fetchInstr (u.withHostOf s) = (fetchInstr s).mapState u.withHostOf := by
  simp only [fetchInstr, decodeSymbol_withHostOf]
  cases decodeSymbol s with
  | raised e t => rfl
  | stop f => rfl
  | ok sym t => exact fetchOperands_withHostOf u t sym

/-! ### The item -/

theorem enterError_withHostOf (e : ErrCause) : enterError e (u.withHostOf s) = u.withHostOf (enterError e s) := rfl

theorem emitByte_withHostOf (v : Byte) : emitByte v (u.withHostOf s) = (emitByte v s).map u.withHostOf := by
  by_cases hout : Config.maxBuf ≤ s.outCount.toNat
  · simp [emitByte, hout, Except.map]
  · by_cases hcur : s.cfg.maxSize ≤ s.hcur.toNat
    · simp [emitByte, hout, hcur, Except.map]
    · simp only [emitByte, withHostOf_outCount, withHostOf_cfg, withHostOf_hcur, hout, hcur, if_false]
      rfl

theorem copyFrom_withHostOf (n k : Nat) : copyFrom n k (u.withHostOf s) = (copyFrom n k s).map u.withHostOf := by
  induction n generalizing s k with
  | zero => rfl
  | succ n ih =>
    simp only [copyFrom, withHostOf_hist, emitByte_withHostOf]
    cases s.hist.read k with
    | none => rfl
    | some v =>
      cases hemit : emitByte v s with
      | error f => simp only [hemit, Except.map]
      | ok t => simp only [hemit, Except.map, withHostOf_cfg, ih]

theorem outcomeOf_map (f : State → State) (x : Except Fault State) : outcomeOf (x.map f) = mapNext f (outcomeOf x) := by
  cases x <;> rfl

theorem execLit_withHostOf (b : Byte) : execLit b (u.withHostOf s) = mapNext u.withHostOf (execLit b s) := by
  by_cases hroom : s.declSize.toNat < s.outCount.toNat + 1
  · simp [execLit, hroom, enterError_withHostOf, mapNext]
  · simp [execLit, hroom, emitByte_withHostOf, outcomeOf_map]

theorem execTerm_withHostOf : execTerm (u.withHostOf s) = mapNext u.withHostOf (execTerm s) := by
  by_cases hfull : s.outCount = s.declSize
  · simp only [execTerm, withHostOf_outCount, withHostOf_declSize, hfull, ne_eq, not_true, if_false]
    rfl
  · simp [execTerm, hfull, enterError_withHostOf, mapNext]

theorem execCopy_withHostOf (r : Fin 6) (len extra : Nat) :
    execCopy r len extra (u.withHostOf s) = mapNext u.withHostOf (execCopy r len extra s) := by
  have hcheck : copyRefusal (copyDistance r len extra) len (u.withHostOf s) =
      copyRefusal (copyDistance r len extra) len s := rfl
  have hsource : copySource (copyDistance r len extra) (u.withHostOf s) = copySource (copyDistance r len extra) s := rfl
  simp only [execCopy, copyExec, hcheck, hsource, copyFrom_withHostOf, outcomeOf_map]
  cases copyRefusal (copyDistance r len extra) len s <;> rfl

theorem exec_withHostOf (i : Instr) : exec i (u.withHostOf s) = mapNext u.withHostOf (exec i s) := by
  cases i with
  | lit b => exact execLit_withHostOf u s b
  | term => exact execTerm_withHostOf u s
  | copyR0 len extra => exact execCopy_withHostOf u s 0 len extra.toNat
  | copyR1 len extra => exact execCopy_withHostOf u s 1 len extra.toNat
  | copyR2 len extra => exact execCopy_withHostOf u s 2 len extra.toNat
  | copyR3 len extra => exact execCopy_withHostOf u s 3 len extra.toNat
  | copyR4 len extra => exact execCopy_withHostOf u s 4 len extra.toNat
  | copyR5 len extra => exact execCopy_withHostOf u s 5 len extra.toNat

/-- An engine step neither reads nor writes the host's fields and the turns to come (R95). -/
theorem engineStep_withHostOf : engineStep (u.withHostOf s) = mapNext u.withHostOf (engineStep s) := by
  simp only [engineStep, fetchInstr_withHostOf]
  cases fetchInstr s with
  | raised e t => rfl
  | stop f => rfl
  | ok i t => exact exec_withHostOf u t i

end

/-! ### No refusal -/

theorem outcomeOf_ne_refused (x : Except Fault State) (r : Refusal) : outcomeOf x ≠ .refused r := by
  cases x <;> simp [outcomeOf]

theorem execLit_ne_refused (b : Byte) (s : State) (r : Refusal) : execLit b s ≠ .refused r := by
  unfold execLit
  split
  · exact nofun
  · exact outcomeOf_ne_refused _ r

theorem execTerm_ne_refused (s : State) (r : Refusal) : execTerm s ≠ .refused r := by
  unfold execTerm
  split <;> exact nofun

theorem execCopy_ne_refused (range : Fin 6) (len extra : Nat) (s : State) (r : Refusal) :
    execCopy range len extra s ≠ .refused r := by
  unfold execCopy
  split
  · exact nofun
  · exact outcomeOf_ne_refused _ r

theorem exec_ne_refused (i : Instr) (s : State) (r : Refusal) : exec i s ≠ .refused r := by
  cases i with
  | lit b => exact execLit_ne_refused b s r
  | term => exact execTerm_ne_refused s r
  | copyR0 len extra => exact execCopy_ne_refused 0 len extra.toNat s r
  | copyR1 len extra => exact execCopy_ne_refused 1 len extra.toNat s r
  | copyR2 len extra => exact execCopy_ne_refused 2 len extra.toNat s r
  | copyR3 len extra => exact execCopy_ne_refused 3 len extra.toNat s r
  | copyR4 len extra => exact execCopy_ne_refused 4 len extra.toNat s r
  | copyR5 len extra => exact execCopy_ne_refused 5 len extra.toNat s r

theorem engineStep_ne_refused (s : State) (r : Refusal) : engineStep s ≠ .refused r := by
  unfold engineStep
  split
  · exact exec_ne_refused _ _ r
  · exact nofun
  · exact nofun

end Sys2Proof.Machine
end

section
/-! CERTIFICATE. The statements about the engine and its control (43_engine_control.md). -/

namespace Sys2Proof.Machine

/-- Settles O38: the turns to come are no part of what the fetch reads, and the fetch follows the list decoder bit by bit. -/
theorem stepRunsDecodedItem : Obligations.StepRunsDecodedItem := by
  intro s e i rest tr hbusy hnext hreader hloaded hdecode hupdate
  have hreader' := hreader.of_engineNext hnext
  have hsame := hnext.eq
  obtain ⟨u, hf, hrest⟩ : ∃ u, fetchInstr e = .ok i u ∧ bitsAhead u = rest := by
    rw [hsame] at hreader' ⊢
    exact hreader'.exists_fetchInstr_ahead hloaded hdecode hupdate
  obtain ⟨-, htree, hu⟩ := hreader'.of_fetchInstr hf
  have hcfg : e.cfg = s.cfg := by rw [hsame]
  have htree' : e.tree = s.tree := by rw [hsame]
  rw [hcfg, htree', hupdate] at htree
  exact ⟨u, fetchInstr_frame hf, (Option.some.inj htree).symm, hrest, hu, step_of_fetch_ok hbusy hnext hf⟩

/-- Settles O37: the engine's turn is the fetch, and then the item or the error it raised. -/
theorem stepRunsFetchedItem : Obligations.StepRunsFetchedItem := fun _ _ hbusy hnext =>
  ⟨fun _ _ hf => step_of_fetch_ok hbusy hnext hf, fun _ _ hf => step_of_fetch_raised hbusy hnext hf⟩

/-- Settles O51: a write reaches CTRL, where only IRQ_EN is taken, or a register or window that takes none while BUSY. -/
theorem hostWritesWhileBusyAreLost : Obligations.HostWritesWhileBusyAreLost := by
  intro s hbusy
  refine ⟨fun a => hostAccess_sameButIrqEn a hbusy, fun v => ?_, fun off w v hoff => hostWrite_of_busy w v hbusy hoff⟩
  rw [hostWrite_ctrl, writeCtrl_of_busy v hbusy]

/-- Settles O49: the arguments pass the check of R100, so START is the clearing and then the fresh tree. -/
theorem startGivesCleanEntry : Obligations.StartGivesCleanEntry := by
  intro s hsized hdecl hlen
  have hcap : capacityRefusal s = none := capacityRefusal_eq_none.mpr ⟨hdecl, hlen⟩
  rw [startAction_of_capacity hcap]
  exact ⟨rfl, jobOk_enterBusy_clearJob hsized hcap⟩

/-- Settles O48, command by command. -/
theorem ctrlWrite : Obligations.CtrlWrite := by
  intro v s
  simp only [hostWrite_ctrl]
  refine ⟨writeCtrl_start, fun _ hbusy => writeCtrl_of_busy v hbusy, writeCtrl_clear, fun h0 _ hlive => ?_,
    fun h0 h1 => ?_, ?_⟩
  · exact writeCtrl_of_no_command (.inl h0) (.inr hlive)
  · exact writeCtrl_of_no_command (.inl h0) (.inl h1)
  · rw [hostRead_register s (by decide) rfl, ← ctrl_eq]
    rfl

/-- Settles O43: each transition but the last takes a bit the job has left, or a turn of the host. -/
theorem everyJobEnds : Obligations.EveryJobEnds := by
  intro s hinv hbusy hreset hloaded
  have hway : UnderWay s := ⟨hinv, hbusy, hreset, hloaded⟩
  obtain ⟨n, t, hn, hrun, hended⟩ := hway.exists_run (Nat.lt_succ_self _)
  exact ⟨n, t, by simp only [transitionsLeft] at hn; omega, hrun, hended⟩

/-- Settles O41: only TERM with all bytes produced ends in DONE, and the invariant says what the state it leaves holds. -/
theorem doneMeansComplete : Obligations.DoneMeansComplete := by
  intro s e t hinv hbusy hnext hstep hdone
  have hkeeps : t.Inv := everyStepKeepsTheInvariant s t hinv hstep
  have hbusy' : e.fsm = .busy := by rw [hnext.eq]; exact hbusy
  rw [step_of_engineNext hnext, engineTurn, if_pos hbusy'] at hstep
  obtain ⟨hfull, hout⟩ := engineStep_done hstep hbusy' hdone
  have herr : t.errInfo = 0 := by simpa only [ErrInfoLegal, hdone] using hkeeps.errInfo
  exact ⟨hfull, herr, hout.trans (by rw [hnext.eq]), hfull ▸ hkeeps.history.produced⟩

/-- Settles O44: an engine step of the second state is that of the first with the host's fields put back. -/
theorem jobIgnoresTheHost : Obligations.JobIgnoresTheHost := by
  intro s hbusy
  refine ⟨fun accesses => foldl_hostAccess_sameJob accesses hbusy, fun u hsame => ?_⟩
  have hstep : engineStep u = mapNext u.withHostOf (engineStep s) := by
    conv_lhs => rw [sameJob_iff.mp hsame]
    exact engineStep_withHostOf u s
  refine ⟨fun t ht => ?_, fun f hf => ?_, engineStep_ne_refused s⟩
  · exact ⟨u.withHostOf t, by rw [hstep, ht]; rfl, sameJob_withHostOf u t⟩
  · rw [hstep, hf]
    rfl

end Sys2Proof.Machine
end

section
/-! SUPPORT. The causes of an error (60_exceptions.md R98 to R105): the check that fails first names the cause, and what comes
before `enter_error` writes no output. -/

namespace Sys2Proof.Machine

section
variable {s t u : State} {cause : ErrCause} {i : Instr} {r : Fin 6} {distance len extra sym : Nat}

/-! ### The checks of a copy -/

theorem copyRefusal_of_unwritten (h : s.outCount.toNat < distance) : copyRefusal distance len s = some .distUnwritten :=
  if_pos h

theorem copyRefusal_of_beyond (hwritten : distance ≤ s.outCount.toNat) (h : s.cfg.maxSize < distance) :
    copyRefusal distance len s = some .distBeyondHistory := by
  rw [copyRefusal, if_neg (Nat.not_lt.mpr hwritten), if_pos h]

theorem copyRefusal_of_overrun (hwritten : distance ≤ s.outCount.toNat) (hheld : distance ≤ s.cfg.maxSize)
    (h : s.declSize.toNat < s.outCount.toNat + len) : copyRefusal distance len s = some .outputOverrun := by
  rw [copyRefusal, if_neg (Nat.not_lt.mpr hwritten), if_neg (Nat.not_lt.mpr hheld), if_pos h]

/-- The item of any range is the shared execution, its extra field held whole (R78 to R84). -/
theorem exec_copyOf (len : Nat) (s : State) (hextra : extra < 2 ^ Config.copyBits r) :
    exec (Instr.copyOf r len extra) s = execCopy r len extra s := by
  match r with
  | 0 | 1 | 2 | 3 | 4 | 5 => exact congrArg (execCopy _ len · s) (Nat.mod_eq_of_lt hextra)

theorem exec_copyOf_of_refusal (hextra : extra < 2 ^ Config.copyBits r)
    (h : copyRefusal (copyDistance r len extra) len s = some cause) :
    exec (Instr.copyOf r len extra) s = .next (enterError cause s) := by
  rw [exec_copyOf len s hextra, execCopy, h]

/-- The greatest distance of a range below 5 is 5455 above its length, well within the history (R52, R107). -/
theorem eq_five_of_maxSize_lt_copyDistance {c : Preset} (hextra : extra < 2 ^ Config.copyBits r) (hlen : len ≤ c.maxCopy)
    (h : c.maxSize < copyDistance r len extra) : r = 5 := by
  simp only [copyDistance, Preset.maxSize, Config.maxDistance] at h
  match r with
  | 0 | 1 | 2 | 3 | 4 =>
    simp only [Config.copyBits, Config.copyMin] at hextra h
    omega
  | 5 => rfl

/-! ### The check of START -/

theorem capacityRefusal_of_declSize (h : Config.declMax < s.declSize.toNat) :
    capacityRefusal s = some .declSizeTooLarge := by
  have hmax : Config.declMax + Config.capMargin = Config.maxBuf := rfl
  exact if_pos (by omega)

theorem capacityRefusal_of_inLen (hdecl : s.declSize.toNat ≤ Config.declMax) (h : Config.maxBuf < s.inLen.toNat) :
    capacityRefusal s = some .inLenTooLarge := by
  have hmax : Config.declMax + Config.capMargin = Config.maxBuf := rfl
  rw [capacityRefusal, if_neg (by omega), if_pos h]

theorem startAction_of_refusal (h : capacityRefusal s = some cause) : startAction s = enterError cause (clearJob s) := by
  unfold startAction
  rw [h]

/-! ### An engine step that enters ERROR -/

theorem decodeSymbol_frame_of_raised (h : decodeSymbol s = .raised cause u) : SameButReader s u := by
  simp only [decodeSymbol] at h
  split at h
  next hdesc =>
    cases h
    exact descend_frame_of_raised hdesc
  · cases h
  next hdesc =>
    split at h
    · cases h
      exact descend_frame hdesc
    · split at h <;> cases h

theorem fetchOperands_frame_of_raised (h : fetchOperands sym s = .raised cause u) : SameButReader s u := by
  simp only [fetchOperands] at h
  split at h
  · cases h
    exact .refl s
  · split at h
    next hread =>
      cases h
      exact readBits_frame_of_raised hread
    · cases h
    · cases h

/-- A fetch that raises has written only the reader and the tree, in any state (R98). -/
theorem fetchInstr_frame_of_raised (h : fetchInstr s = .raised cause u) : SameButFetch s u := by
  rcases fetchInstr_raised h with hsym | ⟨sym, t, hsym, hoperands⟩
  · exact (decodeSymbol_frame_of_raised hsym).sameButFetch
  · obtain ⟨_, leaf, v, tree, hdesc, _, _, rfl⟩ := decodeSymbol_ok hsym
    have hupdate : SameButFetch v { v with tree := tree } := rfl
    exact ((descend_frame hdesc).sameButFetch.trans hupdate).trans (fetchOperands_frame_of_raised hoperands).sameButFetch

/-- An item run while BUSY that ends in ERROR has entered it at a check, before any effect (R98). -/
theorem exec_error (h : exec i s = .next t) (hbusy : s.fsm = .busy) (herror : t.fsm = .error) :
    ∃ cause, t = enterError cause s := by
  rcases exec_ends h with hrefused | ⟨_, rfl⟩ | hframe
  · exact hrefused
  · cases herror
  · have hkept : t.fsm = .busy := by rw [hframe]; exact hbusy
    rw [hkept] at herror
    cases herror

/-- An engine step that ends in ERROR is `enter_error` in a state where only the reader and the tree moved on (R98, R108). -/
theorem engineStep_error (h : engineStep s = .next t) (hbusy : s.fsm = .busy) (herror : t.fsm = .error) :
    ∃ cause u, SameButFetch s u ∧ t = enterError cause u := by
  rcases engineStep_cases h with ⟨i, u, hf, hexec⟩ | ⟨cause, u, hf, rfl⟩
  · have hframe := fetchInstr_frame hf
    have hbusy' : u.fsm = .busy := by rw [hframe]; exact hbusy
    obtain ⟨cause, rfl⟩ := exec_error hexec hbusy' herror
    exact ⟨cause, u, hframe, rfl⟩
  · exact ⟨cause, u, fetchInstr_frame_of_raised hf, rfl⟩

end

end Sys2Proof.Machine
end

section
/-! CERTIFICATE. The statements about errors (60_exceptions.md). -/

namespace Sys2Proof.Machine

/-- Settles O40: ERROR is entered from the fetch or from a check of the item, and neither writes output. -/
theorem errorWritesNoOutput : Obligations.ErrorWritesNoOutput := by
  intro s e t hbusy hnext hstep herror
  have hbusy' : e.fsm = .busy := by rw [hnext.eq]; exact hbusy
  rw [step_of_engineNext hnext, engineTurn, if_pos hbusy'] at hstep
  obtain ⟨cause, u, hframe, rfl⟩ := engineStep_error hstep hbusy' herror
  rw [hframe, hnext.eq]
  exact ⟨rfl, rfl, rfl, rfl, rfl, rfl, rfl, rfl, cause, rfl⟩

/-- Settles O33: it is the first check of R78. -/
theorem unwrittenDistanceRefused : Obligations.UnwrittenDistanceRefused := fun _ _ _ _ hextra hunwritten =>
  exec_copyOf_of_refusal hextra (copyRefusal_of_unwritten hunwritten)

/-- Settles O34: it is the second check of R78, and only range 5 reaches that far. -/
theorem overwrittenDistanceRefused : Obligations.OverwrittenDistanceRefused := fun _ _ _ _ hextra hwritten hbeyond =>
  ⟨exec_copyOf_of_refusal hextra (copyRefusal_of_beyond hwritten hbeyond),
    fun hlen => eq_five_of_maxSize_lt_copyDistance hextra (lengthOk_iff.mp hlen).2 hbeyond⟩

/-- Settles O35: it is the one check of a literal (R76) and the last of a copy (R78). -/
theorem overrunRefused : Obligations.OverrunRefused :=
  ⟨fun _ _ hfull => if_pos hfull, fun _ _ _ _ hextra hwritten hheld hfull =>
    exec_copyOf_of_refusal hextra (copyRefusal_of_overrun hwritten hheld hfull)⟩

/-- Settles O50: a refused START enters its error in the state just cleared, before a tree is built. -/
theorem startRefusesCapacity : Obligations.StartRefusesCapacity := by
  refine fun s => ⟨fun hdecl => ?_, fun hdecl hlen => ?_, fun hlarge => ?_⟩
  · rw [startAction_of_refusal (capacityRefusal_of_declSize hdecl)]
    rfl
  · rw [startAction_of_refusal (capacityRefusal_of_inLen hdecl hlen)]
    rfl
  · have hrefused : capacityRefusal s ≠ none := fun hcap => by
      obtain ⟨hdecl, hlen⟩ := capacityRefusal_eq_none.mp hcap
      exact hlarge.elim (Nat.not_lt.mpr hdecl) (Nat.not_lt.mpr hlen)
    obtain ⟨cause, hcause⟩ := Option.ne_none_iff_exists'.mp hrefused
    rw [startAction_of_refusal hcause]
    exact ⟨rfl, rfl, rfl, rfl, by simp [irq_eq]⟩

end Sys2Proof.Machine
end

section
/-! SUPPORT. The reset input's turn (70_reset_and_hazards.md R119). -/

namespace Sys2Proof.Machine

/-- A reset turn is the reset input, whatever the state: no condition on `fsm` guards it (R119). -/
theorem step_of_resetNext {s : State} {rest : List Turn} (hs : s.schedule = .reset :: rest) :
    step s = .next (resetInput { s with schedule := rest }) := by
  simp only [step, hs]

/-- Where nothing has been written, no cell holds a value (R30). -/
theorem Memory.read_nil (a : Nat) : Memory.read [] a = none := rfl

/-- In IDLE every bit of `STATUS` is 0, the interrupt's with them (R22, R110). -/
theorem status_of_idle {s : State} (hidle : s.fsm = .idle) : s.status = 0 := by
  have hirq : s.irq = false := by simp [irq_eq, hidle]
  rw [State.status, hirq, hidle]
  rfl

end Sys2Proof.Machine
end

section
/-! CERTIFICATE. The statement about the reset input (70_reset_and_hazards.md). -/

namespace Sys2Proof.Machine

/-- Settles O59: the step is the reset input, which keeps the parameters and the turns to come, moves the draw on (log 16),
and gives all else its value of R30. -/
theorem resetInputInAnyState : Obligations.ResetInputInAnyState := by
  intro s rest hs
  have hctrl : (resetInput { s with schedule := rest }).ctrl = 0 := (ctrl_eq _).trans (if_neg Bool.false_ne_true)
  have hstatus : (resetInput { s with schedule := rest }).status = 0 := status_of_idle rfl
  exact ⟨_, step_of_resetNext hs, rfl, hctrl, hstatus, rfl, rfl, rfl, rfl, rfl, rfl, rfl, rfl, rfl, rfl, rfl, rfl, rfl,
    fun a => ⟨Memory.read_nil a, Memory.read_nil a, Memory.read_nil a⟩⟩

end Sys2Proof.Machine
end
